-- ==== Sys2Proof/Word.lean ====
section
/-! DEFINITION. The value types of KAUMA-GF128: the 128-bit register word (R12, R20), bytes and byte strings (R22), polynomials as coefficient sequences (R13, R21), 32-bit command and control words (R70, R26). -/

namespace Sys2Proof

/-- A 128-bit register word (R12): the datum of a field register, a coefficient, a key, a tag, a block. -/
abbrev Word := BitVec 128

/-- A 32-bit command word (R70) or control register (R26). -/
abbrev Word32 := BitVec 32

/-- One byte of a byte string (R13). -/
abbrev Byte := BitVec 8

/-- A byte string (R22), byte 0 first. -/
abbrev Bytes := List Byte

/-- A polynomial as its coefficient sequence, constant term first (R13, R21). -/
abbrev Poly := List Word

/-- A 4-bit register specifier (R70); arithmetic on it is modulo 16 (R76). -/
abbrev Reg := BitVec 4

end Sys2Proof
end

