-- ==== Sys2Proof/Syntax.lean ====
section
/-! DEFINITION. The 38 commands (R73), one constructor of `Instr` for each row of the opcode table, with the operands each row names; their mnemonics; the five pseudo-instructions (R79). -/

namespace Sys2Proof

/-- The mnemonics of R73, in the table's order. -/
inductive Mnemonic where
  | nop | halt | csrr | csrw
  | fadd | fmul | fmuln | fbrev | finv | fdiv | fpow | fsqrt | fmov | fli
  | padd | pmul | pdivmod | ppow | ppowmod | pderiv | psqrt | pmonic | pgcd | pmov | psetc | pgetc
  | sff | ddf | edf | factor | lcnt | lgetp | lgetn
  | ghash | gcmenc | gcmdec
  | recover | forge
deriving DecidableEq, Repr

/-- Every mnemonic once, in the table's order. -/
def Mnemonic.all : List Mnemonic :=
  [.nop, .halt, .csrr, .csrw,
   .fadd, .fmul, .fmuln, .fbrev, .finv, .fdiv, .fpow, .fsqrt, .fmov, .fli,
   .padd, .pmul, .pdivmod, .ppow, .ppowmod, .pderiv, .psqrt, .pmonic, .pgcd, .pmov, .psetc, .pgetc,
   .sff, .ddf, .edf, .factor, .lcnt, .lgetp, .lgetn,
   .ghash, .gcmenc, .gcmdec,
   .recover, .forge]

/-- A command with its operands. A field is named as in R70; which register file it selects is fixed by the command (R73). -/
inductive Instr where
  /-- `NOP` (R280). -/
  | nop
  /-- `HALT` (R281). -/
  | halt
  /-- `CSRR Fd, csr` (R282). -/
  | csrr (rd : Reg) (csr : BitVec 8)
  /-- `CSRW csr, Fa` (R283). -/
  | csrw (csr : BitVec 8) (ra : Reg)
  /-- `FADD Fd, Fa, Fb` (R108). -/
  | fadd (rd ra rb : Reg)
  /-- `FMUL Fd, Fa, Fb` (R109). -/
  | fmul (rd ra rb : Reg)
  /-- `FMULN Fd, Fa, Fb` (R110). -/
  | fmuln (rd ra rb : Reg)
  /-- `FBREV Fd, Fa` (R111). -/
  | fbrev (rd ra : Reg)
  /-- `FINV Fd, Fa` (R112). -/
  | finv (rd ra : Reg)
  /-- `FDIV Fd, Fa, Fb` (R113). -/
  | fdiv (rd ra rb : Reg)
  /-- `FPOW Fd, Fa, Fb` (R114). -/
  | fpow (rd ra rb : Reg)
  /-- `FSQRT Fd, Fa` (R115). -/
  | fsqrt (rd ra : Reg)
  /-- `FMOV Fd, Fa` (R116). -/
  | fmov (rd ra : Reg)
  /-- `FLI Fd, imm8` (R117). -/
  | fli (rd : Reg) (imm : BitVec 8)
  /-- `PADD Pd, Pa, Pb` (R155). -/
  | padd (rd ra rb : Reg)
  /-- `PMUL Pd, Pa, Pb` (R156). -/
  | pmul (rd ra rb : Reg)
  /-- `PDIVMOD Pd, Pc, Pa, Pb` (R157). -/
  | pdivmod (rd rc ra rb : Reg)
  /-- `PPOW Pd, Pa, Fb` (R158). -/
  | ppow (rd ra rb : Reg)
  /-- `PPOWMOD Pd, Pa, Fb, Pc` (R159). -/
  | ppowmod (rd ra rb rc : Reg)
  /-- `PDERIV Pd, Pa` (R160). -/
  | pderiv (rd ra : Reg)
  /-- `PSQRT Pd, Pa` (R161). -/
  | psqrt (rd ra : Reg)
  /-- `PMONIC Pd, Pa` (R162). -/
  | pmonic (rd ra : Reg)
  /-- `PGCD Pd, Pa, Pb` (R163). -/
  | pgcd (rd ra rb : Reg)
  /-- `PMOV Pd, Pa` (R164). -/
  | pmov (rd ra : Reg)
  /-- `PSETC Pd, Fa, imm8` (R165). -/
  | psetc (rd ra : Reg) (imm : BitVec 8)
  /-- `PGETC Fd, Pa, imm8` (R166). -/
  | pgetc (rd ra : Reg) (imm : BitVec 8)
  /-- `SFF Pa` (R195). -/
  | sff (ra : Reg)
  /-- `DDF Pa` (R196). -/
  | ddf (ra : Reg)
  /-- `EDF Pa, imm8` (R197). -/
  | edf (ra : Reg) (imm : BitVec 8)
  /-- `FACTOR Pa` (R198). -/
  | factor (ra : Reg)
  /-- `LCNT Fd` (R199). -/
  | lcnt (rd : Reg)
  /-- `LGETP Pd, imm8` (R200). -/
  | lgetp (rd : Reg) (imm : BitVec 8)
  /-- `LGETN Fd, imm8` (R201). -/
  | lgetn (rd : Reg) (imm : BitVec 8)
  /-- `GHASH Fd, Fc, Fa, Bb, Be` (R237). -/
  | ghash (rd rc ra rb re : Reg)
  /-- `GCMENC Bd, Fc, Fa, Fb, Be, Bf` (R238). -/
  | gcmenc (rd rc ra rb re rf : Reg)
  /-- `GCMDEC Bd, Fc, Fa, Fb, Be, Bf` (R239). -/
  | gcmdec (rd rc ra rb re rf : Reg)
  /-- `RECOVER Fd, Fc, Fa, Bb` (R263). -/
  | recover (rd rc ra rb : Reg)
  /-- `FORGE Fd, Fa, Fc, Bb, Be` (R264). -/
  | forge (rd ra rc rb re : Reg)
deriving DecidableEq, Repr

/-- The row of the opcode table an instruction belongs to. -/
def Instr.mnemonic : Instr → Mnemonic
  | .nop => .nop
  | .halt => .halt
  | .csrr .. => .csrr
  | .csrw .. => .csrw
  | .fadd .. => .fadd
  | .fmul .. => .fmul
  | .fmuln .. => .fmuln
  | .fbrev .. => .fbrev
  | .finv .. => .finv
  | .fdiv .. => .fdiv
  | .fpow .. => .fpow
  | .fsqrt .. => .fsqrt
  | .fmov .. => .fmov
  | .fli .. => .fli
  | .padd .. => .padd
  | .pmul .. => .pmul
  | .pdivmod .. => .pdivmod
  | .ppow .. => .ppow
  | .ppowmod .. => .ppowmod
  | .pderiv .. => .pderiv
  | .psqrt .. => .psqrt
  | .pmonic .. => .pmonic
  | .pgcd .. => .pgcd
  | .pmov .. => .pmov
  | .psetc .. => .psetc
  | .pgetc .. => .pgetc
  | .sff .. => .sff
  | .ddf .. => .ddf
  | .edf .. => .edf
  | .factor .. => .factor
  | .lcnt .. => .lcnt
  | .lgetp .. => .lgetp
  | .lgetn .. => .lgetn
  | .ghash .. => .ghash
  | .gcmenc .. => .gcmenc
  | .gcmdec .. => .gcmdec
  | .recover .. => .recover
  | .forge .. => .forge

/-! The pseudo-instructions of R79: each is a name for one command. -/

/-- `FZERO Fd`. -/
def Instr.fzero (d : Reg) : Instr := .fli d 0x00

/-- `FONE Fd`. -/
def Instr.fone (d : Reg) : Instr := .fli d 0x80

/-- `FALPHA Fd`. -/
def Instr.falpha (d : Reg) : Instr := .fli d 0x40

/-- `FSQR Fd, Fa`. -/
def Instr.fsqr (d a : Reg) : Instr := .fmul d a a

/-- `PREM Pc, Pa, Pb, Pt` with the scratch `Pt` named. -/
def Instr.prem (c a b t : Reg) : Instr := .pdivmod t c a b

end Sys2Proof
end

