-- ==== Sys2Proof/WellFormed.lean ====
section
/-! DEFINITION. The side conditions of the opcode table (R73, R74 case c, R77): which `Instr` terms a command word can stand for. -/

namespace Sys2Proof

/-- R74(c): `CSRR` names a control register 0 to 5, `CSRW` names `EDFBUDGET`, and the two destinations of `PDIVMOD`, `GHASH` and `RECOVER` differ (R77). Every other term is well formed: its operands fill their fields. -/
def Instr.wf : Instr → Bool
  | .csrr _ csr => decide (csr.toNat ≤ 5)
  | .csrw csr _ => decide (csr = 4)
  | .pdivmod rd rc _ _ => decide (rd ≠ rc)
  | .ghash rd rc _ _ _ => decide (rd ≠ rc)
  | .recover rd rc _ _ => decide (rd ≠ rc)
  | .nop | .halt
  | .fadd .. | .fmul .. | .fmuln .. | .fbrev .. | .finv .. | .fdiv .. | .fpow .. | .fsqrt .. | .fmov .. | .fli ..
  | .padd .. | .pmul .. | .ppow .. | .ppowmod .. | .pderiv .. | .psqrt .. | .pmonic .. | .pgcd .. | .pmov ..
  | .psetc .. | .pgetc ..
  | .sff .. | .ddf .. | .edf .. | .factor .. | .lcnt .. | .lgetp .. | .lgetn ..
  | .gcmenc .. | .gcmdec .. | .forge .. => true

end Sys2Proof
end

