-- ==== Sys2Proof/Decode.lean ====
section
/-! DEFINITION. The command word (R70), the opcode map with its masks (R72, R73), the total decoder (R74), the encoder, and the assembler line of a command (R78). -/

namespace Sys2Proof

/-! ## The fields of the command word (R70) -/

/-- `op`, bits 7:0. -/
def fieldOp (w : Word32) : BitVec 8 := w.extractLsb' 0 8
/-- `rd`, bits 11:8. -/
def fieldRd (w : Word32) : Reg := w.extractLsb' 8 4
/-- `ra`, bits 15:12. -/
def fieldRa (w : Word32) : Reg := w.extractLsb' 12 4
/-- `rb`, bits 19:16. -/
def fieldRb (w : Word32) : Reg := w.extractLsb' 16 4
/-- `rc`, bits 23:20. -/
def fieldRc (w : Word32) : Reg := w.extractLsb' 20 4
/-- `re`, bits 27:24. -/
def fieldRe (w : Word32) : Reg := w.extractLsb' 24 4
/-- `rf`, bits 31:28. -/
def fieldRf (w : Word32) : Reg := w.extractLsb' 28 4
/-- `imm8`, bits 31:24 (the bits of `rf`, `re`). -/
def fieldImm (w : Word32) : BitVec 8 := w.extractLsb' 24 8

/-- The command word of formats N, R and X with the given fields, R78's formula. -/
def packRegs (op : BitVec 8) (rd ra rb rc re rf : Reg) : Word32 :=
  op.setWidth 32 ||| rd.setWidth 32 <<< 8 ||| ra.setWidth 32 <<< 12 ||| rb.setWidth 32 <<< 16 |||
    rc.setWidth 32 <<< 20 ||| re.setWidth 32 <<< 24 ||| rf.setWidth 32 <<< 28

/-- The command word of format I with the given fields, R78's formula; `rb` and `rc` are zero. -/
def packImm (op : BitVec 8) (rd ra : Reg) (imm : BitVec 8) : Word32 :=
  op.setWidth 32 ||| rd.setWidth 32 <<< 8 ||| ra.setWidth 32 <<< 12 ||| imm.setWidth 32 <<< 24

/-! ## The opcode map (R73) -/

/-- The opcode of each row of R73; its zero extension is the row's `match`. -/
def Mnemonic.opcode : Mnemonic → BitVec 8
  | .nop => 0x00
  | .halt => 0x01
  | .csrr => 0x02
  | .csrw => 0x03
  | .fadd => 0x10
  | .fmul => 0x11
  | .fmuln => 0x12
  | .fbrev => 0x13
  | .finv => 0x14
  | .fdiv => 0x15
  | .fpow => 0x16
  | .fsqrt => 0x17
  | .fmov => 0x18
  | .fli => 0x19
  | .padd => 0x20
  | .pmul => 0x21
  | .pdivmod => 0x22
  | .ppow => 0x23
  | .ppowmod => 0x24
  | .pderiv => 0x25
  | .psqrt => 0x26
  | .pmonic => 0x27
  | .pgcd => 0x28
  | .pmov => 0x29
  | .psetc => 0x2A
  | .pgetc => 0x2B
  | .sff => 0x30
  | .ddf => 0x31
  | .edf => 0x32
  | .factor => 0x33
  | .lcnt => 0x34
  | .lgetp => 0x35
  | .lgetn => 0x36
  | .ghash => 0x40
  | .gcmenc => 0x41
  | .gcmdec => 0x42
  | .recover => 0x50
  | .forge => 0x51

/-- The `mask` of each row of R73: the opcode bits and every bit of a field the command does not use (R72). -/
def Mnemonic.mask : Mnemonic → Word32
  | .nop | .halt => 0xFFFFFFFF
  | .csrr | .fli | .lgetp | .lgetn => 0x00FFF0FF
  | .csrw | .edf => 0x00FF0FFF
  | .fadd | .fmul | .fmuln | .fdiv | .fpow | .padd | .pmul | .ppow | .pgcd => 0xFFF000FF
  | .fbrev | .finv | .fsqrt | .fmov | .pderiv | .psqrt | .pmonic | .pmov => 0xFFFF00FF
  | .pdivmod | .ppowmod | .recover => 0xFF0000FF
  | .psetc | .pgetc => 0x00FF00FF
  | .sff | .ddf | .factor => 0xFFFF0FFF
  | .lcnt => 0xFFFFF0FF
  | .ghash | .forge => 0xF00000FF
  | .gcmenc | .gcmdec => 0x000000FF

/-- The row's `match` word (R73): the opcode, every other bit zero. -/
def Mnemonic.matchWord (m : Mnemonic) : Word32 := m.opcode.setWidth 32

/-- The row with the given opcode, if any (R73, R74 case a). -/
def mnemonicOf (op : BitVec 8) : Option Mnemonic := Mnemonic.all.find? (fun m => m.opcode == op)

/-! ## Decoding -/

/-- Why a word is no command: the three cases of R74. -/
inductive Reject where
  /-- R74(a): bits 7:0 are no opcode of R73. -/
  | unknownOpcode
  /-- R74(b): a field the command does not use is not zero. -/
  | reservedField
  /-- R74(c): the side condition of the row fails. -/
  | sideCondition
deriving DecidableEq, Repr

/-- The command of a row with its operands read from the word's fields (R73). -/
def operandsOf (m : Mnemonic) (w : Word32) : Instr :=
  match m with
  | .nop => .nop
  | .halt => .halt
  | .csrr => .csrr (fieldRd w) (fieldImm w)
  | .csrw => .csrw (fieldImm w) (fieldRa w)
  | .fadd => .fadd (fieldRd w) (fieldRa w) (fieldRb w)
  | .fmul => .fmul (fieldRd w) (fieldRa w) (fieldRb w)
  | .fmuln => .fmuln (fieldRd w) (fieldRa w) (fieldRb w)
  | .fbrev => .fbrev (fieldRd w) (fieldRa w)
  | .finv => .finv (fieldRd w) (fieldRa w)
  | .fdiv => .fdiv (fieldRd w) (fieldRa w) (fieldRb w)
  | .fpow => .fpow (fieldRd w) (fieldRa w) (fieldRb w)
  | .fsqrt => .fsqrt (fieldRd w) (fieldRa w)
  | .fmov => .fmov (fieldRd w) (fieldRa w)
  | .fli => .fli (fieldRd w) (fieldImm w)
  | .padd => .padd (fieldRd w) (fieldRa w) (fieldRb w)
  | .pmul => .pmul (fieldRd w) (fieldRa w) (fieldRb w)
  | .pdivmod => .pdivmod (fieldRd w) (fieldRc w) (fieldRa w) (fieldRb w)
  | .ppow => .ppow (fieldRd w) (fieldRa w) (fieldRb w)
  | .ppowmod => .ppowmod (fieldRd w) (fieldRa w) (fieldRb w) (fieldRc w)
  | .pderiv => .pderiv (fieldRd w) (fieldRa w)
  | .psqrt => .psqrt (fieldRd w) (fieldRa w)
  | .pmonic => .pmonic (fieldRd w) (fieldRa w)
  | .pgcd => .pgcd (fieldRd w) (fieldRa w) (fieldRb w)
  | .pmov => .pmov (fieldRd w) (fieldRa w)
  | .psetc => .psetc (fieldRd w) (fieldRa w) (fieldImm w)
  | .pgetc => .pgetc (fieldRd w) (fieldRa w) (fieldImm w)
  | .sff => .sff (fieldRa w)
  | .ddf => .ddf (fieldRa w)
  | .edf => .edf (fieldRa w) (fieldImm w)
  | .factor => .factor (fieldRa w)
  | .lcnt => .lcnt (fieldRd w)
  | .lgetp => .lgetp (fieldRd w) (fieldImm w)
  | .lgetn => .lgetn (fieldRd w) (fieldImm w)
  | .ghash => .ghash (fieldRd w) (fieldRc w) (fieldRa w) (fieldRb w) (fieldRe w)
  | .gcmenc => .gcmenc (fieldRd w) (fieldRc w) (fieldRa w) (fieldRb w) (fieldRe w) (fieldRf w)
  | .gcmdec => .gcmdec (fieldRd w) (fieldRc w) (fieldRa w) (fieldRb w) (fieldRe w) (fieldRf w)
  | .recover => .recover (fieldRd w) (fieldRc w) (fieldRa w) (fieldRb w)
  | .forge => .forge (fieldRd w) (fieldRa w) (fieldRc w) (fieldRb w) (fieldRe w)

/-- Decoding is total (R74): every word is exactly one command or rejected, by the first of R74's cases that applies. -/
def decode (w : Word32) : Except Reject Instr :=
  match mnemonicOf (fieldOp w) with
  | none => .error .unknownOpcode
  | some m =>
    if w &&& m.mask = m.matchWord then
      if (operandsOf m w).wf then .ok (operandsOf m w) else .error .sideCondition
    else .error .reservedField

/-- The command word of an instruction (R73, R78). -/
def encode (i : Instr) : Word32 :=
  let op := i.mnemonic.opcode
  match i with
  | .nop | .halt => packRegs op 0 0 0 0 0 0
  | .csrr rd csr => packImm op rd 0 csr
  | .csrw csr ra => packImm op 0 ra csr
  | .fadd rd ra rb | .fmul rd ra rb | .fmuln rd ra rb | .fdiv rd ra rb | .fpow rd ra rb => packRegs op rd ra rb 0 0 0
  | .fbrev rd ra | .finv rd ra | .fsqrt rd ra | .fmov rd ra => packRegs op rd ra 0 0 0 0
  | .fli rd imm => packImm op rd 0 imm
  | .padd rd ra rb | .pmul rd ra rb | .ppow rd ra rb | .pgcd rd ra rb => packRegs op rd ra rb 0 0 0
  | .pdivmod rd rc ra rb => packRegs op rd ra rb rc 0 0
  | .ppowmod rd ra rb rc => packRegs op rd ra rb rc 0 0
  | .pderiv rd ra | .psqrt rd ra | .pmonic rd ra | .pmov rd ra => packRegs op rd ra 0 0 0 0
  | .psetc rd ra imm | .pgetc rd ra imm => packImm op rd ra imm
  | .sff ra | .ddf ra | .factor ra => packRegs op 0 ra 0 0 0 0
  | .edf ra imm => packImm op 0 ra imm
  | .lcnt rd => packRegs op rd 0 0 0 0 0
  | .lgetp rd imm | .lgetn rd imm => packImm op rd 0 imm
  | .ghash rd rc ra rb re => packRegs op rd ra rb rc re 0
  | .gcmenc rd rc ra rb re rf | .gcmdec rd rc ra rb re rf => packRegs op rd ra rb rc re rf
  | .recover rd rc ra rb => packRegs op rd ra rb rc 0 0
  | .forge rd ra rc rb re => packRegs op rd ra rb rc re 0

/-- The instruction the decoder reads from a table word: a command is one 32-bit word, and any bit above `nbits` is 0. -/
def decodeTableWord (nbits w : Nat) : Option Instr :=
  (decode (BitVec.ofNat 32 (w % 2 ^ nbits))).toOption

/-! ## The assembler line (R78) -/

/-- The mnemonic as the toolchain writes it. -/
def Mnemonic.name : Mnemonic → String
  | .nop => "NOP" | .halt => "HALT" | .csrr => "CSRR" | .csrw => "CSRW"
  | .fadd => "FADD" | .fmul => "FMUL" | .fmuln => "FMULN" | .fbrev => "FBREV" | .finv => "FINV" | .fdiv => "FDIV"
  | .fpow => "FPOW" | .fsqrt => "FSQRT" | .fmov => "FMOV" | .fli => "FLI"
  | .padd => "PADD" | .pmul => "PMUL" | .pdivmod => "PDIVMOD" | .ppow => "PPOW" | .ppowmod => "PPOWMOD"
  | .pderiv => "PDERIV" | .psqrt => "PSQRT" | .pmonic => "PMONIC" | .pgcd => "PGCD" | .pmov => "PMOV"
  | .psetc => "PSETC" | .pgetc => "PGETC"
  | .sff => "SFF" | .ddf => "DDF" | .edf => "EDF" | .factor => "FACTOR" | .lcnt => "LCNT" | .lgetp => "LGETP"
  | .lgetn => "LGETN"
  | .ghash => "GHASH" | .gcmenc => "GCMENC" | .gcmdec => "GCMDEC"
  | .recover => "RECOVER" | .forge => "FORGE"

/-- `F0` .. `F15`. -/
def asmF (r : Reg) : String := "F" ++ toString r.toNat
/-- `P0` .. `P15`. -/
def asmP (r : Reg) : String := "P" ++ toString r.toNat
/-- `B0` .. `B15`. -/
def asmB (r : Reg) : String := "B" ++ toString r.toNat
/-- An immediate or a control-register number, in decimal. -/
def asmI (imm : BitVec 8) : String := toString imm.toNat

/-- The operands of the assembler line, destinations first, in the order of R73's second column. -/
def Instr.asmOperands : Instr → List String
  | .nop | .halt => []
  | .csrr rd csr => [asmF rd, asmI csr]
  | .csrw csr ra => [asmI csr, asmF ra]
  | .fadd rd ra rb | .fmul rd ra rb | .fmuln rd ra rb | .fdiv rd ra rb | .fpow rd ra rb => [asmF rd, asmF ra, asmF rb]
  | .fbrev rd ra | .finv rd ra | .fsqrt rd ra | .fmov rd ra => [asmF rd, asmF ra]
  | .fli rd imm => [asmF rd, asmI imm]
  | .padd rd ra rb | .pmul rd ra rb | .pgcd rd ra rb => [asmP rd, asmP ra, asmP rb]
  | .pdivmod rd rc ra rb => [asmP rd, asmP rc, asmP ra, asmP rb]
  | .ppow rd ra rb => [asmP rd, asmP ra, asmF rb]
  | .ppowmod rd ra rb rc => [asmP rd, asmP ra, asmF rb, asmP rc]
  | .pderiv rd ra | .psqrt rd ra | .pmonic rd ra | .pmov rd ra => [asmP rd, asmP ra]
  | .psetc rd ra imm => [asmP rd, asmF ra, asmI imm]
  | .pgetc rd ra imm => [asmF rd, asmP ra, asmI imm]
  | .sff ra | .ddf ra | .factor ra => [asmP ra]
  | .edf ra imm => [asmP ra, asmI imm]
  | .lcnt rd => [asmF rd]
  | .lgetp rd imm => [asmP rd, asmI imm]
  | .lgetn rd imm => [asmF rd, asmI imm]
  | .ghash rd rc ra rb re => [asmF rd, asmF rc, asmF ra, asmB rb, asmB re]
  | .gcmenc rd rc ra rb re rf | .gcmdec rd rc ra rb re rf => [asmB rd, asmF rc, asmF ra, asmF rb, asmB re, asmB rf]
  | .recover rd rc ra rb => [asmF rd, asmF rc, asmF ra, asmB rb]
  | .forge rd ra rc rb re => [asmF rd, asmF ra, asmF rc, asmB rb, asmB re]

/-- The assembler line of a command (R78): the mnemonic, then the operands separated by commas. -/
def Instr.asm (i : Instr) : String :=
  if i.asmOperands.isEmpty then i.mnemonic.name else i.mnemonic.name ++ " " ++ ", ".intercalate i.asmOperands

end Sys2Proof
end

