-- ==== Sys2Proof/Config.lean ====
section
/-! DEFINITION. What an implementation fixes, and the free values of the model: the capacity parameters (R6), the cipher port (R33), the randomness port (R34), the contents of command memory that no host has written (R25). The three opaque constants have no body, so no proof can rest on a value of theirs. -/

namespace Sys2Proof

/-- The open parameters of R6. A machine's parameters never change; they are carried in the state so that a statement about every state is a statement about every parameter value (log entry 1). -/
structure Params where
  /-- `MAXCOEF`: greatest number of coefficients of a polynomial register or a list entry. -/
  maxCoef : Nat
  /-- `MAXBYTES`: greatest number of bytes of a byte buffer. -/
  maxBytes : Nat
  /-- `CMSIZE`: number of 32-bit words of command memory. -/
  cmSize : Nat
deriving DecidableEq, Repr

/-- The constraints of R6 on the parameters. -/
abbrev Params.legal (p : Params) : Prop :=
  2 ≤ p.maxCoef ∧ p.maxCoef ≤ 2 ^ 31 ∧ 16 ≤ p.maxBytes ∧ p.maxBytes < 2 ^ 60 ∧ 1 ≤ p.cmSize ∧ p.cmSize ≤ 2 ^ 31

/-- DESIGN CHOICE (log entry 1): the parameters of `State.reset` are the greatest that R6 allows. -/
def Params.greatest : Params := { maxCoef := 2 ^ 31, maxBytes := 2 ^ 60 - 1, cmSize := 2 ^ 31 }

/-- The cipher port `encryptBlock(key, block)` (R33), key and block as register words: a total function about which nothing is assumed (log entry 3). -/
opaque Config.encryptBlock : Word → Word → Word

/-- The `n`-th value the randomness port delivers (R34): a free value for each draw (log entry 2). -/
opaque Config.rand128 : Nat → Word

/-- What a command-memory word reads as that no host has written since the given reset (R25, entry U4 of 93_implementation_defined.md): a free value for each reset count and index (log entry 4). -/
opaque Config.cmUnwritten : Nat → Nat → Word32

end Sys2Proof
end

