-- ==== Sys2Proof/Machine/State.lean ====
section
/-! DEFINITION. The machine's state as plain data (R20 to R32), its value right after reset (R37, R340, R341), and the reasons a step can stop. The storage types hold no function, so two states can be compared. -/

namespace Sys2Proof.Machine

/-- The command memory `CM` (R25): the words a host has written since reset, as (word index, word) pairs in canonical form (indexes strictly rising, `Memory.wf`). A word no host has written is not listed; what it reads as is `cmRead` (log entry 4). The unit is the 32-bit word: the spec gives the command word no bytes (R24, R57). -/
abbrev Memory := List (Nat × Word32)

/-- The architectural state. Each field names its rule; `params`, `drawn` and `resets` are the model's own. -/
structure State where
  /-- `F[0] .. F[15]` (R20). -/
  fregs : Vector Word 16
  /-- `P[0] .. P[15]` (R21), each a canonical sequence in every reachable state. -/
  pregs : Vector Poly 16
  /-- `B[0] .. B[15]` (R22). -/
  bregs : Vector Bytes 16
  /-- The result list `L` (R23). -/
  results : List (Poly × Word32)
  /-- The command counter `pc`, CSR 5 (R24, R32). -/
  pc : Word32
  /-- `STATUS`, CSR 0 (R27): `STATE` in bits 1:0, `AUTH` in bit 2. -/
  status : Word32
  /-- `ECODE`, CSR 1 (R28). -/
  ecode : Word32
  /-- `EPC`, CSR 2 (R29). -/
  epc : Word32
  /-- `EINFO`, CSR 3 (R30). -/
  einfo : Word32
  /-- `EDFBUDGET`, CSR 4 (R31). -/
  edfbudget : Word32
  /-- The command memory `CM` (R25). -/
  cm : Memory
  /-- The machine's parameters (R6), which nothing changes (log entry 1). -/
  params : Params
  /-- The MODEL's own count of `Rand128` draws made; draw number `n` is `Config.rand128 n` (R34, log entry 2). -/
  drawn : Nat
  /-- The MODEL's own count of resets; it makes the unspecified contents of `CM` fresh after each reset (R25, log entry 4). -/
  resets : Nat
deriving DecidableEq, Repr

/-- The seven error kinds of R300. Each is TAKEN (`errorEntry`, R305): the step has a next state. -/
inductive ErrorKind where
  /-- Code 1 (R301). -/
  | divisionByZero
  /-- Code 2 (R302). -/
  | preconditionViolation
  /-- Code 3 (R303). -/
  | noRootFound
  /-- Code 4 (R304). -/
  | retryBudgetExceeded
  /-- Code 5 (R306). -/
  | illegalCommand
  /-- Code 6 (R307). -/
  | capacityExceeded
  /-- Code 7 (R308). -/
  | fetchOutOfRange
deriving DecidableEq, Repr

/-- The reasons a step ends in a model fault: none. Every error of this hardware is taken as R305 describes, and every command has an effect in every state, so this inductive is closed with no constructor. -/
inductive Fault where
deriving DecidableEq, Repr

/-- The reasons a step is refused. -/
inductive Refusal where
  /-- Raised by an arm of `exec` whose instruction has no meaning yet (no arm of this model is one). Safe: the machine stops where the hardware goes on. -/
  | notModelled (mnemonic : String)
deriving DecidableEq, Repr

/-- The outcome type of this machine's steps. -/
abbrev Outcome := Host.Outcome State Fault Refusal

/-- The state after a reset (R37, R341) of a machine with the given parameters; the two counters are the model's own and go on from one reset to the next. -/
def State.afterReset (p : Params) (drawn resets : Nat) : State where
  fregs := Vector.replicate 16 0
  pregs := Vector.replicate 16 [0]
  bregs := Vector.replicate 16 []
  results := []
  pc := 0
  status := 0
  ecode := 0
  epc := 0
  einfo := 0
  edfbudget := 256
  cm := []
  params := p
  drawn := drawn
  resets := resets

/-- The machine right after reset (R37). The parameters and the two counters are DESIGN CHOICE (log entries 1, 2, 4). -/
def State.reset : State := State.afterReset Params.greatest 0 0

end Sys2Proof.Machine
end

