-- ==== Sys2Proof/Machine/Flags.lean ====
section
/-! DEFINITION. The fields of `STATUS` (R27) and the one flag of the hardware, `AUTH`. No command sets a zero, carry or comparison flag (R27). -/

namespace Sys2Proof.Machine

/-- `STATE` = 0, IDLE (R27). -/
def stIdle : BitVec 2 := 0
/-- `STATE` = 1, RUNNING (R27). -/
def stRunning : BitVec 2 := 1
/-- `STATE` = 2, HALTED (R27). -/
def stHalted : BitVec 2 := 2
/-- `STATE` = 3, ERROR (R27). -/
def stError : BitVec 2 := 3

/-- The field `STATE` of a `STATUS` word, bits 1:0. -/
def statusState (w : Word32) : BitVec 2 := w.extractLsb' 0 2

/-- The field `AUTH` of a `STATUS` word, bit 2. -/
def statusAuth (w : Word32) : Bool := w.getLsbD 2

/-- The bits of a `STATUS` word that read as zero, 31:3. -/
def statusReserved (w : Word32) : BitVec 29 := w.extractLsb' 3 29

/-- A `STATUS` word with `STATE` written and every other bit kept. -/
def withState (w : Word32) (v : BitVec 2) : Word32 := (w &&& 0xFFFFFFFC) ||| v.setWidth 32

/-- A `STATUS` word with `AUTH` written and every other bit kept. -/
def withAuth (w : Word32) (b : Bool) : Word32 := (w &&& 0xFFFFFFFB) ||| (if b then 4 else 0)

/-- The sequencer is running: `STATUS.STATE = 1` (R71). -/
def State.running (s : State) : Bool := statusState s.status == stRunning

/-- The authenticity flag a `GCMDEC` computes (R236, R239): all 128 bits of the two tags compared. -/
def authOf (computed received : Word) : Bool := computed == received

end Sys2Proof.Machine
end

