-- ==== Sys2Proof/Machine/Operands.lean ====
section
/-! DEFINITION. The operand forms: register reads by specifier (R14, R51), consecutive registers modulo 16 (R76), control-register reads (R26), immediates (R72), and the conversions between a register word and its 16 bytes (R12). -/

namespace Sys2Proof.Machine

/-- `F[r]` (R14, R20). -/
def State.getF (s : State) (r : Reg) : Word := s.fregs[r.toNat]'(r.isLt)

/-- `P[r]` (R14, R21). -/
def State.getP (s : State) (r : Reg) : Poly := s.pregs[r.toNat]'(r.isLt)

/-- `B[r]` (R14, R22). -/
def State.getB (s : State) (r : Reg) : Bytes := s.bregs[r.toNat]'(r.isLt)

/-- The register `k` places after `r`, the one after 15 being 0 (R76). -/
def regAfter (r : Reg) (k : Nat) : Reg := r + BitVec.ofNat 4 k

/-- The value of control register `n` (R26); numbers above 5 are not implemented and no command reads one (R74). -/
def State.getCsr (s : State) (n : Nat) : Word32 :=
  match n with
  | 0 => s.status
  | 1 => s.ecode
  | 2 => s.epc
  | 3 => s.einfo
  | 4 => s.edfbudget
  | 5 => s.pc
  | _ => 0

/-- An 8-bit immediate as an unsigned number (R72). -/
def immNat (imm : BitVec 8) : Nat := imm.toNat

/-- The unsigned integer a field register holds: the register word itself (R56). -/
def wordInt (w : Word) : Nat := w.toNat

/-- An unsigned integer as a register word (R56), `zext_128` of R11. -/
def intWord (n : Nat) : Word := BitVec.ofNat 128 n

/-- `word(b)`: byte `k` of the block is bits `8k+7:8k` of the register word (R12). -/
def wordOfBytes : Bytes → Word
  | [] => 0
  | b :: bs => (wordOfBytes bs <<< 8) ||| b.setWidth 128

/-- `bytes(W)`: the 16 bytes of a register word, byte 0 the least significant (R12). -/
def bytesOfWord (w : Word) : Bytes := (List.range 16).map (fun k => w.extractLsb' (8 * k) 8)

/-- An unsigned integer as `n` bytes, most significant byte first (R55). -/
def bigEndian (n : Nat) (v : Nat) : Bytes := (List.range n).map (fun j => BitVec.ofNat 8 (v >>> (8 * (n - 1 - j))))

end Sys2Proof.Machine
end

