-- ==== Sys2Proof/Machine/Ops.lean ====
section
/-! DEFINITION. The operations every command shares: register writes with their capacity checks (R141, R230), taking an error (R305) and the host start that returns from one (R310, R343), the end of a command (R71), the command memory and its fetch (R25, R71). -/

namespace Sys2Proof.Machine

/-! ## Values -/

/-- The coefficients without the zero ones at the high-index end. -/
def trimZeros : List Word → List Word
  | [] => []
  | c :: cs => match trimZeros cs with
    | [] => if c = 0 then [] else [c]
    | t :: ts => c :: t :: ts

/-- `canon(s)` (R142): trailing zero coefficients dropped, at least one coefficient kept. -/
def canon (s : List Word) : Poly :=
  match trimZeros s with
  | [] => [0]
  | t :: ts => t :: ts

/-- A sequence is canonical (R21, R142). -/
abbrev Canonical (p : Poly) : Prop := canon p = p

/-! ## Register writes -/

/-- `F[r] <- v` (R14). -/
def State.setF (s : State) (r : Reg) (v : Word) : State := { s with fregs := s.fregs.set r.toNat v (r.isLt) }

/-- The bare write of a polynomial register, after `writeP`'s check. -/
def State.setP (s : State) (r : Reg) (p : Poly) : State := { s with pregs := s.pregs.set r.toNat p (r.isLt) }

/-- The bare write of a byte buffer, after `writeB`'s check. -/
def State.setB (s : State) (r : Reg) (b : Bytes) : State := { s with bregs := s.bregs.set r.toNat b (r.isLt) }

/-- `P[r] <- p` (R141): the canonical value is checked against `MAXCOEF`, then written. -/
def writeP (s : State) (r : Reg) (p : List Word) : Except ErrorKind State :=
  if s.params.maxCoef < (canon p).length then .error .capacityExceeded else .ok (s.setP r (canon p))

/-- `B[r] <- b` (R230): the length is checked against `MAXBYTES`, then the string is written. -/
def writeB (s : State) (r : Reg) (b : Bytes) : Except ErrorKind State :=
  if s.params.maxBytes < b.length then .error .capacityExceeded else .ok (s.setB r b)

/-- The result list replaced whole (R194): each entry's integer is 32 bits (R23, log entry 8). -/
def State.setResults (s : State) (z : List (Poly × Nat)) : State :=
  { s with results := z.map (fun e => (e.1, BitVec.ofNat 32 e.2)) }

/-- `STATUS.AUTH` written (R239). -/
def State.setAuth (s : State) (b : Bool) : State := { s with status := withAuth s.status b }

/-- `STATUS.STATE` written (R27). -/
def State.setState (s : State) (v : BitVec 2) : State := { s with status := withState s.status v }

/-- `EDFBUDGET` written (R283, R35). -/
def State.setBudget (s : State) (v : Word32) : State := { s with edfbudget := v }

/-- The count of draws made, after a command that draws (R194: draws made are consumed, on an error too). -/
def State.setDrawn (s : State) (n : Nat) : State := { s with drawn := n }

/-! ## Errors and the end of a command -/

/-- The code `ECODE` holds for each kind (R300). -/
def ErrorKind.code : ErrorKind → Word32
  | .divisionByZero => 1
  | .preconditionViolation => 2
  | .noRootFound => 3
  | .retryBudgetExceeded => 4
  | .illegalCommand => 5
  | .capacityExceeded => 6
  | .fetchOutOfRange => 7

/-- Error entry (R305): the one way an error is taken. `info` is the command word for IllegalCommand, else 0. -/
def errorEntry (k : ErrorKind) (info : Word32) (s : State) : State :=
  { s with ecode := k.code, epc := s.pc, einfo := info, status := withState s.status stError }

/-- `HostStart()` (R35, R343): the only return from an error (R310) and the start of every run. -/
def start (s : State) : State :=
  { s with ecode := 0, epc := 0, einfo := 0, status := withState s.status stRunning }

/-- `pc <- pc + 1` (R71). -/
def State.advance (s : State) : State := { s with pc := s.pc + 1 }

/-- The end of a command that read its operands in `s` (R71, R305): on success the written state with `pc` advanced, on an error the error entry at `s`, none of the command's writes done. -/
def finish (s : State) (r : Except ErrorKind State) : Outcome :=
  match r with
  | .ok t => .next t.advance
  | .error k => .next (errorEntry k 0 s)

/-- IllegalCommand taken for the word `w` (R306). -/
def illegal (w : Word32) (s : State) : Outcome := .next (errorEntry .illegalCommand w s)

/-! ## Command memory -/

/-- The canonical form: indexes strictly rising. -/
def Memory.wf : Memory → Bool
  | [] => true
  | [_] => true
  | a :: b :: m => decide (a.1 < b.1) && Memory.wf (b :: m)

/-- The word a host has written at an index, if any. -/
def Memory.read : Memory → Nat → Option Word32
  | [], _ => none
  | (k, w) :: m, i => if i = k then some w else Memory.read m i

/-- A word written at an index; keeps the canonical form. -/
def Memory.write : Memory → Nat → Word32 → Memory
  | [], i, w => [(i, w)]
  | (k, v) :: m, i, w =>
    if i < k then (i, w) :: (k, v) :: m else if i = k then (i, w) :: m else (k, v) :: Memory.write m i w

/-- `CM[i]`: the word the host wrote, or, where none has been written since reset, a free value (R25, log entry 4). -/
def State.cmRead (s : State) (i : Nat) : Word32 := (s.cm.read i).getD (Config.cmUnwritten s.resets i)

/-- `CM[i] <- w`. -/
def State.cmWrite (s : State) (i : Nat) (w : Word32) : State := { s with cm := s.cm.write i w }

/-- The fetch of R71: FetchOutOfRange (R308) when `pc >= CMSIZE`, else the word at `pc`. -/
def fetch (s : State) : Except ErrorKind Word32 :=
  if s.params.cmSize ≤ s.pc.toNat then .error .fetchOutOfRange else .ok (s.cmRead s.pc.toNat)

/-- The state with `w` as the word the next step fetches (log entry 5): `w` stands at `pc` in `CM` (at index 0, with `pc` there, when `pc` is out of range), and the machine has been started if it was not running. -/
def placeAtFetch (s : State) (w : Word32) : State :=
  let i : Word32 := if s.pc.toNat < s.params.cmSize then s.pc else 0
  let t : State := { s with pc := i, cm := s.cm.write i.toNat w }
  if t.running then t else start t

end Sys2Proof.Machine
end

