-- ==== Sys2Proof/Machine/FieldArith.lean ====
section
/-! DEFINITION. GF(2^128) arithmetic on register words (R52 to R54, R100 to R106). GCM ordering unless a definition says natural. -/

namespace Sys2Proof.Machine

/-- The field's zero (R54). -/
def fieldZero : Word := 0
/-- `ONE`, the field's multiplicative identity in GCM ordering (R54). -/
def fieldOne : Word := 0x80
/-- `ALPHA`, the element x in GCM ordering (R54). -/
def fieldAlpha : Word := 0x40

/-- `brev8` (R53): the 8 bits inside each byte reversed, the bytes left in place. Neighbouring bits are exchanged, then pairs, then nibbles, which comes to R53's formula. -/
def brev8 (w : Word) : Word :=
  let a := ((w >>> 1) &&& 0x55555555555555555555555555555555) ||| ((w &&& 0x55555555555555555555555555555555) <<< 1)
  let b := ((a >>> 2) &&& 0x33333333333333333333333333333333) ||| ((a &&& 0x33333333333333333333333333333333) <<< 2)
  ((b >>> 4) &&& 0x0F0F0F0F0F0F0F0F0F0F0F0F0F0F0F0F) ||| ((b &&& 0x0F0F0F0F0F0F0F0F0F0F0F0F0F0F0F0F) <<< 4)

/-- The coefficient of x^i of the field element a register word stands for (R52). -/
def coeff (w : Word) (i : Nat) : Bool := w.getLsbD (8 * (i / 8) + 7 - i % 8)

/-- `fe_add` (R100). -/
def feAdd (a b : Word) : Word := a ^^^ b

/-- One round's update of `a` in R101, natural ordering: multiplication by x, reduced by x^128 = x^7 + x^2 + x + 1. -/
def timesX (a : Word) : Word := if a.msb then (a <<< 1) ^^^ 0x87 else a <<< 1

/-- `r` and `a` after the rounds `0 .. n-1` of R101's loop. -/
def mulnRounds (a b : Word) : Nat → Word × Word
  | 0 => (0, a)
  | n + 1 =>
    let p := mulnRounds a b n
    (if b.getLsbD n then p.1 ^^^ p.2 else p.1, timesX p.2)

/-- `fe_muln` (R101): the raw multiplier, natural ordering. -/
def feMuln (a b : Word) : Word := (mulnRounds a b 128).1

/-- `fe_mul` (R102): multiplication in GCM ordering. -/
def feMul (a b : Word) : Word := brev8 (feMuln (brev8 a) (brev8 b))

/-- The square-and-multiply loop of R103, at most the given number of rounds. -/
def fePowLoop : Nat → Word → Word → Nat → Word
  | 0, r, _, _ => r
  | n + 1, r, s, e => if e = 0 then r else fePowLoop n (if e % 2 = 1 then feMul r s else r) (feMul s s) (e / 2)

/-- `fe_pow` (R103), the exponent an unbounded unsigned integer: one round for each of its bits. -/
def fePow (a : Word) (e : Nat) : Word := fePowLoop (e.log2 + 1) fieldOne a e

/-- `fe_inv` (R104): the zero check comes first. -/
def feInv (a : Word) : Except ErrorKind Word :=
  if a = fieldZero then .error .divisionByZero else .ok (fePow a (2 ^ 128 - 2))

/-- `fe_div` (R105). -/
def feDiv (a b : Word) : Except ErrorKind Word :=
  match feInv b with
  | .error k => .error k
  | .ok v => .ok (feMul a v)

/-- `fe_sqrt` (R106). -/
def feSqrt (a : Word) : Word := fePow a (2 ^ 127)

end Sys2Proof.Machine
end

