-- ==== Sys2Proof/Machine/PolyArith.lean ====
section
/-! DEFINITION. The polynomial ring over GF(2^128) (R142 to R154). A loop whose number of rounds R148, R154 bound by a falling degree carries that bound as its first argument (log entry 7). -/

namespace Sys2Proof.Machine

/-- The zero polynomial `[0]` (R142). -/
def polyZero : Poly := [fieldZero]
/-- The constant one `[ONE]` (R142). -/
def polyOne : Poly := [fieldOne]
/-- The indeterminate `X = [0, ONE]` (R142). -/
def polyX : Poly := [fieldZero, fieldOne]

/-- `deg(p)` (R143); 0 for the zero polynomial. -/
def deg (p : Poly) : Nat := p.length - 1

/-- `lc(p)` (R144). -/
def lc (p : Poly) : Word := p.getLastD 0

/-- `p` is monic (R144). -/
def isMonic (p : Poly) : Bool := lc p == fieldOne

/-- The coefficient of X^i, zero beyond the length. -/
def coeffAt (p : Poly) (i : Nat) : Word := p.getD i 0

/-- Coefficient-wise xor after zero-padding the shorter sequence (R146), before `canon`. -/
def addCoeffs : List Word → List Word → List Word
  | [], q => q
  | p, [] => p
  | c :: p, d :: q => feAdd c d :: addCoeffs p q

/-- `p_add` (R146). -/
def pAdd (p q : Poly) : Poly := canon (addCoeffs p q)

/-- `q` scaled by the field element `c`. -/
def scale (c : Word) (q : List Word) : List Word := q.map (fun d => feMul c d)

/-- `k` zeros, then `q`: `q` times X^k. -/
def shiftBy (k : Nat) (q : List Word) : List Word := List.replicate k fieldZero ++ q

/-- The convolution of R147, before `canon`: the row of `p[i]` for each i, shifted by i, accumulated. -/
def mulCoeffs : List Word → List Word → List Word
  | [], _ => []
  | c :: p, q => addCoeffs (scale c q) (fieldZero :: mulCoeffs p q)

/-- `p_mul` (R147). -/
def pMul (p q : Poly) : Poly := canon (mulCoeffs p q)

/-- The long division loop of R148 with quotient `q` and running dividend `r`, at most the given number of rounds. -/
def divLoop (m : Poly) : Nat → Poly → Poly → Except ErrorKind (Poly × Poly)
  | 0, q, r => .ok (q, r)
  | n + 1, q, r =>
    if deg m ≤ deg r ∧ r ≠ polyZero then
      match feDiv (lc r) (lc m) with
      | .error k => .error k
      | .ok fac => divLoop m n (pAdd q (shiftBy (deg r - deg m) [fac])) (pAdd r (shiftBy (deg r - deg m) (scale fac m)))
    else .ok (q, r)

/-- `p_divmod` (R148): quotient and remainder. Each round lowers the degree of `r` or makes it zero, so as many rounds as `n` has coefficients are enough. -/
def pDivmod (n m : Poly) : Except ErrorKind (Poly × Poly) :=
  if m = polyZero then .error .divisionByZero else divLoop m n.length polyZero n

/-- `quo(u, v)` of R190: the first component of `p_divmod`. -/
def quo (u v : Poly) : Except ErrorKind Poly := (pDivmod u v).map Prod.fst

/-- `rem(u, v)` of R150, R190: the second component of `p_divmod`. -/
def rem (u v : Poly) : Except ErrorKind Poly := (pDivmod u v).map Prod.snd

/-- The loop of R149, at most the given number of rounds. -/
def pPowLoop : Nat → Poly → Poly → Nat → Poly
  | 0, r, _, _ => r
  | n + 1, r, s, e =>
    if e = 0 then r
    else pPowLoop n (if e % 2 = 1 then pMul r s else r) (if e / 2 > 0 then pMul s s else s) (e / 2)

/-- `p_pow` (R149): one round for each bit of the exponent. -/
def pPow (p : Poly) (e : Nat) : Poly := pPowLoop (e.log2 + 1) polyOne p e

/-- The loop of R150, at most the given number of rounds. -/
def pPowmodLoop (m : Poly) : Nat → Poly → Poly → Nat → Except ErrorKind Poly
  | 0, r, _, _ => .ok r
  | n + 1, r, s, e =>
    if e = 0 then .ok r
    else do
      let r' ← if e % 2 = 1 then rem (pMul r s) m else .ok r
      let s' ← if e / 2 > 0 then rem (pMul s s) m else .ok s
      pPowmodLoop m n r' s' (e / 2)

/-- `p_powmod` (R150): one round for each bit of the exponent. -/
def pPowmod (p : Poly) (e : Nat) (m : Poly) : Except ErrorKind Poly :=
  if m = polyZero then .error .divisionByZero
  else do
    let r ← rem polyOne m
    let s ← rem p m
    pPowmodLoop m (e.log2 + 1) r s e

/-- The coefficients of R151's result when the first listed coefficient stands at an odd position or not. -/
def derivCoeffs : Bool → List Word → List Word
  | _, [] => []
  | odd, c :: p => (if odd then c else fieldZero) :: derivCoeffs (!odd) p

/-- `p_deriv` (R151): coefficient `i-1` is coefficient `i` for odd `i`, else zero. -/
def pDeriv (p : Poly) : Poly := canon (derivCoeffs true p.tail)

/-- The even-position coefficients. -/
def evenCoeffs : List Word → List Word
  | [] => []
  | [c] => [c]
  | c :: _ :: p => c :: evenCoeffs p

/-- The odd-position coefficients. -/
def oddCoeffs (p : List Word) : List Word := evenCoeffs p.tail

/-- `p_sqrt` (R152): the precondition is checked. -/
def pSqrt (p : Poly) : Except ErrorKind Poly :=
  if (oddCoeffs p).any (fun c => c != 0) then .error .preconditionViolation
  else .ok (canon ((evenCoeffs p).map feSqrt))

/-- `p_monic` (R153), pure (R346). The result is written canonicalised as R140 says of every operation (log entry 9). -/
def pMonic (p : Poly) : Except ErrorKind Poly :=
  if p = polyZero then .error .divisionByZero
  else match feInv (lc p) with
    | .error k => .error k
    | .ok v => .ok (canon (p.map (fun c => feMul c v)))

/-- Euclid's loop of R154, at most the given number of rounds. -/
def gcdLoop : Nat → Poly → Poly → Except ErrorKind Poly
  | 0, u, _ => .ok u
  | n + 1, u, v =>
    if v = polyZero then .ok u
    else match rem u v with
      | .error k => .error k
      | .ok r => gcdLoop n v r

/-- `p_gcd` (R154): the operands swapped if need be, Euclid's loop, the result made monic. The degree of `v` falls every round until `v` is zero, so one round more than the coefficients of both operands is enough. -/
def pGcd (u v : Poly) : Except ErrorKind Poly :=
  let big := if deg u < deg v then v else u
  let small := if deg u < deg v then u else v
  match gcdLoop (u.length + v.length + 1) big small with
  | .error k => .error k
  | .ok g => pMonic g

end Sys2Proof.Machine
end

