-- ==== Sys2Proof/Machine/FactorArith.lean ====
section
/-! DEFINITION. The factorization pipeline (R190 to R193). A function that draws takes the randomness port as `rand` (draw number `n` is `rand n`) and the number `n` of the next draw, and gives back its result with the number of the draw after its last (R63, R194). -/

namespace Sys2Proof.Machine

/-- A factor list: polynomial and exponent or degree, in emission order (R23). -/
abbrev Factors := List (Poly × Nat)

/-- What a function that draws gives: its result or error, and the number of the next draw. -/
abbrev Drawn (α : Type) := Except ErrorKind α × Nat

/-! ## Square-free stage -/

/-- The main loop of R190 at one level, with the list `z` so far: the list and the last `c`. Every round that goes on lowers `deg(f)` (R206), so as many rounds as `f` has coefficients, and one more, are enough (log entry 7). -/
def sffLoop : Nat → Poly → Nat → Factors → Except ErrorKind (Factors × Poly)
  | 0, f, _, z => .ok (z, f)
  | n + 1, f, e, z =>
    match pGcd f (pDeriv f) with
    | .error k => .error k
    | .ok c =>
      if f = c then .ok (z, c)
      else match quo f c with
        | .error k => .error k
        | .ok g => sffLoop n c (e + 1) (z ++ [(g, e)])

/-- The levels of R190's recursion on the square root, at most the given number. -/
def sffLevels : Nat → Poly → Except ErrorKind Factors
  | 0, _ => .ok []
  | n + 1, f =>
    match sffLoop (f.length + 1) f 1 [] with
    | .error k => .error k
    | .ok (z, c) =>
      if c = polyOne then .ok z
      else match pSqrt c with
        | .error k => .error k
        | .ok h => match sffLevels n h with
          | .error k => .error k
          | .ok t => .ok (z ++ t.map (fun e => (e.1, 2 * e.2)))

/-- `sff` (R190). Each level halves the degree, so as many levels as `f` has coefficients, and one more, are enough (log entry 7). -/
def sff (f : Poly) : Except ErrorKind Factors := sffLevels (f.length + 1) f

/-! ## Distinct-degree stage -/

/-- The loop of R191 from trial degree `d`, at most the given number of rounds: the list and the last `f*`. -/
def ddfLoop : Nat → Nat → Poly → Factors → Except ErrorKind (Factors × Poly)
  | 0, _, fs, z => .ok (z, fs)
  | n + 1, d, fs, z =>
    if 2 * d ≤ deg fs then do
      let x ← rem polyX fs
      let y ← pPowmod polyX (2 ^ (128 * d)) fs
      let g ← pGcd (pAdd y x) fs
      if g = polyOne then ddfLoop n (d + 1) fs z
      else do
        let rest ← quo fs g
        ddfLoop n (d + 1) rest (z ++ [(g, d)])
    else .ok (z, fs)

/-- `ddf` (R191). The trial degree grows by one each round and ends the loop when twice it exceeds the degree, so as many rounds as `f` has coefficients are enough (log entry 7). -/
def ddf (f : Poly) : Except ErrorKind Factors :=
  if f = polyZero then .error .preconditionViolation
  else match ddfLoop f.length 1 f [] with
    | .error k => .error k
    | .ok (z, fs) => .ok (if 1 ≤ deg fs then z ++ [(fs, deg fs)] else z)

/-! ## Equal-degree stage -/

/-- What one trial makes of one candidate (R192): its two co-factors on a nontrivial split, else itself. -/
def edfSplit (d : Nat) (g u : Poly) : Except ErrorKind (List Poly) :=
  if d < deg u then do
    let j ← pGcd u g
    if 1 ≤ deg j ∧ deg j < deg u then do
      let q ← quo u j
      .ok [j, q]
    else .ok [u]
  else .ok [u]

/-- One trial's pass over the candidates in order (R192). -/
def edfPass (d : Nat) (g : Poly) : List Poly → Except ErrorKind (List Poly)
  | [] => .ok []
  | u :: z => do
    let a ← edfSplit d g u
    let b ← edfPass d g z
    .ok (a ++ b)

/-- The polynomial a trial draws (R192 point b): `deg(f)` draws, the first the constant coefficient, canonicalised. -/
def edfDraw (rand : Nat → Word) (n k : Nat) : Poly := canon ((List.range k).map (fun i => rand (n + i)))

/-- One trial (R192): the candidates after it, for the drawn polynomial `h`. -/
def edfTrial (f : Poly) (d : Nat) (h : Poly) (z : List Poly) : Except ErrorKind (List Poly) := do
  let y ← pPowmod h ((2 ^ (128 * d) - 1) / 3) f
  edfPass d (pAdd y polyOne) z

/-- The trials of R192, the first argument being how many the budget still allows. -/
def edfLoop (rand : Nat → Word) (f : Poly) (d : Nat) : Nat → Nat → List Poly → Drawn (List Poly)
  | 0, n, z => (if z.any (fun u => decide (d < deg u)) then .error .retryBudgetExceeded else .ok z, n)
  | t + 1, n, z =>
    if z.any (fun u => decide (d < deg u)) then
      match edfTrial f d (edfDraw rand n (deg f)) z with
      | .error k => (.error k, n + deg f)
      | .ok z' => edfLoop rand f d t (n + deg f) z'
    else (.ok z, n)

/-- `edf` (R192) with the given budget, draws numbered from `n`. -/
def edf (rand : Nat → Word) (budget n : Nat) (f : Poly) (d : Nat) : Drawn (List Poly) :=
  if f = polyZero ∨ deg f < 1 ∨ d < 1 ∨ deg f % d ≠ 0 then (.error .preconditionViolation, n)
  else edfLoop rand f d budget n [f]

/-! ## The pipeline -/

/-- The part of R193's loops for one entry `(g, d)` of a `ddf` list. -/
def factorPart (rand : Nat → Word) (budget n : Nat) (g : Poly) (d : Nat) : Drawn (List Poly) :=
  if 1 < deg g then edf rand budget n g d else (.ok [g], n)

/-- R193's loop over a `ddf` list, for an `sff` entry of exponent `e`. -/
def factorDegrees (rand : Nat → Word) (budget e : Nat) : Nat → Factors → Drawn Factors
  | n, [] => (.ok [], n)
  | n, (g, d) :: rest =>
    match factorPart rand budget n g d with
    | (.error k, m) => (.error k, m)
    | (.ok parts, m) =>
      match factorDegrees rand budget e m rest with
      | (.error k, m') => (.error k, m')
      | (.ok out, m') => (.ok (parts.map (fun u => (u, e)) ++ out), m')

/-- R193's loop over an `sff` list. -/
def factorSquares (rand : Nat → Word) (budget : Nat) : Nat → Factors → Drawn Factors
  | n, [] => (.ok [], n)
  | n, (s, e) :: rest =>
    match ddf s with
    | .error k => (.error k, n)
    | .ok z =>
      match factorDegrees rand budget e n z with
      | (.error k, m) => (.error k, m)
      | (.ok a, m) =>
        match factorSquares rand budget m rest with
        | (.error k, m') => (.error k, m')
        | (.ok b, m') => (.ok (a ++ b), m')

/-- `factor` (R193): monic, then SFF, DDF, EDF, in that order of emission. -/
def factor (rand : Nat → Word) (budget n : Nat) (f : Poly) : Drawn Factors :=
  match pMonic f with
  | .error k => (.error k, n)
  | .ok m => match sff m with
    | .error k => (.error k, n)
    | .ok z => factorSquares rand budget n z

/-- `roots(out)` (R193): the constant coefficients of the linear factors, in order. -/
def roots (out : Factors) : List Word := (out.filter (fun e => deg e.1 == 1)).map (fun e => coeffAt e.1 0)

end Sys2Proof.Machine
end

