-- ==== Sys2Proof/Machine/Factorization.lean ====
section
/-! DEFINITION. The factorization commands (R195 to R201). `SFF`, `DDF`, `EDF`, `FACTOR` replace the whole result list and write nothing else; draws made stay consumed on an error (R194). -/

namespace Sys2Proof.Machine

/-- The replacement of the result list by a factor list or an error (R194). -/
def putList (s : State) (r : Except ErrorKind Factors) : Outcome := finish s (r.map (fun z => s.setResults z))

/-- `SFF Pa` (R195): DivisionByZero for the zero polynomial. -/
def execSff (ra : Reg) (s : State) : Outcome := putList s (sff (s.getP ra))

/-- `DDF Pa` (R196): PreconditionViolation for the zero polynomial. -/
def execDdf (ra : Reg) (s : State) : Outcome := putList s (ddf (s.getP ra))

/-- `edf` on the machine's ports: the budget is `EDFBUDGET`, the draws go on from those made (R31, R34). -/
def edfHere (s : State) (f : Poly) (d : Nat) : Drawn (List Poly) := edf Config.rand128 s.edfbudget.toNat s.drawn f d

/-- `EDF Pa, imm8` (R197): each entry carries the given degree. -/
def execEdf (ra : Reg) (imm : BitVec 8) (s : State) : Outcome :=
  putList (s.setDrawn (edfHere s (s.getP ra) (immNat imm)).2)
    ((edfHere s (s.getP ra) (immNat imm)).1.map (fun z => z.map (fun u => (u, immNat imm))))

/-- `factor` on the machine's ports (R31, R34). -/
def factorHere (s : State) (f : Poly) : Drawn Factors := factor Config.rand128 s.edfbudget.toNat s.drawn f

/-- `FACTOR Pa` (R198). -/
def execFactor (ra : Reg) (s : State) : Outcome :=
  putList (s.setDrawn (factorHere s (s.getP ra)).2) (factorHere s (s.getP ra)).1

/-- `LCNT Fd` (R199). -/
def execLcnt (rd : Reg) (s : State) : Outcome := finish s (.ok (s.setF rd (intWord s.results.length)))

/-- Entry `i` of the result list; PreconditionViolation at or beyond its length (R200, R201). -/
def listEntry (s : State) (i : Nat) : Except ErrorKind (Poly × Word32) :=
  match s.results[i]? with
  | none => .error .preconditionViolation
  | some e => .ok e

/-- `LGETP Pd, imm8` (R200). -/
def execLgetp (rd : Reg) (imm : BitVec 8) (s : State) : Outcome :=
  finish s ((listEntry s (immNat imm)).bind (fun e => writeP s rd e.1))

/-- `LGETN Fd, imm8` (R201). -/
def execLgetn (rd : Reg) (imm : BitVec 8) (s : State) : Outcome :=
  finish s ((listEntry s (immNat imm)).map (fun e => s.setF rd (e.2.setWidth 128)))

end Sys2Proof.Machine
end

