-- ==== Sys2Proof/Machine/Field.lean ====
section
/-! DEFINITION. The field commands (R108 to R117). All sources are read before the destination is written (R107). -/

namespace Sys2Proof.Machine

/-- The write of a field result that may be an error (R107). -/
def putF (s : State) (rd : Reg) (r : Except ErrorKind Word) : Outcome := finish s (r.map (fun v => s.setF rd v))

/-- `FADD Fd, Fa, Fb` (R108). -/
def execFadd (rd ra rb : Reg) (s : State) : Outcome := putF s rd (.ok (feAdd (s.getF ra) (s.getF rb)))

/-- `FMUL Fd, Fa, Fb` (R109). -/
def execFmul (rd ra rb : Reg) (s : State) : Outcome := putF s rd (.ok (feMul (s.getF ra) (s.getF rb)))

/-- `FMULN Fd, Fa, Fb` (R110), natural ordering. -/
def execFmuln (rd ra rb : Reg) (s : State) : Outcome := putF s rd (.ok (feMuln (s.getF ra) (s.getF rb)))

/-- `FBREV Fd, Fa` (R111). -/
def execFbrev (rd ra : Reg) (s : State) : Outcome := putF s rd (.ok (brev8 (s.getF ra)))

/-- `FINV Fd, Fa` (R112): DivisionByZero for zero. -/
def execFinv (rd ra : Reg) (s : State) : Outcome := putF s rd (feInv (s.getF ra))

/-- `FDIV Fd, Fa, Fb` (R113): DivisionByZero for a zero divisor. -/
def execFdiv (rd ra rb : Reg) (s : State) : Outcome := putF s rd (feDiv (s.getF ra) (s.getF rb))

/-- `FPOW Fd, Fa, Fb` (R114): the exponent is the register word of `F[rb]`. -/
def execFpow (rd ra rb : Reg) (s : State) : Outcome := putF s rd (.ok (fePow (s.getF ra) (wordInt (s.getF rb))))

/-- `FSQRT Fd, Fa` (R115). -/
def execFsqrt (rd ra : Reg) (s : State) : Outcome := putF s rd (.ok (feSqrt (s.getF ra)))

/-- `FMOV Fd, Fa` (R116). -/
def execFmov (rd ra : Reg) (s : State) : Outcome := putF s rd (.ok (s.getF ra))

/-- `FLI Fd, imm8` (R117). -/
def execFli (rd : Reg) (imm : BitVec 8) (s : State) : Outcome := putF s rd (.ok (imm.setWidth 128))

end Sys2Proof.Machine
end

