-- ==== Sys2Proof/Machine/GcmArith.lean ====
section
/-! DEFINITION. GHASH and the GCM composition (R231 to R236). A function that uses the cipher port takes it as `cipher`, key and block as register words (R33). -/

namespace Sys2Proof.Machine

/-- How many 16-byte blocks hold `n` bytes: `ceil(n / 16)`. -/
def blockCount (n : Nat) : Nat := (n + 15) / 16

/-- Block `m` of R231: byte `j` is `s[16m + j]`, or zero beyond the end. -/
def blockAt (s : Bytes) (m : Nat) : Word := wordOfBytes ((List.range 16).map (fun j => s.getD (16 * m + j) 0))

/-- `pad_blocks(s)` (R231). -/
def padBlocks (s : Bytes) : List Word := (List.range (blockCount s.length)).map (blockAt s)

/-- `len_block(ad, ct)` (R232): the two bit lengths, 64 bits each, most significant byte first. -/
def lenBlock (ad ct : Bytes) : Word := wordOfBytes (bigEndian 8 (8 * ad.length) ++ bigEndian 8 (8 * ct.length))

/-- Horner's accumulation of R233 over a list of blocks. -/
def hornerBlocks (h : Word) (y : Word) (blocks : List Word) : Word := blocks.foldl (fun y x => feMul (y ^^^ x) h) y

/-- `ghash(ad, ct, h)` (R233): the hash and the length block. -/
def ghash (ad ct : Bytes) (h : Word) : Word × Word :=
  (feMul (hornerBlocks h 0 (padBlocks ad ++ padBlocks ct) ^^^ lenBlock ad ct) h, lenBlock ad ct)

/-- `ctr_block(nonce, c)` (R234) as a register word: the 12 nonce bytes, then the counter, most significant byte first. -/
def ctrBlock (nonce : Bytes) (c : Nat) : Word := wordOfBytes (nonce ++ bigEndian 4 c)

/-- The keystream bytes of data block `m` (R234): the counter starts at 2 and counts modulo 2^32. -/
def keystream (cipher : Word → Word → Word) (key : Word) (nonce : Bytes) (m : Nat) : Bytes :=
  bytesOfWord (cipher key (ctrBlock nonce ((2 + m) % 2 ^ 32)))

/-- `ctr_xcrypt` (R234): the last keystream block cut to the data. -/
def ctrXcrypt (cipher : Word → Word → Word) (key : Word) (nonce data : Bytes) : Bytes :=
  (List.range (blockCount data.length)).flatMap
    (fun m => List.zipWith (fun d k => d ^^^ k) ((data.drop (16 * m)).take 16) (keystream cipher key nonce m))

/-- The hash key `h` of R235: the encryption of the zero block. -/
def hashKey (cipher : Word → Word → Word) (key : Word) : Word := cipher key 0

/-- The tag mask `y0` of R235: the counter block with counter 1, encrypted once (90_conflicts.md C1). -/
def tagMask (cipher : Word → Word → Word) (key : Word) (nonce : Bytes) : Word := cipher key (ctrBlock nonce 1)

/-- The tag of a ciphertext under a key and nonce (R235, R236). -/
def gcmTag (cipher : Word → Word → Word) (key : Word) (nonce ct ad : Bytes) : Word :=
  (ghash ad ct (hashKey cipher key)).1 ^^^ tagMask cipher key nonce

/-- `gcm_encrypt` (R235): ciphertext and tag; the hash is over the ciphertext. -/
def gcmEncrypt (cipher : Word → Word → Word) (key : Word) (nonce pt ad : Bytes) : Bytes × Word :=
  let ct := ctrXcrypt cipher key nonce pt
  (ct, gcmTag cipher key nonce ct ad)

/-- `gcm_decrypt` (R236): the plaintext, whether or not the tag matched, and the authenticity flag. -/
def gcmDecrypt (cipher : Word → Word → Word) (key : Word) (nonce ct ad : Bytes) (tag : Word) : Bytes × Bool :=
  (ctrXcrypt cipher key nonce ct, authOf (gcmTag cipher key nonce ct ad) tag)

/-- The nonce a field register holds: its bytes 0 to 11, bytes 12 to 15 ignored (R238). -/
def nonceOf (w : Word) : Bytes := (bytesOfWord w).take 12

end Sys2Proof.Machine
end

