-- ==== Sys2Proof/Machine/ForgeArith.lean ====
section
/-! DEFINITION. Key recovery and tag forgery (R260 to R262). No function here uses the cipher port. -/

namespace Sys2Proof.Machine

/-- The GCM record shape of 44_forgery.md: associated data, ciphertext, tag. -/
structure Message where
  ad : Bytes
  ct : Bytes
  tag : Word
deriving DecidableEq, Repr

/-- `msg_poly(ad, ct)` (R260). -/
def msgPoly (ad ct : Bytes) : Poly :=
  canon (fieldZero :: (padBlocks ad ++ padBlocks ct ++ [lenBlock ad ct]).reverse)

/-- The polynomial R261 factors, before it is made monic. -/
def recoverPoly (m1 m2 : Message) : Poly :=
  pAdd (pAdd (msgPoly m1.ad m1.ct) (msgPoly m2.ad m2.ct)) [m1.tag ^^^ m2.tag]

/-- The mask a candidate key gives with message 1 (R261). -/
def candidateMask (m1 : Message) (cand : Word) : Word := m1.tag ^^^ (ghash m1.ad m1.ct cand).1

/-- The check of a candidate against message 3 (R261). -/
def candidatePasses (m1 m3 : Message) (cand : Word) : Bool :=
  m3.tag == candidateMask m1 cand ^^^ (ghash m3.ad m3.ct cand).1

/-- The candidate loop of R261 over the factor list, the first match ending it. -/
def recoverSearch (m1 m3 : Message) : Factors → Except ErrorKind (Word × Word)
  | [] => .error .noRootFound
  | (u, _) :: rest =>
    if deg u = 1 ∧ candidatePasses m1 m3 (coeffAt u 0) then .ok (coeffAt u 0, candidateMask m1 (coeffAt u 0))
    else recoverSearch m1 m3 rest

/-- `recover` (R261): the hash key and the mask. -/
def recover (rand : Nat → Word) (budget n : Nat) (m1 m2 m3 : Message) : Drawn (Word × Word) :=
  match pMonic (recoverPoly m1 m2) with
  | .error k => (.error k, n)
  | .ok f =>
    match factor rand budget n f with
    | (.error k, m) => (.error k, m)
    | (.ok out, m) => (recoverSearch m1 m3 out, m)

/-- `forge` (R262). -/
def forge (ad ct : Bytes) (h mask : Word) : Word := (ghash ad ct h).1 ^^^ mask

end Sys2Proof.Machine
end

