-- ==== Sys2Proof/Machine/Forgery.lean ====
section
/-! DEFINITION. The key-recovery and forgery commands (R263, R264). -/

namespace Sys2Proof.Machine

/-- Message `i` (0, 1, 2 for the rule's 1, 2, 3) of `RECOVER`: its tag and strings in consecutive registers modulo 16 (R263, R76). -/
def messageAt (s : State) (ra rb : Reg) (i : Nat) : Message where
  ad := s.getB (regAfter rb (2 * i))
  ct := s.getB (regAfter rb (2 * i + 1))
  tag := s.getF (regAfter ra i)

/-- `recover` on the machine's ports (R31, R34, R263). -/
def recoverHere (s : State) (ra rb : Reg) : Drawn (Word × Word) :=
  recover Config.rand128 s.edfbudget.toNat s.drawn (messageAt s ra rb 0) (messageAt s ra rb 1) (messageAt s ra rb 2)

/-- `RECOVER Fd, Fc, Fa, Bb` (R263): key to `F[rd]`, mask to `F[rc]`; the result list is not written (R36). One register for both is IllegalCommand (R77). -/
def execRecover (rd rc ra rb : Reg) (s : State) : Outcome :=
  if (Instr.recover rd rc ra rb).wf then
    finish (s.setDrawn (recoverHere s ra rb).2)
      ((recoverHere s ra rb).1.map (fun hm => ((s.setDrawn (recoverHere s ra rb).2).setF rd hm.1).setF rc hm.2))
  else illegal (encode (.recover rd rc ra rb)) s

/-- `FORGE Fd, Fa, Fc, Bb, Be` (R264). -/
def execForge (rd ra rc rb re : Reg) (s : State) : Outcome :=
  finish s (.ok (s.setF rd (forge (s.getB rb) (s.getB re) (s.getF ra) (s.getF rc))))

end Sys2Proof.Machine
end

