-- ==== Sys2Proof/Machine/Ghash.lean ====
section
/-! DEFINITION. The GHASH and GCM commands (R237 to R239). Operands are read whole before anything is written (R345). -/

namespace Sys2Proof.Machine

/-- `GHASH Fd, Fc, Fa, Bb, Be` (R237): hash to `F[rd]`, length block to `F[rc]`. One register for both is IllegalCommand (R77). -/
def execGhash (rd rc ra rb re : Reg) (s : State) : Outcome :=
  if (Instr.ghash rd rc ra rb re).wf then
    finish s (.ok ((s.setF rd (ghash (s.getB rb) (s.getB re) (s.getF ra)).1).setF rc
      (ghash (s.getB rb) (s.getB re) (s.getF ra)).2))
  else illegal (encode (.ghash rd rc ra rb re)) s

/-- What `GCMENC` computes from its source registers, with the machine's cipher port (R33, R238). -/
def encryptHere (s : State) (ra rb re rf : Reg) : Bytes × Word :=
  gcmEncrypt Config.encryptBlock (s.getF ra) (nonceOf (s.getF rb)) (s.getB re) (s.getB rf)

/-- `GCMENC Bd, Fc, Fa, Fb, Be, Bf` (R238). -/
def execGcmenc (rd rc ra rb re rf : Reg) (s : State) : Outcome :=
  finish s ((writeB s rd (encryptHere s ra rb re rf).1).map (fun t => t.setF rc (encryptHere s ra rb re rf).2))

/-- What `GCMDEC` computes from its source registers, with the machine's cipher port (R33, R239). -/
def decryptHere (s : State) (rc ra rb re rf : Reg) : Bytes × Bool :=
  gcmDecrypt Config.encryptBlock (s.getF ra) (nonceOf (s.getF rb)) (s.getB re) (s.getB rf) (s.getF rc)

/-- `GCMDEC Bd, Fc, Fa, Fb, Be, Bf` (R239): the plaintext is written whether or not the tag matched; `STATUS.AUTH` says which (R313). -/
def execGcmdec (rd rc ra rb re rf : Reg) (s : State) : Outcome :=
  finish s ((writeB s rd (decryptHere s rc ra rb re rf).1).map (fun t => t.setAuth (decryptHere s rc ra rb re rf).2))

end Sys2Proof.Machine
end

