-- ==== Sys2Proof/Machine/Polynomial.lean ====
section
/-! DEFINITION. The polynomial commands (R155 to R166). All sources are read whole before any destination is written (R140); every polynomial write is R141's. -/

namespace Sys2Proof.Machine

/-- The write of a polynomial result that may be an error (R140, R141). -/
def putP (s : State) (rd : Reg) (r : Except ErrorKind Poly) : Outcome := finish s (r.bind (fun p => writeP s rd p))

/-- `PADD Pd, Pa, Pb` (R155). -/
def execPadd (rd ra rb : Reg) (s : State) : Outcome := putP s rd (.ok (pAdd (s.getP ra) (s.getP rb)))

/-- `PMUL Pd, Pa, Pb` (R156): CapacityExceeded from the write. -/
def execPmul (rd ra rb : Reg) (s : State) : Outcome := putP s rd (.ok (pMul (s.getP ra) (s.getP rb)))

/-- Both writes of a division, quotient to `P[rd]`, remainder to `P[rc]` (R157). -/
def writeQuotRem (s : State) (rd rc : Reg) (qr : Poly × Poly) : Except ErrorKind State :=
  (writeP s rd qr.1).bind (fun t => writeP t rc qr.2)

/-- `PDIVMOD Pd, Pc, Pa, Pb` (R157): DivisionByZero for a zero divisor. One register for both destinations is IllegalCommand (R77). -/
def execPdivmod (rd rc ra rb : Reg) (s : State) : Outcome :=
  if (Instr.pdivmod rd rc ra rb).wf then finish s ((pDivmod (s.getP ra) (s.getP rb)).bind (writeQuotRem s rd rc))
  else illegal (encode (.pdivmod rd rc ra rb)) s

/-- The known length of a power, tested before it is computed (R158). -/
def powOverflows (s : State) (p : Poly) (e : Nat) : Bool :=
  decide (p ≠ polyZero) && decide (s.params.maxCoef < e * deg p + 1)

/-- `PPOW Pd, Pa, Fb` (R158). -/
def execPpow (rd ra rb : Reg) (s : State) : Outcome :=
  if powOverflows s (s.getP ra) (wordInt (s.getF rb)) then finish s (.error .capacityExceeded)
  else putP s rd (.ok (pPow (s.getP ra) (wordInt (s.getF rb))))

/-- `PPOWMOD Pd, Pa, Fb, Pc` (R159): DivisionByZero for a zero modulus. -/
def execPpowmod (rd ra rb rc : Reg) (s : State) : Outcome :=
  putP s rd (pPowmod (s.getP ra) (wordInt (s.getF rb)) (s.getP rc))

/-- `PDERIV Pd, Pa` (R160). -/
def execPderiv (rd ra : Reg) (s : State) : Outcome := putP s rd (.ok (pDeriv (s.getP ra)))

/-- `PSQRT Pd, Pa` (R161): PreconditionViolation for a nonzero odd-position coefficient. -/
def execPsqrt (rd ra : Reg) (s : State) : Outcome := putP s rd (pSqrt (s.getP ra))

/-- `PMONIC Pd, Pa` (R162): DivisionByZero for the zero polynomial. -/
def execPmonic (rd ra : Reg) (s : State) : Outcome := putP s rd (pMonic (s.getP ra))

/-- `PGCD Pd, Pa, Pb` (R163): DivisionByZero for two zero polynomials. -/
def execPgcd (rd ra rb : Reg) (s : State) : Outcome := putP s rd (pGcd (s.getP ra) (s.getP rb))

/-- `PMOV Pd, Pa` (R164). -/
def execPmov (rd ra : Reg) (s : State) : Outcome := putP s rd (.ok (s.getP ra))

/-- `p` padded with zeros to hold coefficient `i`, which is then set to `v` (R165). -/
def setCoeff (p : Poly) (i : Nat) (v : Word) : List Word := (p ++ List.replicate (i + 1 - p.length) fieldZero).set i v

/-- `PSETC Pd, Fa, imm8` (R165): `P[rd]` is read and written; CapacityExceeded from the write. -/
def execPsetc (rd ra : Reg) (imm : BitVec 8) (s : State) : Outcome :=
  putP s rd (.ok (setCoeff (s.getP rd) (immNat imm) (s.getF ra)))

/-- `PGETC Fd, Pa, imm8` (R166): an index beyond the length reads 0. -/
def execPgetc (rd ra : Reg) (imm : BitVec 8) (s : State) : Outcome :=
  finish s (.ok (s.setF rd (coeffAt (s.getP ra) (immNat imm))))

end Sys2Proof.Machine
end

