-- ==== Sys2Proof/Machine/System.lean ====
section
/-! DEFINITION. The system commands (R280 to R283). -/

namespace Sys2Proof.Machine

/-- `NOP` (R280). -/
def execNop (s : State) : Outcome := finish s (.ok s)

/-- `HALT` (R281): `STATE <- 2`, the sequencer stops, `pc` keeps the index of the `HALT`. -/
def execHalt (s : State) : Outcome := .next (s.setState stHalted)

/-- `CSRR Fd, csr` (R282). A control register above 5 is IllegalCommand (R26, R74). -/
def execCsrr (rd : Reg) (csr : BitVec 8) (s : State) : Outcome :=
  if (Instr.csrr rd csr).wf then finish s (.ok (s.setF rd ((s.getCsr (immNat csr)).setWidth 128)))
  else illegal (encode (.csrr rd csr)) s

/-- `CSRW csr, Fa` (R283): bits 127:32 of the source are ignored. Any control register but `EDFBUDGET` is IllegalCommand (R26, R74). -/
def execCsrw (csr : BitVec 8) (ra : Reg) (s : State) : Outcome :=
  if (Instr.csrw csr ra).wf then finish s (.ok (s.setBudget ((s.getF ra).extractLsb' 0 32)))
  else illegal (encode (.csrw csr ra)) s

end Sys2Proof.Machine
end

