-- ==== Sys2Proof/Machine/Dispatch.lean ====
section
/-! DEFINITION. The dispatch of R71's "execute c": one arm per constructor of `Instr`, each a direct call of that command's meaning. -/

namespace Sys2Proof.Machine

def exec (i : Instr) (s : State) : Host.Outcome State Fault Refusal :=
  match i with
  | .nop => Sys2Proof.Machine.execNop s
  | .halt => Sys2Proof.Machine.execHalt s
  | .csrr rd csr => Sys2Proof.Machine.execCsrr rd csr s
  | .csrw csr ra => Sys2Proof.Machine.execCsrw csr ra s
  | .fadd rd ra rb => Sys2Proof.Machine.execFadd rd ra rb s
  | .fmul rd ra rb => Sys2Proof.Machine.execFmul rd ra rb s
  | .fmuln rd ra rb => Sys2Proof.Machine.execFmuln rd ra rb s
  | .fbrev rd ra => Sys2Proof.Machine.execFbrev rd ra s
  | .finv rd ra => Sys2Proof.Machine.execFinv rd ra s
  | .fdiv rd ra rb => Sys2Proof.Machine.execFdiv rd ra rb s
  | .fpow rd ra rb => Sys2Proof.Machine.execFpow rd ra rb s
  | .fsqrt rd ra => Sys2Proof.Machine.execFsqrt rd ra s
  | .fmov rd ra => Sys2Proof.Machine.execFmov rd ra s
  | .fli rd imm => Sys2Proof.Machine.execFli rd imm s
  | .padd rd ra rb => Sys2Proof.Machine.execPadd rd ra rb s
  | .pmul rd ra rb => Sys2Proof.Machine.execPmul rd ra rb s
  | .pdivmod rd rc ra rb => Sys2Proof.Machine.execPdivmod rd rc ra rb s
  | .ppow rd ra rb => Sys2Proof.Machine.execPpow rd ra rb s
  | .ppowmod rd ra rb rc => Sys2Proof.Machine.execPpowmod rd ra rb rc s
  | .pderiv rd ra => Sys2Proof.Machine.execPderiv rd ra s
  | .psqrt rd ra => Sys2Proof.Machine.execPsqrt rd ra s
  | .pmonic rd ra => Sys2Proof.Machine.execPmonic rd ra s
  | .pgcd rd ra rb => Sys2Proof.Machine.execPgcd rd ra rb s
  | .pmov rd ra => Sys2Proof.Machine.execPmov rd ra s
  | .psetc rd ra imm => Sys2Proof.Machine.execPsetc rd ra imm s
  | .pgetc rd ra imm => Sys2Proof.Machine.execPgetc rd ra imm s
  | .sff ra => Sys2Proof.Machine.execSff ra s
  | .ddf ra => Sys2Proof.Machine.execDdf ra s
  | .edf ra imm => Sys2Proof.Machine.execEdf ra imm s
  | .factor ra => Sys2Proof.Machine.execFactor ra s
  | .lcnt rd => Sys2Proof.Machine.execLcnt rd s
  | .lgetp rd imm => Sys2Proof.Machine.execLgetp rd imm s
  | .lgetn rd imm => Sys2Proof.Machine.execLgetn rd imm s
  | .ghash rd rc ra rb re => Sys2Proof.Machine.execGhash rd rc ra rb re s
  | .gcmenc rd rc ra rb re rf => Sys2Proof.Machine.execGcmenc rd rc ra rb re rf s
  | .gcmdec rd rc ra rb re rf => Sys2Proof.Machine.execGcmdec rd rc ra rb re rf s
  | .recover rd rc ra rb => Sys2Proof.Machine.execRecover rd rc ra rb s
  | .forge rd ra rc rb re => Sys2Proof.Machine.execForge rd ra rc rb re s

end Sys2Proof.Machine
end

