-- ==== Sys2Proof/Machine/Step.lean ====
section
/-! DEFINITION. The sequencer step (R71) and the placing of a word where the next step fetches. -/

namespace Sys2Proof.Machine

/-- One step. While `STATE = 1` the sequencer fetches, decodes and executes one command (R71), or takes FetchOutOfRange or IllegalCommand. Otherwise it is idle and all state is kept until the host acts (R319, log entry 6). -/
def step (s : State) : Host.Outcome State Fault Refusal :=
  if s.running then
    match fetch s with
    | .error k => .next (errorEntry k 0 s)
    | .ok w => match decode w with
      | .error _ => illegal w s
      | .ok i => exec i s
  else .next s

/-- `s` with the instruction whose bits are `w` as the one the next step fetches and runs: a host's `HostWriteCM` at `pc` and, when the machine is not running, its `HostStart` (R35, R342, log entry 5). -/
def State.withFetchWord (s : State) (nbits w : Nat) : State := placeAtFetch s (BitVec.ofNat 32 (w % 2 ^ nbits))

end Sys2Proof.Machine
end

