-- ==== Sys2Proof/Machine/HostPort.lean ====
section
/-! DEFINITION. The host port (R35): what the outside world can do to the machine between commands. -/

namespace Sys2Proof.Machine

/-- The host actions of R35 that change the machine. -/
inductive HostAction where
  /-- `HostWriteF(i, w)`. -/
  | writeF (i : Reg) (w : Word)
  /-- `HostWriteP(i, s)`. -/
  | writeP (i : Reg) (p : List Word)
  /-- `HostWriteB(i, s)`. -/
  | writeB (i : Reg) (b : Bytes)
  /-- `HostWriteCM(i, w)`. -/
  | writeCM (i : Nat) (w : Word32)
  /-- `HostWriteCSR(4, v)`. -/
  | writeBudget (v : Word32)
  /-- `HostWriteCSR(5, v)`. -/
  | writePc (v : Word32)
  /-- `HostStart()`. -/
  | start
  /-- `HostReset()`. -/
  | reset
deriving DecidableEq, Repr

/-- The second column of R35's table: when an action is allowed. Reset is allowed at any time, every other only while the sequencer is not running; a length or index is within its capacity. -/
def HostAction.allowed (s : State) : HostAction → Bool
  | .reset => true
  | .writeF _ _ => !s.running
  | .writeP _ p => !s.running && decide (1 ≤ p.length) && decide (p.length ≤ s.params.maxCoef)
  | .writeB _ b => !s.running && decide (b.length ≤ s.params.maxBytes)
  | .writeCM i _ => !s.running && decide (i < s.params.cmSize)
  | .writeBudget _ => !s.running
  | .writePc _ => !s.running
  | .start => !s.running

/-- Reset (R340): every element at its reset value, `CM` unspecified afresh; the parameters are the machine's, and draws go on being new (log entries 1, 2, 4). -/
def hostReset (s : State) : State := State.afterReset s.params s.drawn (s.resets + 1)

/-- The third column of R35's table: the effect of an allowed action. -/
def HostAction.effect (s : State) : HostAction → State
  | .writeF i w => s.setF i w
  | .writeP i p => s.setP i (canon p)
  | .writeB i b => s.setB i b
  | .writeCM i w => s.cmWrite i w
  | .writeBudget v => s.setBudget v
  | .writePc v => { s with pc := v }
  | .start => Sys2Proof.Machine.start s
  | .reset => hostReset s

/-- A host action made: one that is not allowed has no effect on the state (R35, entry U6 of 93_implementation_defined.md). -/
def hostAct (a : HostAction) (s : State) : State := if a.allowed s then a.effect s else s

/-- The elements a host can read (R35). -/
inductive HostElement where
  | f (i : Reg)
  | p (i : Reg)
  | b (i : Reg)
  | list
  | cm (i : Nat)
  | csr (n : Nat)
deriving DecidableEq, Repr

/-- The value a host read returns. -/
inductive HostValue where
  | word (w : Word)
  | poly (p : Poly)
  | bytes (b : Bytes)
  | list (z : List (Poly × Word32))
  | word32 (w : Word32)
deriving DecidableEq, Repr

/-- When a read is allowed (R35): any existing element while not running, `STATUS` at any time. -/
def HostElement.readable (s : State) : HostElement → Bool
  | .csr 0 => true
  | .csr n => !s.running && decide (n ≤ 5)
  | .cm i => !s.running && decide (i < s.params.cmSize)
  | .f _ | .p _ | .b _ | .list => !s.running

/-- `HostRead(element)` (R35), which changes nothing (R59). A read that is not allowed is not offered: entry U6 leaves its value open (log entry 10). -/
def hostRead (e : HostElement) (s : State) : Option HostValue :=
  if e.readable s then
    some (match e with
      | .f i => .word (s.getF i)
      | .p i => .poly (s.getP i)
      | .b i => .bytes (s.getB i)
      | .list => .list s.results
      | .cm i => .word32 (s.cmRead i)
      | .csr n => .word32 (s.getCsr n))
  else none

end Sys2Proof.Machine
end

