-- ==== Sys2Proof/Safety.lean ====
section
/-! DEFINITION. What counts as a legal state, a run and a destination, in the terms the statements use. -/

namespace Sys2Proof.Machine

/-- What a polynomial register may hold (R21): a canonical sequence of at most `MAXCOEF` coefficients. -/
abbrev FitsPolyReg (m : Params) (p : Poly) : Prop := Canonical p ∧ p.length ≤ m.maxCoef

/-- The invariant of reachable states. -/
structure Inv (s : State) : Prop where
  /-- The parameters meet R6. -/
  params : s.params.legal
  /-- Every polynomial register holds a canonical sequence within the capacity (R21). -/
  polys : ∀ r : Reg, FitsPolyReg s.params (s.getP r)
  /-- Every byte buffer is within the capacity (R22). -/
  bytes : ∀ r : Reg, (s.getB r).length ≤ s.params.maxBytes
  /-- Every polynomial of the result list is canonical (R23). -/
  list : ∀ e ∈ s.results, Canonical e.1
  /-- `STATUS[31:3]` read as zero (R27). -/
  reserved : statusReserved s.status = 0
  /-- `ECODE` holds a code of R300. -/
  ecode : s.ecode.toNat ≤ 7
  /-- `ECODE` is nonzero exactly in the state ERROR (R28, R305, R343). -/
  error : s.ecode ≠ 0 ↔ statusState s.status = stError
  /-- Outside the state ERROR, `EPC` and `EINFO` are zero (R29, R30). -/
  cleared : statusState s.status ≠ stError → s.epc = 0 ∧ s.einfo = 0
  /-- `EINFO` is zero but for IllegalCommand (R30, R300). -/
  einfo : s.ecode ≠ ErrorKind.illegalCommand.code → s.einfo = 0
  /-- `CM` has its canonical form. -/
  cm : s.cm.wf = true
  /-- `CM` has `CMSIZE` words (R25). -/
  cmRange : ∀ e ∈ s.cm, e.1 < s.params.cmSize

/-- What happens to the machine next: a step of the sequencer, or a host action between commands (R9, R61). -/
inductive Event where
  | tick
  | host (a : HostAction)
deriving DecidableEq, Repr

/-- The outcome of one event. -/
def Event.happen (e : Event) (s : State) : Outcome :=
  match e with
  | .tick => step s
  | .host a => .next (hostAct a s)

/-- A schedule of events, one after another, as the host and the sequencer take turns (R61, R343). -/
def runEvents : List Event → State → Outcome
  | [], s => .next s
  | e :: es, s =>
    match e.happen s with
    | .next t => runEvents es t
    | .fault r => .fault r
    | .refused r => .refused r

/-- The bounds of R23 and R202 on the result list: its entries, their polynomials and their integers are within `MAXCOEF`. -/
abbrev ListFits (s : State) : Prop :=
  s.results.length ≤ s.params.maxCoef ∧ ∀ e ∈ s.results, e.1.length ≤ s.params.maxCoef ∧ e.2.toNat < s.params.maxCoef

/-- `w` is the one command word that stands for `i` (R73, R74). -/
def StandsFor (w : Word32) (i : Instr) : Prop := ∀ v : Word32, decode v = .ok i ↔ v = w

/-- The second column of R301's table: when a command divides by zero. -/
def dividesByZero (s : State) : Instr → Prop
  | .finv _ ra => s.getF ra = 0
  | .fdiv _ _ rb => s.getF rb = 0
  | .pdivmod _ _ _ rb => s.getP rb = polyZero
  | .ppowmod _ _ _ rc => s.getP rc = polyZero
  | .pmonic _ ra => s.getP ra = polyZero
  | .pgcd _ ra rb => s.getP ra = polyZero ∧ s.getP rb = polyZero
  | .sff ra | .factor ra => s.getP ra = polyZero
  | .recover _ _ ra rb => recoverPoly (messageAt s ra rb 0) (messageAt s ra rb 1) = polyZero
  | .nop | .halt | .csrr .. | .csrw .. | .fadd .. | .fmul .. | .fmuln .. | .fbrev .. | .fpow .. | .fsqrt .. | .fmov ..
  | .fli .. | .padd .. | .pmul .. | .ppow .. | .pderiv .. | .psqrt .. | .pmov .. | .psetc .. | .pgetc .. | .ddf ..
  | .edf .. | .lcnt .. | .lgetp .. | .lgetn .. | .ghash .. | .gcmenc .. | .gcmdec .. | .forge .. => False

/-- The second column of R302's table: when a command finds its precondition violated. `SFF`, `FACTOR` and `RECOVER` never do. -/
def violatesPrecondition (s : State) : Instr → Prop
  | .psqrt _ ra => ∃ i : Nat, i % 2 = 1 ∧ coeffAt (s.getP ra) i ≠ 0
  | .ddf ra => s.getP ra = polyZero
  | .edf ra imm => s.getP ra = polyZero ∨ deg (s.getP ra) < 1 ∨ imm.toNat = 0 ∨ deg (s.getP ra) % imm.toNat ≠ 0
  | .lgetp _ imm | .lgetn _ imm => s.results.length ≤ imm.toNat
  | .nop | .halt | .csrr .. | .csrw .. | .fadd .. | .fmul .. | .fmuln .. | .fbrev .. | .finv .. | .fdiv .. | .fpow ..
  | .fsqrt .. | .fmov .. | .fli .. | .padd .. | .pmul .. | .pdivmod .. | .ppow .. | .ppowmod .. | .pderiv ..
  | .pmonic .. | .pgcd .. | .pmov .. | .psetc .. | .pgetc .. | .sff .. | .factor .. | .lcnt .. | .ghash ..
  | .gcmenc .. | .gcmdec .. | .recover .. | .forge .. => False

/-- The conditions of R307: when a command exceeds a capacity. -/
def exceedsCapacity (s : State) : Instr → Prop
  | .pmul _ ra rb =>
    s.getP ra ≠ polyZero ∧ s.getP rb ≠ polyZero ∧ s.params.maxCoef < (s.getP ra).length + (s.getP rb).length - 1
  | .ppow _ ra rb => s.getP ra ≠ polyZero ∧ s.params.maxCoef < (s.getF rb).toNat * deg (s.getP ra) + 1
  | .psetc _ ra imm => s.params.maxCoef ≤ imm.toNat ∧ s.getF ra ≠ 0
  | .nop | .halt | .csrr .. | .csrw .. | .fadd .. | .fmul .. | .fmuln .. | .fbrev .. | .finv .. | .fdiv .. | .fpow ..
  | .fsqrt .. | .fmov .. | .fli .. | .padd .. | .pdivmod .. | .ppowmod .. | .pderiv .. | .psqrt .. | .pmonic ..
  | .pgcd .. | .pmov .. | .pgetc .. | .sff .. | .ddf .. | .edf .. | .factor .. | .lcnt .. | .lgetp .. | .lgetn ..
  | .ghash .. | .gcmenc .. | .gcmdec .. | .recover .. | .forge .. => False

/-- The field registers a command writes when it succeeds (R51, R73). -/
def destsF : Instr → List Reg
  | .csrr rd _ => [rd]
  | .fadd rd _ _ | .fmul rd _ _ | .fmuln rd _ _ | .fdiv rd _ _ | .fpow rd _ _ => [rd]
  | .fbrev rd _ | .finv rd _ | .fsqrt rd _ | .fmov rd _ => [rd]
  | .fli rd _ => [rd]
  | .pgetc rd _ _ => [rd]
  | .lcnt rd => [rd]
  | .lgetn rd _ => [rd]
  | .ghash rd rc _ _ _ => [rd, rc]
  | .gcmenc _ rc _ _ _ _ => [rc]
  | .recover rd rc _ _ => [rd, rc]
  | .forge rd _ _ _ _ => [rd]
  | .nop | .halt | .csrw .. | .padd .. | .pmul .. | .pdivmod .. | .ppow .. | .ppowmod .. | .pderiv .. | .psqrt ..
  | .pmonic .. | .pgcd .. | .pmov .. | .psetc .. | .sff .. | .ddf .. | .edf .. | .factor .. | .lgetp .. | .gcmdec .. => []

/-- The polynomial registers a command writes when it succeeds (R51, R73). -/
def destsP : Instr → List Reg
  | .padd rd _ _ | .pmul rd _ _ | .ppow rd _ _ | .pgcd rd _ _ => [rd]
  | .pdivmod rd rc _ _ => [rd, rc]
  | .ppowmod rd _ _ _ => [rd]
  | .pderiv rd _ | .psqrt rd _ | .pmonic rd _ | .pmov rd _ => [rd]
  | .psetc rd _ _ => [rd]
  | .lgetp rd _ => [rd]
  | .nop | .halt | .csrr .. | .csrw .. | .fadd .. | .fmul .. | .fmuln .. | .fbrev .. | .finv .. | .fdiv .. | .fpow ..
  | .fsqrt .. | .fmov .. | .fli .. | .pgetc .. | .sff .. | .ddf .. | .edf .. | .factor .. | .lcnt .. | .lgetn ..
  | .ghash .. | .gcmenc .. | .gcmdec .. | .recover .. | .forge .. => []

/-- The byte buffers a command writes (R22, R51). -/
def destsB : Instr → List Reg
  | .gcmenc rd _ _ _ _ _ | .gcmdec rd _ _ _ _ _ => [rd]
  | .nop | .halt | .csrr .. | .csrw .. | .fadd .. | .fmul .. | .fmuln .. | .fbrev .. | .finv .. | .fdiv .. | .fpow ..
  | .fsqrt .. | .fmov .. | .fli .. | .padd .. | .pmul .. | .pdivmod .. | .ppow .. | .ppowmod .. | .pderiv .. | .psqrt ..
  | .pmonic .. | .pgcd .. | .pmov .. | .psetc .. | .pgetc .. | .sff .. | .ddf .. | .edf .. | .factor .. | .lcnt ..
  | .lgetp .. | .lgetn .. | .ghash .. | .recover .. | .forge .. => []

/-- The commands that replace the result list (R23, R194). -/
def writesList (i : Instr) : Bool := i.mnemonic ∈ [Mnemonic.sff, .ddf, .edf, .factor]

/-- The commands that can draw from the randomness port (R34). -/
def mayDraw (i : Instr) : Bool := i.mnemonic ∈ [Mnemonic.edf, .factor, .recover]

/-- The product of a factor list, each polynomial to its exponent (R190, R205). -/
def productOf (z : Factors) : Poly := z.foldr (fun e acc => pMul (pPow e.1 e.2) acc) polyOne

/-- The product of the polynomials of a list of `ddf`, whose integers are degrees and not exponents (R191). -/
def productOfParts (z : Factors) : Poly := productOf (z.map (fun e => (e.1, 1)))

/-- A square-free polynomial, as the formal derivative tells (R190, R203). -/
def SquareFree (p : Poly) : Prop := pGcd p (pDeriv p) = .ok polyOne

/-- An irreducible polynomial (R191 to R193): of degree at least 1, and no product of two of degree at least 1. -/
def IrreduciblePoly (p : Poly) : Prop :=
  1 ≤ deg p ∧ ∀ u v : Poly, Canonical u → Canonical v → pMul u v = p → deg u = 0 ∨ deg v = 0

/-- X^(q^k) + X with q = 2^128, the polynomial of trial degree `k` before its reduction (R191). -/
def trialPoly (k : Nat) : Poly := pAdd (pPow polyX (2 ^ (128 * k))) polyX

/-- A polynomial evaluated at a field element, constant term first (R233, R260). -/
def evalAt (h : Word) (p : Poly) : Word := p.foldr (fun c acc => c ^^^ feMul h acc) 0

end Sys2Proof.Machine
end

