-- ==== Sys2Proof/Certificates/Slice0/Obligations.lean ====
section
/-! DEFINITION. The statements about the model, for the provers. Each docstring names the rules it formalises; where a clause rests on a choice of the model, it names the log entry. -/

open Sys2Proof Sys2Proof.Machine

/-! ## Encoding -/

/-- R73, R74: decoding and encoding undo each other. Every well-formed instruction, with every operand at every value, is what its encoding decodes to; every word that decodes is the encoding of what it decodes to, which is well formed. -/
def Obligations.DecodeAndEncodeAreInverse : Prop :=
  (∀ i : Instr, i.wf = true → decode (encode i) = .ok i) ∧
  (∀ (w : Word32) (i : Instr), decode w = .ok i → encode i = w ∧ i.wf = true)

/-- R74: the three cases in which a word is illegal, and no other; no two rows match one word; an illegal word that the sequencer reaches raises IllegalCommand. -/
def Obligations.IllegalWordsAreTheThreeCases : Prop :=
  ∀ w : Word32,
    (decode w = .error .unknownOpcode ↔ ∀ m : Mnemonic, m.opcode ≠ fieldOp w) ∧
    (decode w = .error .reservedField ↔ ∃ m : Mnemonic, m.opcode = fieldOp w ∧ w &&& m.mask ≠ m.matchWord) ∧
    (decode w = .error .sideCondition ↔ (∃ m : Mnemonic, w &&& m.mask = m.matchWord) ∧
      (fieldOp w = 0x02 ∧ 5 < (fieldImm w).toNat ∨ fieldOp w = 0x03 ∧ fieldImm w ≠ 4 ∨
        (fieldOp w = 0x22 ∨ fieldOp w = 0x40 ∨ fieldOp w = 0x50) ∧ fieldRd w = fieldRc w)) ∧
    (∀ m n : Mnemonic, w &&& m.mask = m.matchWord → w &&& n.mask = n.matchWord → m = n) ∧
    (∀ e : Reject, decode w = .error e → ∀ s : State, s.running = true → s.pc.toNat < s.params.cmSize →
      s.cmRead s.pc.toNat = w → step s = .next (errorEntry .illegalCommand w s))

/-- R73 and the examples of the commands' rules: words written out by hand, one or more for each family, decode to the commands they stand for. -/
def Obligations.ExampleWordsDecode : Prop :=
  decode 0x00000000 = .ok .nop ∧ decode 0x00000001 = .ok .halt ∧ decode 0x04000102 = .ok (.csrr 1 4) ∧
  decode 0x04003003 = .ok (.csrw 4 3) ∧ decode 0x00010211 = .ok (.fmul 2 0 1) ∧ decode 0xE1000519 = .ok (.fli 5 0xE1) ∧
  decode 0x00310222 = .ok (.pdivmod 2 3 0 1) ∧ decode 0x0200102A = .ok (.psetc 0 1 2) ∧
  decode 0x01000032 = .ok (.edf 0 1) ∧ decode 0x01000236 = .ok (.lgetn 2 1) ∧
  decode 0x01301240 = .ok (.ghash 2 3 1 0 1) ∧ decode 0x32510441 = .ok (.gcmenc 4 5 0 1 2 3) ∧
  decode 0x34510642 = .ok (.gcmdec 6 5 0 1 4 3) ∧ decode 0x00904850 = .ok (.recover 8 9 4 0) ∧
  decode 0x07968A51 = .ok (.forge 10 8 9 6 7)

/-! ## The step -/

/-- R71: when the word at `pc` decodes to an instruction, it is well formed and the step is that instruction's execution. -/
def Obligations.StepRunsTheDecodedCommand : Prop :=
  ∀ (s : State) (i : Instr), s.running = true → s.pc.toNat < s.params.cmSize → decode (s.cmRead s.pc.toNat) = .ok i →
    i.wf = true ∧ step s = exec i s

/-- R71, R319: one step of the sequencer, case by case: an error of the fetch; an error of the decoding; a command that raises, with the draws it made consumed; `HALT`; any other command, which advances `pc` by one and leaves the sequencer running. While `STATE` is not 1 all state is kept. -/
def Obligations.SequencerStep : Prop :=
  ∀ s : State,
    (statusState s.status ≠ 1 → step s = .next s) ∧
    (s.running = true → s.params.cmSize ≤ s.pc.toNat → step s = .next (errorEntry .fetchOutOfRange 0 s)) ∧
    (s.running = true → s.pc.toNat < s.params.cmSize → ∀ e : Reject, decode (s.cmRead s.pc.toNat) = .error e →
      step s = .next (errorEntry .illegalCommand (s.cmRead s.pc.toNat) s)) ∧
    (s.running = true → s.pc.toNat < s.params.cmSize → ∀ i : Instr, decode (s.cmRead s.pc.toNat) = .ok i →
      ∃ t : State, step s = .next t ∧ exec i s = .next t ∧
        ((∃ (k : ErrorKind) (n : Nat), t = errorEntry k 0 (s.setDrawn n)) ∨
         (i = .halt ∧ t = { s with status := withState s.status stHalted }) ∨
         (i ≠ .halt ∧ t.pc = s.pc + 1 ∧ t.running = true)))

/-- R74, R305, R319: decoding is total and every error is taken, so every state has a next one, and so has every command in every state. -/
def Obligations.EveryStepHasANextState : Prop :=
  (∀ s : State, ∃ t : State, step s = .next t) ∧ (∀ (i : Instr) (s : State), ∃ t : State, exec i s = .next t)

/-- R300, R305: what a step that stops in the state ERROR did to each piece of state, and the seven codes. -/
def Obligations.ErrorEntryIsPrecise : Prop :=
  [ErrorKind.divisionByZero, .preconditionViolation, .noRootFound, .retryBudgetExceeded, .illegalCommand,
    .capacityExceeded, .fetchOutOfRange].map ErrorKind.code = [1, 2, 3, 4, 5, 6, 7] ∧
  ∀ s t : State, s.running = true → step s = .next t → statusState t.status = 3 →
    ∃ k : ErrorKind, t.ecode = k.code ∧ t.epc = s.pc ∧
      t.einfo = (if k = .illegalCommand then s.cmRead s.pc.toNat else 0) ∧
      t.pc = s.pc ∧ t.fregs = s.fregs ∧ t.pregs = s.pregs ∧ t.bregs = s.bregs ∧ t.results = s.results ∧
      statusAuth t.status = statusAuth s.status ∧ statusReserved t.status = statusReserved s.status ∧
      t.edfbudget = s.edfbudget ∧ t.cm = s.cm ∧ t.params = s.params ∧ t.resets = s.resets ∧ s.drawn ≤ t.drawn

/-- R303, R304, R306, R308: the kinds that only some commands raise. NoRootFound is `RECOVER`'s, RetryBudgetExceeded that of the three commands that run `edf`, IllegalCommand and FetchOutOfRange no well-formed command's. The three other kinds have their own statements, which say exactly when: DivisionByZeroExactly, PreconditionViolationExactly and CapacityExceededExactly. -/
def Obligations.ErrorKindsNameTheirCommands : Prop :=
  ∀ (i : Instr) (s t : State), s.running = true → s.ecode = 0 → exec i s = .next t →
    (t.ecode = 3 → i.mnemonic = .recover) ∧
    (t.ecode = 4 → i.mnemonic = .edf ∨ i.mnemonic = .factor ∨ i.mnemonic = .recover) ∧
    (t.ecode = 5 → i.wf = false) ∧
    t.ecode ≠ 7

/-- R301: DivisionByZero is raised by exactly the commands of the table under exactly its conditions. -/
def Obligations.DivisionByZeroExactly : Prop :=
  ∀ (i : Instr) (s t : State), Inv s → s.running = true → i.wf = true → exec i s = .next t →
    (t.ecode = 1 ↔ dividesByZero s i)

/-- R302: PreconditionViolation is raised by exactly the commands of the table under exactly its conditions; `SFF`, `FACTOR` and `RECOVER` never raise it, whatever is drawn. -/
def Obligations.PreconditionViolationExactly : Prop :=
  ∀ (i : Instr) (s t : State), Inv s → s.running = true → i.wf = true → exec i s = .next t →
    (t.ecode = 2 ↔ violatesPrecondition s i)

/-- R307: CapacityExceeded is raised by `PMUL`, `PPOW` and `PSETC` under the stated conditions, and by no other command. -/
def Obligations.CapacityExceededExactly : Prop :=
  ∀ (i : Instr) (s t : State), Inv s → ListFits s → s.running = true → i.wf = true → exec i s = .next t →
    (t.ecode = 6 ↔ exceedsCapacity s i)

/-! ## Frames and independence -/

/-- R22, R23, R25, R27, R31, R51: the frame of every command. A command that ends in no error changes only the destinations its row names. -/
def Obligations.CommandsWriteOnlyTheirDestinations : Prop :=
  ∀ (i : Instr) (s t : State), s.running = true → exec i s = .next t →
    (∀ r : Reg, r ∉ destsF i → t.getF r = s.getF r) ∧
    (∀ r : Reg, r ∉ destsP i → t.getP r = s.getP r) ∧
    (∀ r : Reg, r ∉ destsB i → t.getB r = s.getB r) ∧
    (writesList i = false → t.results = s.results) ∧
    (i.mnemonic ≠ .csrw → t.edfbudget = s.edfbudget) ∧
    (i.mnemonic ≠ .gcmdec → statusAuth t.status = statusAuth s.status) ∧
    statusReserved t.status = statusReserved s.status ∧
    (statusState t.status ≠ 3 → t.ecode = s.ecode ∧ t.epc = s.epc ∧ t.einfo = s.einfo) ∧
    (statusState t.status = 1 ∨ statusState t.status = 3 ∨ statusState t.status = 2 ∧ i = .halt) ∧
    (mayDraw i = false → t.drawn = s.drawn) ∧ s.drawn ≤ t.drawn ∧
    t.cm = s.cm ∧ t.params = s.params ∧ t.resets = s.resets

/-- R23, R25, R64: no command reads or writes command memory; only `LCNT`, `LGETP`, `LGETN` read the result list. With other contents there, a command does the same to all other state and leaves those contents, but for a list it replaces. -/
def Obligations.CommandsAreIndependentOfWhatTheyDoNotRead : Prop :=
  ∀ (i : Instr) (s t : State), exec i s = .next t →
    (∀ m : Memory, exec i { s with cm := m } = .next { t with cm := m }) ∧
    (i.mnemonic ≠ .lcnt → i.mnemonic ≠ .lgetp → i.mnemonic ≠ .lgetn → ∀ z : List (Poly × Word32),
      exec i { s with results := z } = .next { t with results := z } ∨
      writesList i = true ∧ exec i { s with results := z } = .next t)

/-- R27: `AUTH` is changed by `GCMDEC` and by reset and by nothing else: no other command, no error, no host action. -/
def Obligations.OnlyGcmdecAndResetChangeAuth : Prop :=
  (∀ (s t : State), step s = .next t → statusAuth t.status ≠ statusAuth s.status →
    ∃ rd rc ra rb re rf : Reg, decode (s.cmRead s.pc.toNat) = .ok (.gcmdec rd rc ra rb re rf) ∧
      statusAuth t.status = (gcmDecrypt Config.encryptBlock (s.getF ra) (nonceOf (s.getF rb)) (s.getB re) (s.getB rf) (s.getF rc)).2) ∧
  (∀ (a : HostAction) (s : State), a ≠ .reset → statusAuth (hostAct a s).status = statusAuth s.status)

/-! ## Invariants -/

/-- R21, R22, R23, R24, R27 to R30: `Inv` is kept by every step. -/
def Obligations.StepKeepsInv : Prop := ∀ s t : State, Inv s → step s = .next t → Inv t

/-- R37: `Inv` holds right after reset, for every legal parameter value, and so for `State.reset` (whose parameters are log entry 1's). -/
def Obligations.ResetMeetsInv : Prop :=
  (∀ (p : Params) (drawn resets : Nat), p.legal → Inv (State.afterReset p drawn resets)) ∧ Inv State.reset

/-- R9, R61: however the host and the sequencer take turns, the machine goes on and `Inv` holds at the end. -/
def Obligations.SchedulesKeepInv : Prop :=
  ∀ (es : List Event) (s : State), Inv s → ∃ t : State, runEvents es s = .next t ∧ Inv t

/-- R23, R202: a step leaves a result list within its bounds: at most `MAXCOEF` entries, each polynomial within `MAXCOEF` coefficients, each integer below `MAXCOEF` (so 32 bits hold it). -/
def Obligations.StepKeepsListBounds : Prop :=
  ∀ s t : State, Inv s → ListFits s → step s = .next t → ListFits t

/-- R24: a `pc` within `CMSIZE` stays within it and never wraps around; it only grows, by at most one. -/
def Obligations.PcNeverExceedsCmSize : Prop :=
  ∀ s t : State, Inv s → s.pc.toNat ≤ s.params.cmSize → step s = .next t →
    t.pc.toNat ≤ t.params.cmSize ∧ (t.pc.toNat = s.pc.toNat ∨ t.pc.toNat = s.pc.toNat + 1)

/-! ## Reset and the host port -/

/-- R37, R341: the value of every element after reset, from any state and at `State.reset`. Nothing is claimed of `CM`, whose contents the rules leave unspecified. -/
def Obligations.ResetValues : Prop :=
  ∀ s t : State, (t = hostAct .reset s ∨ t = State.reset) →
    (∀ r : Reg, t.getF r = 0 ∧ t.getP r = [0] ∧ t.getB r = []) ∧ t.results = [] ∧ t.pc = 0 ∧
    statusState t.status = 0 ∧ statusAuth t.status = false ∧ t.status = 0 ∧
    t.ecode = 0 ∧ t.epc = 0 ∧ t.einfo = 0 ∧ t.edfbudget = 256

/-- R35: the effect on the whole state of each host action while the sequencer is stopped, within its bounds, and none while it runs or out of bounds (entry U6); the reset, at any time, whose values ResetValues states (that the parameters and the count of draws are kept and the resets counted is the model's: log entries 1, 2, 4); what a read of each element and of each of the six control registers gives. -/
def Obligations.HostPortEffects : Prop :=
  ∀ s : State,
    (s.running = true → ∀ a : HostAction, a ≠ .reset → hostAct a s = s) ∧
    (s.running = false →
      (∀ (i : Reg) (w : Word), hostAct (.writeF i w) s = s.setF i w) ∧
      (∀ (i : Reg) (p : List Word), hostAct (.writeP i p) s =
        if 1 ≤ p.length ∧ p.length ≤ s.params.maxCoef then s.setP i (canon p) else s) ∧
      (∀ (i : Reg) (b : Bytes), hostAct (.writeB i b) s = if b.length ≤ s.params.maxBytes then s.setB i b else s) ∧
      (∀ (i : Nat) (w : Word32),
        hostAct (.writeCM i w) s = (if i < s.params.cmSize then s.cmWrite i w else s) ∧
        ∀ j : Nat, (hostAct (.writeCM i w) s).cmRead j = if i < s.params.cmSize ∧ j = i then w else s.cmRead j) ∧
      (∀ v : Word32, hostAct (.writeBudget v) s = { s with edfbudget := v }) ∧
      (∀ v : Word32, hostAct (.writePc v) s = { s with pc := v }) ∧
      hostAct .start s = { s with ecode := 0, epc := 0, einfo := 0, status := withState s.status stRunning } ∧
      (∀ i : Reg, hostRead (.f i) s = some (.word (s.getF i)) ∧ hostRead (.p i) s = some (.poly (s.getP i)) ∧
        hostRead (.b i) s = some (.bytes (s.getB i))) ∧
      hostRead .list s = some (.list s.results) ∧
      (∀ i : Nat, i < s.params.cmSize → hostRead (.cm i) s = some (.word32 (s.cmRead i))) ∧
      (∀ n : Nat, n ≤ 5 → hostRead (.csr n) s = some (.word32 (s.getCsr n)) ∧
        s.getCsr n = [s.status, s.ecode, s.epc, s.einfo, s.edfbudget, s.pc].getD n 0)) ∧
    hostRead (.csr 0) s = some (.word32 s.status) ∧
    hostAct .reset s = State.afterReset s.params s.drawn (s.resets + 1)

/-- R310, R343: a host start made after a run has stopped, at `HALT` or at an error, without writing `PC`, gives back the state the last command began in, but for the draws it consumed: that command is executed again. -/
def Obligations.StartRetriesTheLastCommand : Prop :=
  ∀ s t : State, s.running = true → s.ecode = 0 → s.epc = 0 → s.einfo = 0 → step s = .next t → t.running = false →
    hostAct .start t = s.setDrawn t.drawn

/-! ## System commands -/

/-- R280, R281, R282, R283: the words of the four system commands, and what each does in every state; a start after `HALT` runs the `HALT` again; what a run sees in the control registers. -/
def Obligations.SystemCommandsComplete : Prop :=
  ∀ (s : State) (d a : Reg) (n : BitVec 8),
    StandsFor 0x00000000 .nop ∧ exec .nop s = .next { s with pc := s.pc + 1 } ∧
    StandsFor 0x00000001 .halt ∧ exec .halt s = .next { s with status := withState s.status stHalted } ∧
    (Inv s → s.running = true → hostAct .start { s with status := withState s.status stHalted } = s) ∧
    (n.toNat ≤ 5 → StandsFor (packImm 0x02 d 0 n) (.csrr d n) ∧
      exec (.csrr d n) s = .next (s.setF d
        (([s.status, s.ecode, s.epc, s.einfo, s.edfbudget, s.pc].getD n.toNat 0).setWidth 128)).advance) ∧
    (∀ (w : Word32) (i : Instr), fieldOp w = 0x02 → decode w = .ok i →
      ∃ (e : Reg) (m : BitVec 8), m.toNat ≤ 5 ∧ i = .csrr e m ∧ w = packImm 0x02 e 0 m) ∧
    (Inv s → s.running = true → (s.status = 1 ∨ s.status = 5) ∧ s.ecode = 0 ∧ s.epc = 0 ∧ s.einfo = 0) ∧
    StandsFor (packImm 0x03 0 a 4) (.csrw 4 a) ∧
    exec (.csrw 4 a) s = .next { s with edfbudget := (s.getF a).extractLsb' 0 32, pc := s.pc + 1 } ∧
    (∀ (w : Word32) (i : Instr), fieldOp w = 0x03 → decode w = .ok i → ∃ e : Reg, i = .csrw 4 e ∧ w = packImm 0x03 0 e 4)

/-! ## Field arithmetic -/

/-- R53: the converter reverses the bits of every byte, is an involution, and turns GCM ordering (R52's coefficient of x^i) into bit i. -/
def Obligations.ConverterReversesEachByte : Prop :=
  ∀ w : Word,
    (∀ k j : Nat, k ≤ 15 → j ≤ 7 → (brev8 w).getLsbD (8 * k + j) = w.getLsbD (8 * k + 7 - j)) ∧
    brev8 (brev8 w) = w ∧
    (∀ i : Nat, i ≤ 127 → (brev8 w).getLsbD i = w.getLsbD (8 * (i / 8) + 7 - i % 8))

/-- R101: the raw multiplier gives the one word whose polynomial over GF(2) is congruent to the product modulo x^128 + x^7 + x^2 + x + 1. -/
def Obligations.RawMultiplierIsThePolynomialProduct : Prop :=
  ∀ a b r : Word,
    let poly : Word → Polynomial (ZMod 2) := fun w =>
      ∑ i ∈ Finset.range 128, if w.getLsbD i then (Polynomial.X ^ i : Polynomial (ZMod 2)) else 0
    r = feMuln a b ↔
      (Polynomial.X ^ 128 + Polynomial.X ^ 7 + Polynomial.X ^ 2 + Polynomial.X + 1 : Polynomial (ZMod 2)) ∣
        poly r - poly a * poly b

/-- R102: multiplication in GCM ordering is the raw multiplier between two conversions; it is commutative and associative, distributes over addition, has `ONE` = 0x80 as identity and `ZERO` as annihilator. -/
def Obligations.FieldMultiplicationLaws : Prop :=
  ∀ a b c : Word,
    feMul a b = brev8 (feMuln (brev8 a) (brev8 b)) ∧
    feMul a b = feMul b a ∧ feMul (feMul a b) c = feMul a (feMul b c) ∧
    feMul a (feAdd b c) = feAdd (feMul a b) (feMul a c) ∧ feMul a 0x80 = a ∧ feMul a 0 = 0

/-- R118, with R104 to R106: every nonzero element times its inverse is `ONE`; an element added to itself is `ZERO`; the square root undoes the square. -/
def Obligations.FieldTestableProperties : Prop :=
  ∀ a : Word,
    (a ≠ 0 → ∃ v : Word, feInv a = .ok v ∧ feMul a v = 0x80) ∧
    feAdd a a = 0 ∧ feSqrt (feMul a a) = a

/-- R108, R109, R110, R111, R116, R117: the field commands that no operand can make fail. -/
def Obligations.PlainFieldCommandsComplete : Prop :=
  ∀ (s : State) (d a b : Reg) (n : BitVec 8),
    (StandsFor (packRegs 0x10 d a b 0 0 0) (.fadd d a b) ∧
      exec (.fadd d a b) s = .next (s.setF d (s.getF a ^^^ s.getF b)).advance) ∧
    (StandsFor (packRegs 0x11 d a b 0 0 0) (.fmul d a b) ∧
      exec (.fmul d a b) s = .next (s.setF d (brev8 (feMuln (brev8 (s.getF a)) (brev8 (s.getF b))))).advance) ∧
    (StandsFor (packRegs 0x12 d a b 0 0 0) (.fmuln d a b) ∧
      exec (.fmuln d a b) s = .next (s.setF d (feMuln (s.getF a) (s.getF b))).advance) ∧
    (StandsFor (packRegs 0x13 d a 0 0 0 0) (.fbrev d a) ∧
      exec (.fbrev d a) s = .next (s.setF d (brev8 (s.getF a))).advance) ∧
    (StandsFor (packRegs 0x18 d a 0 0 0 0) (.fmov d a) ∧
      exec (.fmov d a) s = .next (s.setF d (s.getF a)).advance) ∧
    (StandsFor (packImm 0x19 d 0 n) (.fli d n) ∧
      exec (.fli d n) s = .next (s.setF d (n.setWidth 128)).advance)

/-- R112, R113: inversion and division complete for a nonzero divisor, with the inverse that makes the product `ONE`; for a zero divisor they raise DivisionByZero, whatever the dividend. -/
def Obligations.InverseAndDivisionComplete : Prop :=
  ∀ (s : State) (d a b : Reg),
    StandsFor (packRegs 0x14 d a 0 0 0 0) (.finv d a) ∧ StandsFor (packRegs 0x15 d a b 0 0 0) (.fdiv d a b) ∧
    (s.getF a ≠ 0 → ∃ v : Word, feMul (s.getF a) v = fieldOne ∧ exec (.finv d a) s = .next (s.setF d v).advance) ∧
    (s.getF a = 0 → exec (.finv d a) s = .next (errorEntry .divisionByZero 0 s)) ∧
    (s.getF b ≠ 0 → ∃ v : Word, feMul (s.getF b) v = fieldOne ∧
      exec (.fdiv d a b) s = .next (s.setF d (feMul (s.getF a) v)).advance) ∧
    (s.getF b = 0 → exec (.fdiv d a b) s = .next (errorEntry .divisionByZero 0 s))

/-- R114, R115: the power command multiplies the base by itself as many times as the exponent register says; the root command gives the one element whose square is the operand. -/
def Obligations.PowerAndRootComplete : Prop :=
  ∀ (s : State) (d a b : Reg),
    StandsFor (packRegs 0x16 d a b 0 0 0) (.fpow d a b) ∧
    exec (.fpow d a b) s = .next (s.setF d ((fun x => feMul x (s.getF a))^[(s.getF b).toNat] fieldOne)).advance ∧
    StandsFor (packRegs 0x17 d a 0 0 0 0) (.fsqrt d a) ∧
    ∃ v : Word, feMul v v = s.getF a ∧ (∀ u : Word, feMul u u = s.getF a → u = v) ∧
      exec (.fsqrt d a) s = .next (s.setF d v).advance

/-! ## Polynomial ring -/

/-- R142, R146: the canonical form drops zero coefficients from the high-index end, keeps at least one coefficient and ends in a nonzero one unless it is the only one; the sum is the canonical form of the coefficientwise xor. -/
def Obligations.CanonicalFormsAndSums : Prop :=
  (∀ s : List Word,
    ((∃ k : Nat, s = canon s ++ List.replicate k 0) ∨ s = [] ∧ canon s = [0]) ∧
    1 ≤ (canon s).length ∧ ((canon s).length = 1 ∨ (canon s).getLastD 0 ≠ 0)) ∧
  polyZero = [0] ∧ polyOne = [0x80] ∧ polyX = [0, 0x80] ∧
  (∀ p q : Poly,
    (∀ i : Nat, coeffAt (pAdd p q) i = coeffAt p i ^^^ coeffAt q i) ∧ Canonical (pAdd p q) ∧ pAdd p p = polyZero)

/-- R147: the product's coefficients are the convolution; zero annihilates; the product of two nonzero canonical polynomials has exactly the stated length. -/
def Obligations.ProductIsTheConvolution : Prop :=
  ∀ p q : Poly,
    (∀ n : Nat, coeffAt (pMul p q) n =
      (List.range (n + 1)).foldl (fun acc i => acc ^^^ feMul (coeffAt p i) (coeffAt q (n - i))) 0) ∧
    Canonical (pMul p q) ∧ pMul polyZero q = polyZero ∧ pMul p polyZero = polyZero ∧
    (Canonical p → Canonical q → p ≠ polyZero → q ≠ polyZero → (pMul p q).length = p.length + q.length - 1)

/-- R148: the division algorithm: quotient and remainder exist, satisfy the division identity with the degree bound, and are the only such pair; a zero divisor raises DivisionByZero. -/
def Obligations.DivisionAlgorithm : Prop :=
  ∀ n m : Poly, Canonical n → Canonical m →
    (m = polyZero → pDivmod n m = .error .divisionByZero) ∧
    (m ≠ polyZero → ∃ q r : Poly, pDivmod n m = .ok (q, r) ∧ Canonical q ∧ Canonical r ∧ q.length ≤ n.length ∧
      pAdd (pMul q m) r = n ∧ (r = polyZero ∨ deg r < deg m) ∧
      ∀ q' r' : Poly, Canonical q' → Canonical r' → pAdd (pMul q' m) r' = n → (r' = polyZero ∨ deg r' < deg m) →
        q' = q ∧ r' = r)

/-- R149, R150: the power is the repeated product, of the stated degree; the modular power is the remainder of the power. -/
def Obligations.ModularPowerIsTheRemainderOfThePower : Prop :=
  ∀ (p m : Poly) (e : Nat), Canonical p → Canonical m →
    pPow p e = (fun x => pMul x p)^[e] polyOne ∧
    (p ≠ polyZero → deg (pPow p e) = e * deg p) ∧
    (m = polyZero → pPowmod p e m = .error .divisionByZero) ∧
    (m ≠ polyZero → pPowmod p e m = rem (pPow p e) m)

/-- R151: the formal derivative's coefficients, and when it vanishes. -/
def Obligations.DerivativeKeepsOddCoefficients : Prop :=
  ∀ p : Poly,
    (∀ i : Nat, coeffAt (pDeriv p) i = if (i + 1) % 2 = 1 then coeffAt p (i + 1) else 0) ∧ Canonical (pDeriv p) ∧
    (pDeriv p = polyZero ↔ ∀ i : Nat, i % 2 = 1 → coeffAt p i = 0)

/-- R154: the greatest common divisor is monic, divides both operands, is divided by every common divisor and does not depend on their order; two zero operands raise DivisionByZero. -/
def Obligations.GcdIsTheMonicGreatestDivisor : Prop :=
  pGcd polyZero polyZero = .error .divisionByZero ∧
  ∀ u v : Poly, Canonical u → Canonical v → (u ≠ polyZero ∨ v ≠ polyZero) →
    ∃ g : Poly, pGcd u v = .ok g ∧ pGcd v u = .ok g ∧ Canonical g ∧ isMonic g = true ∧
      rem u g = .ok polyZero ∧ rem v g = .ok polyZero ∧
      ∀ w : Poly, Canonical w → w ≠ polyZero → rem u w = .ok polyZero → rem v w = .ok polyZero → rem g w = .ok polyZero

/-- R155, R160, R164, R165, R166: the polynomial commands that copy, add, derive, set and get coefficients; `PSETC` is the only one an operand can make fail. -/
def Obligations.CoefficientCommandsComplete : Prop :=
  ∀ (s : State) (d a b : Reg) (n : BitVec 8), Inv s →
    (StandsFor (packRegs 0x20 d a b 0 0 0) (.padd d a b) ∧
      exec (.padd d a b) s = .next (s.setP d (pAdd (s.getP a) (s.getP b))).advance) ∧
    (StandsFor (packRegs 0x25 d a 0 0 0 0) (.pderiv d a) ∧
      exec (.pderiv d a) s = .next (s.setP d (pDeriv (s.getP a))).advance) ∧
    (StandsFor (packRegs 0x29 d a 0 0 0 0) (.pmov d a) ∧
      exec (.pmov d a) s = .next (s.setP d (s.getP a)).advance) ∧
    (StandsFor (packImm 0x2B d a n) (.pgetc d a n) ∧
      exec (.pgetc d a n) s = .next (s.setF d ((s.getP a).getD n.toNat 0)).advance) ∧
    StandsFor (packImm 0x2A d a n) (.psetc d a n) ∧
    (n.toNat < s.params.maxCoef ∨ s.getF a = 0 → ∃ p : Poly, FitsPolyReg s.params p ∧
      (∀ j : Nat, coeffAt p j = if j = n.toNat then s.getF a else coeffAt (s.getP d) j) ∧
      exec (.psetc d a n) s = .next (s.setP d p).advance) ∧
    (s.params.maxCoef ≤ n.toNat ∧ s.getF a ≠ 0 →
      exec (.psetc d a n) s = .next (errorEntry .capacityExceeded 0 s))

/-- R156, R158: the product and the power complete when the result fits and raise CapacityExceeded exactly when its known length does not. -/
def Obligations.ProductCommandsComplete : Prop :=
  ∀ (s : State) (d a b : Reg), Inv s →
    StandsFor (packRegs 0x21 d a b 0 0 0) (.pmul d a b) ∧ StandsFor (packRegs 0x23 d a b 0 0 0) (.ppow d a b) ∧
    (s.getP a = polyZero ∨ s.getP b = polyZero ∨ (s.getP a).length + (s.getP b).length - 1 ≤ s.params.maxCoef →
      exec (.pmul d a b) s = .next (s.setP d (pMul (s.getP a) (s.getP b))).advance) ∧
    (s.getP a ≠ polyZero → s.getP b ≠ polyZero → s.params.maxCoef < (s.getP a).length + (s.getP b).length - 1 →
      exec (.pmul d a b) s = .next (errorEntry .capacityExceeded 0 s)) ∧
    (s.getP a = polyZero ∨ (s.getF b).toNat * deg (s.getP a) + 1 ≤ s.params.maxCoef →
      exec (.ppow d a b) s = .next (s.setP d (pPow (s.getP a) (s.getF b).toNat)).advance) ∧
    (s.getP a ≠ polyZero → s.params.maxCoef < (s.getF b).toNat * deg (s.getP a) + 1 →
      exec (.ppow d a b) s = .next (errorEntry .capacityExceeded 0 s))

/-- R157, R159: division and the modular power complete for a nonzero divisor and raise DivisionByZero for a zero one. -/
def Obligations.DivisionCommandsComplete : Prop :=
  ∀ (s : State) (d c a b : Reg), Inv s →
    StandsFor (packRegs 0x24 d a b c 0 0) (.ppowmod d a b c) ∧
    (d ≠ c → StandsFor (packRegs 0x22 d a b c 0 0) (.pdivmod d c a b)) ∧
    (d ≠ c → s.getP b ≠ polyZero → ∃ q r : Poly, pAdd (pMul q (s.getP b)) r = s.getP a ∧
      (r = polyZero ∨ deg r < deg (s.getP b)) ∧ exec (.pdivmod d c a b) s = .next ((s.setP d q).setP c r).advance) ∧
    (d ≠ c → s.getP b = polyZero → exec (.pdivmod d c a b) s = .next (errorEntry .divisionByZero 0 s)) ∧
    (s.getP c ≠ polyZero → ∃ r : Poly, rem (pPow (s.getP a) (s.getF b).toNat) (s.getP c) = .ok r ∧
      exec (.ppowmod d a b c) s = .next (s.setP d r).advance) ∧
    (s.getP c = polyZero → exec (.ppowmod d a b c) s = .next (errorEntry .divisionByZero 0 s))

/-- R152, R153, R161, R162, R163: the polynomial root, the monic form and the greatest common divisor as commands, with their results and their errors. -/
def Obligations.RootMonicAndGcdCommandsComplete : Prop :=
  ∀ (s : State) (d a b : Reg), Inv s →
    StandsFor (packRegs 0x26 d a 0 0 0 0) (.psqrt d a) ∧ StandsFor (packRegs 0x27 d a 0 0 0 0) (.pmonic d a) ∧
    StandsFor (packRegs 0x28 d a b 0 0 0) (.pgcd d a b) ∧
    ((∀ i : Nat, i % 2 = 1 → coeffAt (s.getP a) i = 0) → ∃ r : Poly, pMul r r = s.getP a ∧
      exec (.psqrt d a) s = .next (s.setP d r).advance) ∧
    ((∃ i : Nat, i % 2 = 1 ∧ coeffAt (s.getP a) i ≠ 0) →
      exec (.psqrt d a) s = .next (errorEntry .preconditionViolation 0 s)) ∧
    (s.getP a ≠ polyZero → ∃ (q : Poly) (v : Word), feMul (lc (s.getP a)) v = fieldOne ∧
      q = (s.getP a).map (fun x => feMul x v) ∧ isMonic q = true ∧
      exec (.pmonic d a) s = .next (s.setP d q).advance) ∧
    (s.getP a = polyZero → exec (.pmonic d a) s = .next (errorEntry .divisionByZero 0 s)) ∧
    (s.getP a ≠ polyZero ∨ s.getP b ≠ polyZero → ∃ g : Poly, pGcd (s.getP a) (s.getP b) = .ok g ∧ isMonic g = true ∧
      exec (.pgcd d a b) s = .next (s.setP d g).advance) ∧
    (s.getP a = polyZero → s.getP b = polyZero → exec (.pgcd d a b) s = .next (errorEntry .divisionByZero 0 s))

/-! ## Factorization -/

/-- R190, R195, R203: the square-free stage completes for every nonzero polynomial with a list of square-free polynomials whose exponents are powers of two, strictly rising, and whose product is that polynomial; for a monic input every entry is monic and of degree at least 1. Zero raises DivisionByZero. -/
def Obligations.SquareFreeStageCompletes : Prop :=
  ∀ (s : State) (a : Reg), Inv s →
    (s.getP a = polyZero → exec (.sff a) s = .next (errorEntry .divisionByZero 0 s)) ∧
    (s.getP a ≠ polyZero → ∃ z : Factors, exec (.sff a) s = .next (s.setResults z).advance ∧
      productOf z = s.getP a ∧
      (∀ e ∈ z, Canonical e.1 ∧ e.1 ≠ polyZero ∧ SquareFree e.1 ∧ ∃ k : Nat, e.2 = 2 ^ k) ∧
      z.Pairwise (fun x y => x.2 < y.2) ∧
      (isMonic (s.getP a) = true → ∀ e ∈ z, isMonic e.1 = true ∧ 1 ≤ deg e.1))

/-- R191, R196, R204: the distinct-degree stage completes for every nonzero polynomial. Its list holds the parts found, by strictly rising trial degree, and then what is left over, with its own degree; the parts and the left-over multiply to the input. Every trial below the degree `d` that ended the loop was made, of a rest whose degree allows it, and its part is the greatest common divisor of X^(q^k) + X and that rest. So every part divides X^(q^k) + X for its degree k; and for a square-free input no part has a factor in common with the trial of a lower degree, nor has the left-over, whose degree is less than 2 d, with any trial. Degrees 0 and 1 are the corner cases; zero raises PreconditionViolation. -/
def Obligations.DistinctDegreeStageCompletes : Prop :=
  ∀ (s : State) (a : Reg), Inv s →
    (s.getP a = polyZero → exec (.ddf a) s = .next (errorEntry .preconditionViolation 0 s)) ∧
    (s.getP a ≠ polyZero → ∃ (parts : Factors) (left : Poly) (d : Nat),
      let z : Factors := parts ++ (if 1 ≤ deg left then [(left, deg left)] else [])
      exec (.ddf a) s = .next (s.setResults z).advance ∧
      1 ≤ d ∧ deg left < 2 * d ∧ parts.Pairwise (fun x y => x.2 < y.2) ∧
      (∀ e ∈ parts, 1 ≤ e.2 ∧ e.2 < d ∧ Canonical e.1 ∧ isMonic e.1 = true ∧ 1 ≤ deg e.1 ∧
        rem (trialPoly e.2) e.1 = .ok polyZero) ∧
      Canonical left ∧ pMul (productOfParts parts) left = s.getP a ∧
      (∀ k : Nat, 1 ≤ k → k < d → ∃ rest : Poly, Canonical rest ∧ 2 * k ≤ deg rest ∧
        pMul (productOfParts (parts.filter (fun e => decide (e.2 < k)))) rest = s.getP a ∧
        pGcd (trialPoly k) rest = .ok (productOfParts (parts.filter (fun e => e.2 == k)))) ∧
      (SquareFree (s.getP a) →
        (∀ e ∈ parts, ∀ k : Nat, 1 ≤ k → k < e.2 → pGcd (trialPoly k) e.1 = .ok polyOne) ∧
        ∀ k : Nat, 1 ≤ k → k < d → pGcd (trialPoly k) left = .ok polyOne) ∧
      (isMonic (s.getP a) = true → productOfParts z = s.getP a) ∧
      (deg (s.getP a) = 0 → z = []) ∧ (deg (s.getP a) = 1 → z = [(s.getP a, 1)]))

/-- R192, R197, R347: `EDF` traps when a precondition fails; completes without a draw when the degree is the given one, with any budget; and with budget 0 stops at once, without a draw, when a split is needed. -/
def Obligations.EqualDegreeStageWithoutATrial : Prop :=
  ∀ (s : State) (a : Reg) (n : BitVec 8), Inv s →
    (s.getP a = polyZero ∨ deg (s.getP a) < 1 ∨ n.toNat = 0 ∨ deg (s.getP a) % n.toNat ≠ 0 →
      exec (.edf a n) s = .next (errorEntry .preconditionViolation 0 s)) ∧
    (1 ≤ n.toNat → deg (s.getP a) = n.toNat →
      exec (.edf a n) s = .next (s.setResults [(s.getP a, n.toNat)]).advance) ∧
    (1 ≤ n.toNat → n.toNat < deg (s.getP a) → deg (s.getP a) % n.toNat = 0 → s.edfbudget = 0 →
      exec (.edf a n) s = .next (errorEntry .retryBudgetExceeded 0 s))

/-- R192, R194, R197, R31, R34. For every randomness source `edf` makes whole trials of `deg(f)` draws each, no more of them than the budget, all of them when it ends in RetryBudgetExceeded; a result has no candidate of degree above `d`; a trial's polynomial takes its draws in order, constant coefficient first. The command `EDF` runs `edf` with `EDFBUDGET` as the budget and the draws that follow those made: a result becomes the list, each candidate with the given degree; an error is taken, the draws consumed: PreconditionViolation when a precondition fails, else RetryBudgetExceeded. -/
def Obligations.EdfDrawsWithinItsBudget : Prop :=
  (∀ (rand : Nat → Word) (budget n : Nat) (f : Poly) (d : Nat),
    (∃ k : Nat, k ≤ budget ∧ (edf rand budget n f d).2 = n + k * deg f ∧
      ((edf rand budget n f d).1 = .error .retryBudgetExceeded → k = budget)) ∧
    (∀ z : List Poly, (edf rand budget n f d).1 = .ok z → ∀ u ∈ z, deg u ≤ d) ∧
    (∀ k i : Nat, coeffAt (edfDraw rand n k) i = if i < k then rand (n + i) else 0)) ∧
  (∀ (s : State) (a : Reg) (n : BitVec 8), Inv s →
    let r := edf Config.rand128 s.edfbudget.toNat s.drawn (s.getP a) n.toNat
    (∃ z : List Poly, r.1 = .ok z ∧
      exec (.edf a n) s = .next ((s.setDrawn r.2).setResults (z.map (fun u => (u, n.toNat)))).advance) ∨
    (∃ k : ErrorKind, r.1 = .error k ∧
      (k = .preconditionViolation ∧ violatesPrecondition s (.edf a n) ∨
        k = .retryBudgetExceeded ∧ ¬ violatesPrecondition s (.edf a n)) ∧
      exec (.edf a n) s = .next (errorEntry k 0 (s.setDrawn r.2))))

/-- R192: `edf`, trial by trial, when its preconditions hold. The candidates start as the input alone. While one has degree above `d` and the budget allows it, a trial draws a polynomial h, takes h^((q^d - 1)/3) + 1 modulo the input, and replaces in place every candidate of degree above `d` whose greatest common divisor with it is nontrivial by that divisor and the co-factor, keeping all others. The result is the candidates when none has degree above `d`, or RetryBudgetExceeded when one has and the budget is used up. -/
def Obligations.EdfTrialByTrial : Prop :=
  ∀ (rand : Nat → Word) (budget n : Nat) (f : Poly) (d : Nat), Canonical f → 1 ≤ deg f → 1 ≤ d → deg f % d = 0 →
    ∃ (k : Nat) (z : Nat → List Poly), k ≤ budget ∧ z 0 = [f] ∧
      (∀ i : Nat, i < k → (∃ u ∈ z i, d < deg u) ∧ ∃ (y : Poly) (split : Poly → List Poly),
        rem (pPow (canon ((List.range (deg f)).map (fun j => rand (n + i * deg f + j)))) ((2 ^ (128 * d) - 1) / 3)) f = .ok y ∧
        z (i + 1) = (z i).flatMap split ∧
        ∀ u ∈ z i, (deg u ≤ d → split u = [u]) ∧
          (d < deg u → ∃ j : Poly, pGcd u (pAdd y polyOne) = .ok j ∧
            (1 ≤ deg j ∧ deg j < deg u → ∃ q : Poly, Canonical q ∧ pMul q j = u ∧ split u = [j, q]) ∧
            (¬ (1 ≤ deg j ∧ deg j < deg u) → split u = [u]))) ∧
      ((∀ u ∈ z k, deg u ≤ d) ∧ edf rand budget n f d = (.ok (z k), n + k * deg f) ∨
        (∃ u ∈ z k, d < deg u) ∧ k = budget ∧ edf rand budget n f d = (.error .retryBudgetExceeded, n + k * deg f))

/-- R192, R197: whatever is drawn, the candidates `edf` returns multiply to its input, each of degree at least 1, and monic when the input is; when every irreducible factor of the input has degree `d`, each is irreducible of degree `d`. So too the list that the command `EDF` writes when it completes, whose integers are the given degree. -/
def Obligations.EdfKeepsTheProduct : Prop :=
  (∀ (rand : Nat → Word) (budget n m : Nat) (f : Poly) (d : Nat) (z : List Poly), Canonical f →
    edf rand budget n f d = (.ok z, m) → z.foldr pMul polyOne = f ∧ (∀ u ∈ z, 1 ≤ deg u) ∧
      (isMonic f = true → ∀ u ∈ z, isMonic u = true) ∧
      ((∀ p : Poly, Canonical p → IrreduciblePoly p → rem f p = .ok polyZero → deg p = d) →
        ∀ u ∈ z, IrreduciblePoly u ∧ deg u = d)) ∧
  (∀ (s t : State) (a : Reg) (n : BitVec 8), Inv s → s.running = true → exec (.edf a n) s = .next t →
    statusState t.status ≠ 3 →
    ∃ z : List Poly, t = ((s.setDrawn t.drawn).setResults (z.map (fun u => (u, n.toNat)))).advance ∧
      z.foldr pMul polyOne = s.getP a ∧ (∀ u ∈ z, 1 ≤ deg u ∧ deg u ≤ n.toNat) ∧
      ((∀ p : Poly, Canonical p → IrreduciblePoly p → rem (s.getP a) p = .ok polyZero → deg p = n.toNat) →
        ∀ u ∈ z, IrreduciblePoly u ∧ deg u = n.toNat))

/-- R193, R198, R205: `FACTOR` completes without a draw for a nonzero polynomial of degree at most 1, and raises DivisionByZero for zero. -/
def Obligations.FactorOfDegreeAtMostOneCompletes : Prop :=
  ∀ (s : State) (a : Reg), Inv s →
    StandsFor (packRegs 0x33 0 a 0 0 0 0) (.factor a) ∧
    (s.getP a = polyZero → exec (.factor a) s = .next (errorEntry .divisionByZero 0 s)) ∧
    (s.getP a ≠ polyZero → deg (s.getP a) = 0 → exec (.factor a) s = .next (s.setResults []).advance) ∧
    (deg (s.getP a) = 1 → ∃ m : Poly, pMonic (s.getP a) = .ok m ∧ exec (.factor a) s = .next (s.setResults [(m, 1)]).advance)

/-- R193, R198, R205. Whatever is drawn, the factors of a result, to their exponents, multiply to the monic form of the input; every factor is monic and irreducible; the roots of the input are exactly the constant coefficients of the linear factors; a polynomial of degree 1 is factored without a draw. The command `FACTOR` runs `factor` with `EDFBUDGET` as the budget and the draws that follow those made: a result becomes the list; an error is taken, the draws consumed: DivisionByZero for the zero polynomial, RetryBudgetExceeded for another. -/
def Obligations.FactorsMultiplyBack : Prop :=
  (∀ (rand : Nat → Word) (budget n m : Nat) (f : Poly) (z : Factors), Canonical f → factor rand budget n f = (.ok z, m) →
    (∃ g : Poly, pMonic f = .ok g ∧ productOf z = g) ∧
    (∀ e ∈ z, isMonic e.1 = true ∧ IrreduciblePoly e.1 ∧ 1 ≤ e.2) ∧
    (∀ x : Word, evalAt x f = 0 ↔ x ∈ roots z) ∧ (∀ x : Word, x ∈ roots z ↔ ∃ e ∈ z, deg e.1 = 1 ∧ x = coeffAt e.1 0) ∧
    (deg f = 1 → m = n)) ∧
  (∀ (s : State) (a : Reg), Inv s →
    let r := factor Config.rand128 s.edfbudget.toNat s.drawn (s.getP a)
    (∃ z : Factors, r.1 = .ok z ∧ exec (.factor a) s = .next ((s.setDrawn r.2).setResults z).advance) ∨
    (∃ k : ErrorKind, r.1 = .error k ∧
      (k = .divisionByZero ∧ s.getP a = polyZero ∨ k = .retryBudgetExceeded ∧ s.getP a ≠ polyZero) ∧
      exec (.factor a) s = .next (errorEntry k 0 (s.setDrawn r.2))))

/-- R193: `factor`, stage by stage, for every nonzero polynomial. The monic form goes through `sff`, each of its entries through `ddf`, and each entry of that, in order, through `edf` if its degree is above 1, each with the whole budget and with the draws that follow the last one's; a polynomial of degree 1 is kept. Each polynomial that comes out carries the exponent that `sff` gave. The only error is that of an `edf` that uses up its budget, which ends the run. -/
def Obligations.FactorStageByStage : Prop :=
  ∀ (rand : Nat → Word) (budget n : Nat) (f : Poly), Canonical f → f ≠ polyZero →
    ∃ (g : Poly) (squares : Factors) (degrees : Poly → Factors),
      pMonic f = .ok g ∧ sff g = .ok squares ∧ (∀ e ∈ squares, ddf e.1 = .ok (degrees e.1)) ∧
      let jobs : List (Poly × Nat × Nat) := squares.flatMap (fun e => (degrees e.1).map (fun p => (p.1, p.2, e.2)))
      ∃ (k : Nat) (next : Nat → Nat) (out : Nat → List Poly), next 0 = n ∧
        (∀ (i : Nat) (p : Poly) (d e : Nat), i < k → jobs[i]? = some (p, d, e) →
          (1 < deg p → edf rand budget (next i) p d = (.ok (out i), next (i + 1))) ∧
          (deg p ≤ 1 → out i = [p] ∧ next (i + 1) = next i)) ∧
        (k = jobs.length ∧
            factor rand budget n f = (.ok (jobs.zipIdx.flatMap (fun x => (out x.2).map (fun u => (u, x.1.2.2)))), next k) ∨
          ∃ (p : Poly) (d e m : Nat), jobs[k]? = some (p, d, e) ∧ 1 < deg p ∧
            edf rand budget (next k) p d = (.error .retryBudgetExceeded, m) ∧
            factor rand budget n f = (.error .retryBudgetExceeded, m))

/-- R199, R200, R201: the three commands that read the list, within its length and beyond it. -/
def Obligations.ListCommandsComplete : Prop :=
  ∀ (s : State) (d : Reg) (n : BitVec 8), Inv s → ListFits s →
    StandsFor (packRegs 0x34 d 0 0 0 0 0) (.lcnt d) ∧ StandsFor (packImm 0x35 d 0 n) (.lgetp d n) ∧
    StandsFor (packImm 0x36 d 0 n) (.lgetn d n) ∧
    exec (.lcnt d) s = .next (s.setF d (BitVec.ofNat 128 s.results.length)).advance ∧
    (∀ h : n.toNat < s.results.length,
      exec (.lgetp d n) s = .next (s.setP d (s.results[n.toNat]'h).1).advance ∧
      exec (.lgetn d n) s = .next (s.setF d ((s.results[n.toNat]'h).2.setWidth 128)).advance) ∧
    (s.results.length ≤ n.toNat →
      exec (.lgetp d n) s = .next (errorEntry .preconditionViolation 0 s) ∧
      exec (.lgetn d n) s = .next (errorEntry .preconditionViolation 0 s))

/-! ## GHASH and GCM -/

/-- R12: a register word is the little-endian packing of its 16 bytes, both ways. -/
def Obligations.RegisterWordPacksItsBytes : Prop :=
  (∀ b : Bytes, b.length = 16 →
    (wordOfBytes b).toNat = ∑ k ∈ Finset.range 16, (b.getD k 0).toNat * 2 ^ (8 * k) ∧
    (∀ k : Nat, k < 16 → (wordOfBytes b).extractLsb' (8 * k) 8 = b.getD k 0) ∧ bytesOfWord (wordOfBytes b) = b) ∧
  (∀ w : Word, wordOfBytes (bytesOfWord w) = w ∧ (bytesOfWord w).length = 16)

/-- R231, R232: the blocks of a byte string, byte by byte, and the length block, byte by byte. -/
def Obligations.BlocksAndLengthBlock : Prop :=
  (∀ s : Bytes, (padBlocks s).length = (s.length + 15) / 16 ∧
    ∀ m j : Nat, m < (s.length + 15) / 16 → j < 16 →
      ((padBlocks s).getD m 0).extractLsb' (8 * j) 8 = if h : 16 * m + j < s.length then s[16 * m + j]'h else 0) ∧
  (∀ ad ct : Bytes, ad.length < 2 ^ 60 → ct.length < 2 ^ 60 → ∀ j : Nat, j ≤ 7 →
    ((lenBlock ad ct).extractLsb' (8 * j) 8).toNat = (8 * ad.length) >>> (8 * (7 - j)) % 256 ∧
    ((lenBlock ad ct).extractLsb' (8 * (8 + j)) 8).toNat = (8 * ct.length) >>> (8 * (7 - j)) % 256)

/-- R260, with R233's closed form: the message polynomial's coefficients, and that its value at the hash key is the hash. -/
def Obligations.MessagePolynomialEvaluatesToTheHash : Prop :=
  ∀ (ad ct : Bytes) (h : Word),
    Canonical (msgPoly ad ct) ∧ coeffAt (msgPoly ad ct) 0 = 0 ∧ coeffAt (msgPoly ad ct) 1 = lenBlock ad ct ∧
    (∀ i : Nat, coeffAt (msgPoly ad ct) (i + 1) = ((padBlocks ad ++ padBlocks ct ++ [lenBlock ad ct]).reverse).getD i 0) ∧
    evalAt h (msgPoly ad ct) = (ghash ad ct h).1

/-- R234: counter mode byte by byte: the data xored with the encryption of the nonce followed by the 32-bit counter, big-endian, from 2 on, modulo 2^32; the result is as long as the data. -/
def Obligations.CounterModeByteByByte : Prop :=
  ∀ (cipher : Word → Word → Word) (key : Word) (nonce data : Bytes), nonce.length = 12 →
    (ctrXcrypt cipher key nonce data).length = data.length ∧
    (∀ k : Nat, k < data.length → (ctrXcrypt cipher key nonce data).getD k 0 =
      data.getD k 0 ^^^ (cipher key (ctrBlock nonce ((2 + k / 16) % 2 ^ 32))).extractLsb' (8 * (k % 16)) 8) ∧
    (∀ c : Nat, c < 2 ^ 32 →
      (∀ j : Nat, j ≤ 11 → (ctrBlock nonce c).extractLsb' (8 * j) 8 = nonce.getD j 0) ∧
      (∀ j : Nat, j ≤ 3 → ((ctrBlock nonce c).extractLsb' (8 * (12 + j)) 8).toNat = c >>> (8 * (3 - j)) % 256))

/-- R240, for every block cipher: decryption undoes encryption with the flag true; a wrong tag of a ciphertext clears the flag; a changed ciphertext byte clears it exactly when the hash key is not zero. -/
def Obligations.GcmRoundTrip : Prop :=
  ∀ (cipher : Word → Word → Word) (key : Word) (nonce pt ad : Bytes),
    let c := gcmEncrypt cipher key nonce pt ad
    gcmDecrypt cipher key nonce c.1 ad c.2 = (pt, true) ∧
    (∀ tag : Word, tag ≠ c.2 → gcmDecrypt cipher key nonce c.1 ad tag = (pt, false)) ∧
    (∀ (j : Nat) (hj : j < c.1.length) (b : Byte), b ≠ c.1[j]'hj →
      (hashKey cipher key ≠ 0 → (gcmDecrypt cipher key nonce (c.1.set j b) ad c.2).2 = false) ∧
      (hashKey cipher key = 0 → (gcmDecrypt cipher key nonce (c.1.set j b) ad c.2).2 = true))

/-- R237, R238, R239: the GHASH and GCM commands complete in every legal state, a tag mismatch included. -/
def Obligations.GcmCommandsComplete : Prop :=
  ∀ (s : State) (d c a b e f : Reg), Inv s →
    let x := gcmEncrypt Config.encryptBlock (s.getF a) ((bytesOfWord (s.getF b)).take 12) (s.getB e) (s.getB f)
    let y := gcmDecrypt Config.encryptBlock (s.getF a) ((bytesOfWord (s.getF b)).take 12) (s.getB e) (s.getB f) (s.getF c)
    (d ≠ c → StandsFor (packRegs 0x40 d a b c e 0) (.ghash d c a b e) ∧
      exec (.ghash d c a b e) s =
        .next ((s.setF d (ghash (s.getB b) (s.getB e) (s.getF a)).1).setF c (lenBlock (s.getB b) (s.getB e))).advance) ∧
    (StandsFor (packRegs 0x41 d a b c e f) (.gcmenc d c a b e f) ∧
      exec (.gcmenc d c a b e f) s = .next ((s.setB d x.1).setF c x.2).advance) ∧
    (StandsFor (packRegs 0x42 d a b c e f) (.gcmdec d c a b e f) ∧
      exec (.gcmdec d c a b e f) s = .next ((s.setB d y.1).setAuth y.2).advance)

/-! ## Key recovery and forgery -/

/-- R261, R263: what a `RECOVER` that completes has written: a key that is a root of the combined polynomial of messages 1 and 2, and a mask that with the key explains all three tags; the list and all else but the two destinations and the draws are kept. -/
def Obligations.RecoverIsSound : Prop :=
  ∀ (s t : State) (d c a b : Reg), d ≠ c → s.running = true → exec (.recover d c a b) s = .next t →
    statusState t.status ≠ 3 →
    ∃ h mask : Word,
      evalAt h (pAdd (pAdd (msgPoly (s.getB b) (s.getB (b + 1))) (msgPoly (s.getB (b + 2)) (s.getB (b + 3))))
        [s.getF a ^^^ s.getF (a + 1)]) = 0 ∧
      mask = s.getF a ^^^ (ghash (s.getB b) (s.getB (b + 1)) h).1 ∧
      s.getF (a + 1) = mask ^^^ (ghash (s.getB (b + 2)) (s.getB (b + 3)) h).1 ∧
      s.getF (a + 2) = mask ^^^ (ghash (s.getB (b + 4)) (s.getB (b + 5)) h).1 ∧
      t = (((s.setDrawn t.drawn).setF d h).setF c mask).advance

/-- R261, R263: `RECOVER` when the combined polynomial has degree at most 1. At degree 1 its one root is the candidate: it is returned with its mask, without a draw, if it explains the third tag, and else NoRootFound is raised; a nonzero constant raises NoRootFound, zero DivisionByZero. -/
def Obligations.RecoverOfDegreeAtMostOneCompletes : Prop :=
  ∀ (s : State) (d c a b : Reg), Inv s → d ≠ c →
    let f := pAdd (pAdd (msgPoly (s.getB b) (s.getB (b + 1))) (msgPoly (s.getB (b + 2)) (s.getB (b + 3))))
      [s.getF a ^^^ s.getF (a + 1)]
    StandsFor (packRegs 0x50 d a b c 0 0) (.recover d c a b) ∧
    (f = polyZero → exec (.recover d c a b) s = .next (errorEntry .divisionByZero 0 s)) ∧
    (f ≠ polyZero → deg f = 0 → exec (.recover d c a b) s = .next (errorEntry .noRootFound 0 s)) ∧
    (deg f = 1 → ∃ h mask : Word, evalAt h f = 0 ∧ (∀ x : Word, evalAt x f = 0 → x = h) ∧
      mask = s.getF a ^^^ (ghash (s.getB b) (s.getB (b + 1)) h).1 ∧
      (s.getF (a + 2) = mask ^^^ (ghash (s.getB (b + 4)) (s.getB (b + 5)) h).1 →
        exec (.recover d c a b) s = .next ((s.setF d h).setF c mask).advance) ∧
      (s.getF (a + 2) ≠ mask ^^^ (ghash (s.getB (b + 4)) (s.getB (b + 5)) h).1 →
        exec (.recover d c a b) s = .next (errorEntry .noRootFound 0 s)))

/-- R261, R263, R265: `RECOVER` when the combined polynomial f is not zero. It factors the monic form of f with `EDFBUDGET` as the budget and the draws that follow those made. If an `edf` uses up its budget, RetryBudgetExceeded is taken. Else the first root in the list's order that explains the third tag is the key, returned with its mask; there is one when some root of f explains the third tag, and NoRootFound is taken when none does; the draws are consumed in each case. For three messages encrypted under one key and nonce, the true hash key is a root, its mask is the encrypted first counter block, and it explains the third tag. -/
def Obligations.RecoverTriesEveryRoot : Prop :=
  (∀ (s : State) (d c a b : Reg), Inv s → d ≠ c →
    let f := pAdd (pAdd (msgPoly (s.getB b) (s.getB (b + 1))) (msgPoly (s.getB (b + 2)) (s.getB (b + 3))))
      [s.getF a ^^^ s.getF (a + 1)]
    let mask : Word → Word := fun x => s.getF a ^^^ (ghash (s.getB b) (s.getB (b + 1)) x).1
    let explains : Word → Bool := fun x => s.getF (a + 2) == mask x ^^^ (ghash (s.getB (b + 4)) (s.getB (b + 5)) x).1
    f ≠ polyZero → ∃ g : Poly, pMonic f = .ok g ∧
      let r := factor Config.rand128 s.edfbudget.toNat s.drawn g
      (r.1 = .error .retryBudgetExceeded ∧
          exec (.recover d c a b) s = .next (errorEntry .retryBudgetExceeded 0 (s.setDrawn r.2))) ∨
        ∃ out : Factors, r.1 = .ok out ∧
          (∀ h : Word, (roots out).find? explains = some h →
            exec (.recover d c a b) s = .next (((s.setDrawn r.2).setF d h).setF c (mask h)).advance) ∧
          ((∃ x : Word, evalAt x f = 0 ∧ explains x = true) → ∃ h : Word, (roots out).find? explains = some h) ∧
          ((∀ x : Word, evalAt x f = 0 → explains x = false) →
            exec (.recover d c a b) s = .next (errorEntry .noRootFound 0 (s.setDrawn r.2)))) ∧
  (∀ (cipher : Word → Word → Word) (key : Word) (nonce : Bytes) (p1 a1 p2 a2 p3 a3 : Bytes),
    let c1 := gcmEncrypt cipher key nonce p1 a1
    let c2 := gcmEncrypt cipher key nonce p2 a2
    let c3 := gcmEncrypt cipher key nonce p3 a3
    let h := cipher key 0
    evalAt h (pAdd (pAdd (msgPoly a1 c1.1) (msgPoly a2 c2.1)) [c1.2 ^^^ c2.2]) = 0 ∧
    c1.2 ^^^ (ghash a1 c1.1 h).1 = cipher key (ctrBlock nonce 1) ∧
    c3.2 = cipher key (ctrBlock nonce 1) ^^^ (ghash a3 c3.1 h).1)

/-- R262, R264, R265: `FORGE` completes in every state; with the true hash key and mask it computes the tag that an encryption gives. -/
def Obligations.ForgeCompletesWithTheTrueTag : Prop :=
  (∀ (s : State) (d a c b e : Reg), StandsFor (packRegs 0x51 d a b c e 0) (.forge d a c b e) ∧
    exec (.forge d a c b e) s =
      .next (s.setF d ((ghash (s.getB b) (s.getB e) (s.getF a)).1 ^^^ s.getF c)).advance) ∧
  (∀ (cipher : Word → Word → Word) (key : Word) (nonce pt ad : Bytes),
    (gcmEncrypt cipher key nonce pt ad).2 =
      forge ad (gcmEncrypt cipher key nonce pt ad).1 (cipher key 0) (cipher key (ctrBlock nonce 1)))
end

