-- ==== Sys2Proof/Laws/State.lean ====
section
/-! SUPPORT. One lemma per field per update of the state, each true by `rfl`, and the register-file laws: what each register reads after each update. -/

namespace Sys2Proof.Machine

section setF
variable (s : State) (r : Reg) (v : Word)
@[simp] theorem setF_fregs : (s.setF r v).fregs = s.fregs.set r.toNat v r.isLt := rfl
@[simp] theorem setF_pregs : (s.setF r v).pregs = s.pregs := rfl
@[simp] theorem setF_bregs : (s.setF r v).bregs = s.bregs := rfl
@[simp] theorem setF_results : (s.setF r v).results = s.results := rfl
@[simp] theorem setF_pc : (s.setF r v).pc = s.pc := rfl
@[simp] theorem setF_status : (s.setF r v).status = s.status := rfl
@[simp] theorem setF_ecode : (s.setF r v).ecode = s.ecode := rfl
@[simp] theorem setF_epc : (s.setF r v).epc = s.epc := rfl
@[simp] theorem setF_einfo : (s.setF r v).einfo = s.einfo := rfl
@[simp] theorem setF_edfbudget : (s.setF r v).edfbudget = s.edfbudget := rfl
@[simp] theorem setF_cm : (s.setF r v).cm = s.cm := rfl
@[simp] theorem setF_params : (s.setF r v).params = s.params := rfl
@[simp] theorem setF_drawn : (s.setF r v).drawn = s.drawn := rfl
@[simp] theorem setF_resets : (s.setF r v).resets = s.resets := rfl
@[simp] theorem setF_getP (q : Reg) : (s.setF r v).getP q = s.getP q := rfl
@[simp] theorem setF_getB (q : Reg) : (s.setF r v).getB q = s.getB q := rfl
@[simp] theorem setF_getCsr (n : Nat) : (s.setF r v).getCsr n = s.getCsr n := rfl
end setF

section setP
variable (s : State) (r : Reg) (p : Poly)
@[simp] theorem setP_fregs : (s.setP r p).fregs = s.fregs := rfl
@[simp] theorem setP_pregs : (s.setP r p).pregs = s.pregs.set r.toNat p r.isLt := rfl
@[simp] theorem setP_bregs : (s.setP r p).bregs = s.bregs := rfl
@[simp] theorem setP_results : (s.setP r p).results = s.results := rfl
@[simp] theorem setP_pc : (s.setP r p).pc = s.pc := rfl
@[simp] theorem setP_status : (s.setP r p).status = s.status := rfl
@[simp] theorem setP_ecode : (s.setP r p).ecode = s.ecode := rfl
@[simp] theorem setP_epc : (s.setP r p).epc = s.epc := rfl
@[simp] theorem setP_einfo : (s.setP r p).einfo = s.einfo := rfl
@[simp] theorem setP_edfbudget : (s.setP r p).edfbudget = s.edfbudget := rfl
@[simp] theorem setP_cm : (s.setP r p).cm = s.cm := rfl
@[simp] theorem setP_params : (s.setP r p).params = s.params := rfl
@[simp] theorem setP_drawn : (s.setP r p).drawn = s.drawn := rfl
@[simp] theorem setP_resets : (s.setP r p).resets = s.resets := rfl
@[simp] theorem setP_getF (q : Reg) : (s.setP r p).getF q = s.getF q := rfl
@[simp] theorem setP_getB (q : Reg) : (s.setP r p).getB q = s.getB q := rfl
@[simp] theorem setP_getCsr (n : Nat) : (s.setP r p).getCsr n = s.getCsr n := rfl
end setP

section setB
variable (s : State) (r : Reg) (b : Bytes)
@[simp] theorem setB_fregs : (s.setB r b).fregs = s.fregs := rfl
@[simp] theorem setB_pregs : (s.setB r b).pregs = s.pregs := rfl
@[simp] theorem setB_bregs : (s.setB r b).bregs = s.bregs.set r.toNat b r.isLt := rfl
@[simp] theorem setB_results : (s.setB r b).results = s.results := rfl
@[simp] theorem setB_pc : (s.setB r b).pc = s.pc := rfl
@[simp] theorem setB_status : (s.setB r b).status = s.status := rfl
@[simp] theorem setB_ecode : (s.setB r b).ecode = s.ecode := rfl
@[simp] theorem setB_epc : (s.setB r b).epc = s.epc := rfl
@[simp] theorem setB_einfo : (s.setB r b).einfo = s.einfo := rfl
@[simp] theorem setB_edfbudget : (s.setB r b).edfbudget = s.edfbudget := rfl
@[simp] theorem setB_cm : (s.setB r b).cm = s.cm := rfl
@[simp] theorem setB_params : (s.setB r b).params = s.params := rfl
@[simp] theorem setB_drawn : (s.setB r b).drawn = s.drawn := rfl
@[simp] theorem setB_resets : (s.setB r b).resets = s.resets := rfl
@[simp] theorem setB_getF (q : Reg) : (s.setB r b).getF q = s.getF q := rfl
@[simp] theorem setB_getP (q : Reg) : (s.setB r b).getP q = s.getP q := rfl
@[simp] theorem setB_getCsr (n : Nat) : (s.setB r b).getCsr n = s.getCsr n := rfl
end setB

section setResults
variable (s : State) (z : List (Poly × Nat))
@[simp] theorem setResults_fregs : (s.setResults z).fregs = s.fregs := rfl
@[simp] theorem setResults_pregs : (s.setResults z).pregs = s.pregs := rfl
@[simp] theorem setResults_bregs : (s.setResults z).bregs = s.bregs := rfl
@[simp] theorem setResults_results : (s.setResults z).results = z.map (fun e => (e.1, BitVec.ofNat 32 e.2)) := rfl
@[simp] theorem setResults_pc : (s.setResults z).pc = s.pc := rfl
@[simp] theorem setResults_status : (s.setResults z).status = s.status := rfl
@[simp] theorem setResults_ecode : (s.setResults z).ecode = s.ecode := rfl
@[simp] theorem setResults_epc : (s.setResults z).epc = s.epc := rfl
@[simp] theorem setResults_einfo : (s.setResults z).einfo = s.einfo := rfl
@[simp] theorem setResults_edfbudget : (s.setResults z).edfbudget = s.edfbudget := rfl
@[simp] theorem setResults_cm : (s.setResults z).cm = s.cm := rfl
@[simp] theorem setResults_params : (s.setResults z).params = s.params := rfl
@[simp] theorem setResults_drawn : (s.setResults z).drawn = s.drawn := rfl
@[simp] theorem setResults_resets : (s.setResults z).resets = s.resets := rfl
@[simp] theorem setResults_getF (q : Reg) : (s.setResults z).getF q = s.getF q := rfl
@[simp] theorem setResults_getP (q : Reg) : (s.setResults z).getP q = s.getP q := rfl
@[simp] theorem setResults_getB (q : Reg) : (s.setResults z).getB q = s.getB q := rfl
@[simp] theorem setResults_getCsr (n : Nat) : (s.setResults z).getCsr n = s.getCsr n := rfl
end setResults

section setAuth
variable (s : State) (b : Bool)
@[simp] theorem setAuth_fregs : (s.setAuth b).fregs = s.fregs := rfl
@[simp] theorem setAuth_pregs : (s.setAuth b).pregs = s.pregs := rfl
@[simp] theorem setAuth_bregs : (s.setAuth b).bregs = s.bregs := rfl
@[simp] theorem setAuth_results : (s.setAuth b).results = s.results := rfl
@[simp] theorem setAuth_pc : (s.setAuth b).pc = s.pc := rfl
@[simp] theorem setAuth_status : (s.setAuth b).status = withAuth s.status b := rfl
@[simp] theorem setAuth_ecode : (s.setAuth b).ecode = s.ecode := rfl
@[simp] theorem setAuth_epc : (s.setAuth b).epc = s.epc := rfl
@[simp] theorem setAuth_einfo : (s.setAuth b).einfo = s.einfo := rfl
@[simp] theorem setAuth_edfbudget : (s.setAuth b).edfbudget = s.edfbudget := rfl
@[simp] theorem setAuth_cm : (s.setAuth b).cm = s.cm := rfl
@[simp] theorem setAuth_params : (s.setAuth b).params = s.params := rfl
@[simp] theorem setAuth_drawn : (s.setAuth b).drawn = s.drawn := rfl
@[simp] theorem setAuth_resets : (s.setAuth b).resets = s.resets := rfl
@[simp] theorem setAuth_getF (q : Reg) : (s.setAuth b).getF q = s.getF q := rfl
@[simp] theorem setAuth_getP (q : Reg) : (s.setAuth b).getP q = s.getP q := rfl
@[simp] theorem setAuth_getB (q : Reg) : (s.setAuth b).getB q = s.getB q := rfl
end setAuth

section setState
variable (s : State) (v : BitVec 2)
@[simp] theorem setState_fregs : (s.setState v).fregs = s.fregs := rfl
@[simp] theorem setState_pregs : (s.setState v).pregs = s.pregs := rfl
@[simp] theorem setState_bregs : (s.setState v).bregs = s.bregs := rfl
@[simp] theorem setState_results : (s.setState v).results = s.results := rfl
@[simp] theorem setState_pc : (s.setState v).pc = s.pc := rfl
@[simp] theorem setState_status : (s.setState v).status = withState s.status v := rfl
@[simp] theorem setState_ecode : (s.setState v).ecode = s.ecode := rfl
@[simp] theorem setState_epc : (s.setState v).epc = s.epc := rfl
@[simp] theorem setState_einfo : (s.setState v).einfo = s.einfo := rfl
@[simp] theorem setState_edfbudget : (s.setState v).edfbudget = s.edfbudget := rfl
@[simp] theorem setState_cm : (s.setState v).cm = s.cm := rfl
@[simp] theorem setState_params : (s.setState v).params = s.params := rfl
@[simp] theorem setState_drawn : (s.setState v).drawn = s.drawn := rfl
@[simp] theorem setState_resets : (s.setState v).resets = s.resets := rfl
@[simp] theorem setState_getF (q : Reg) : (s.setState v).getF q = s.getF q := rfl
@[simp] theorem setState_getP (q : Reg) : (s.setState v).getP q = s.getP q := rfl
@[simp] theorem setState_getB (q : Reg) : (s.setState v).getB q = s.getB q := rfl
end setState

section setBudget
variable (s : State) (v : Word32)
@[simp] theorem setBudget_fregs : (s.setBudget v).fregs = s.fregs := rfl
@[simp] theorem setBudget_pregs : (s.setBudget v).pregs = s.pregs := rfl
@[simp] theorem setBudget_bregs : (s.setBudget v).bregs = s.bregs := rfl
@[simp] theorem setBudget_results : (s.setBudget v).results = s.results := rfl
@[simp] theorem setBudget_pc : (s.setBudget v).pc = s.pc := rfl
@[simp] theorem setBudget_status : (s.setBudget v).status = s.status := rfl
@[simp] theorem setBudget_ecode : (s.setBudget v).ecode = s.ecode := rfl
@[simp] theorem setBudget_epc : (s.setBudget v).epc = s.epc := rfl
@[simp] theorem setBudget_einfo : (s.setBudget v).einfo = s.einfo := rfl
@[simp] theorem setBudget_edfbudget : (s.setBudget v).edfbudget = v := rfl
@[simp] theorem setBudget_cm : (s.setBudget v).cm = s.cm := rfl
@[simp] theorem setBudget_params : (s.setBudget v).params = s.params := rfl
@[simp] theorem setBudget_drawn : (s.setBudget v).drawn = s.drawn := rfl
@[simp] theorem setBudget_resets : (s.setBudget v).resets = s.resets := rfl
@[simp] theorem setBudget_getF (q : Reg) : (s.setBudget v).getF q = s.getF q := rfl
@[simp] theorem setBudget_getP (q : Reg) : (s.setBudget v).getP q = s.getP q := rfl
@[simp] theorem setBudget_getB (q : Reg) : (s.setBudget v).getB q = s.getB q := rfl
end setBudget

section setDrawn
variable (s : State) (n : Nat)
@[simp] theorem setDrawn_fregs : (s.setDrawn n).fregs = s.fregs := rfl
@[simp] theorem setDrawn_pregs : (s.setDrawn n).pregs = s.pregs := rfl
@[simp] theorem setDrawn_bregs : (s.setDrawn n).bregs = s.bregs := rfl
@[simp] theorem setDrawn_results : (s.setDrawn n).results = s.results := rfl
@[simp] theorem setDrawn_pc : (s.setDrawn n).pc = s.pc := rfl
@[simp] theorem setDrawn_status : (s.setDrawn n).status = s.status := rfl
@[simp] theorem setDrawn_ecode : (s.setDrawn n).ecode = s.ecode := rfl
@[simp] theorem setDrawn_epc : (s.setDrawn n).epc = s.epc := rfl
@[simp] theorem setDrawn_einfo : (s.setDrawn n).einfo = s.einfo := rfl
@[simp] theorem setDrawn_edfbudget : (s.setDrawn n).edfbudget = s.edfbudget := rfl
@[simp] theorem setDrawn_cm : (s.setDrawn n).cm = s.cm := rfl
@[simp] theorem setDrawn_params : (s.setDrawn n).params = s.params := rfl
@[simp] theorem setDrawn_drawn : (s.setDrawn n).drawn = n := rfl
@[simp] theorem setDrawn_resets : (s.setDrawn n).resets = s.resets := rfl
@[simp] theorem setDrawn_getF (q : Reg) : (s.setDrawn n).getF q = s.getF q := rfl
@[simp] theorem setDrawn_getP (q : Reg) : (s.setDrawn n).getP q = s.getP q := rfl
@[simp] theorem setDrawn_getB (q : Reg) : (s.setDrawn n).getB q = s.getB q := rfl
@[simp] theorem setDrawn_getCsr (n : Nat) : (s.setDrawn n).getCsr n = s.getCsr n := rfl
end setDrawn

section advance
variable (s : State)
@[simp] theorem advance_fregs : (s.advance).fregs = s.fregs := rfl
@[simp] theorem advance_pregs : (s.advance).pregs = s.pregs := rfl
@[simp] theorem advance_bregs : (s.advance).bregs = s.bregs := rfl
@[simp] theorem advance_results : (s.advance).results = s.results := rfl
@[simp] theorem advance_pc : (s.advance).pc = s.pc + 1 := rfl
@[simp] theorem advance_status : (s.advance).status = s.status := rfl
@[simp] theorem advance_ecode : (s.advance).ecode = s.ecode := rfl
@[simp] theorem advance_epc : (s.advance).epc = s.epc := rfl
@[simp] theorem advance_einfo : (s.advance).einfo = s.einfo := rfl
@[simp] theorem advance_edfbudget : (s.advance).edfbudget = s.edfbudget := rfl
@[simp] theorem advance_cm : (s.advance).cm = s.cm := rfl
@[simp] theorem advance_params : (s.advance).params = s.params := rfl
@[simp] theorem advance_drawn : (s.advance).drawn = s.drawn := rfl
@[simp] theorem advance_resets : (s.advance).resets = s.resets := rfl
@[simp] theorem advance_getF (q : Reg) : (s.advance).getF q = s.getF q := rfl
@[simp] theorem advance_getP (q : Reg) : (s.advance).getP q = s.getP q := rfl
@[simp] theorem advance_getB (q : Reg) : (s.advance).getB q = s.getB q := rfl
end advance

section cmWrite
variable (s : State) (i : Nat) (w : Word32)
@[simp] theorem cmWrite_fregs : (s.cmWrite i w).fregs = s.fregs := rfl
@[simp] theorem cmWrite_pregs : (s.cmWrite i w).pregs = s.pregs := rfl
@[simp] theorem cmWrite_bregs : (s.cmWrite i w).bregs = s.bregs := rfl
@[simp] theorem cmWrite_results : (s.cmWrite i w).results = s.results := rfl
@[simp] theorem cmWrite_pc : (s.cmWrite i w).pc = s.pc := rfl
@[simp] theorem cmWrite_status : (s.cmWrite i w).status = s.status := rfl
@[simp] theorem cmWrite_ecode : (s.cmWrite i w).ecode = s.ecode := rfl
@[simp] theorem cmWrite_epc : (s.cmWrite i w).epc = s.epc := rfl
@[simp] theorem cmWrite_einfo : (s.cmWrite i w).einfo = s.einfo := rfl
@[simp] theorem cmWrite_edfbudget : (s.cmWrite i w).edfbudget = s.edfbudget := rfl
@[simp] theorem cmWrite_cm : (s.cmWrite i w).cm = s.cm.write i w := rfl
@[simp] theorem cmWrite_params : (s.cmWrite i w).params = s.params := rfl
@[simp] theorem cmWrite_drawn : (s.cmWrite i w).drawn = s.drawn := rfl
@[simp] theorem cmWrite_resets : (s.cmWrite i w).resets = s.resets := rfl
@[simp] theorem cmWrite_getF (q : Reg) : (s.cmWrite i w).getF q = s.getF q := rfl
@[simp] theorem cmWrite_getP (q : Reg) : (s.cmWrite i w).getP q = s.getP q := rfl
@[simp] theorem cmWrite_getB (q : Reg) : (s.cmWrite i w).getB q = s.getB q := rfl
@[simp] theorem cmWrite_getCsr (n : Nat) : (s.cmWrite i w).getCsr n = s.getCsr n := rfl
end cmWrite

section errorEntry
variable (k : ErrorKind) (w : Word32) (s : State)
@[simp] theorem errorEntry_fregs : (errorEntry k w s).fregs = s.fregs := rfl
@[simp] theorem errorEntry_pregs : (errorEntry k w s).pregs = s.pregs := rfl
@[simp] theorem errorEntry_bregs : (errorEntry k w s).bregs = s.bregs := rfl
@[simp] theorem errorEntry_results : (errorEntry k w s).results = s.results := rfl
@[simp] theorem errorEntry_pc : (errorEntry k w s).pc = s.pc := rfl
@[simp] theorem errorEntry_status : (errorEntry k w s).status = withState s.status stError := rfl
@[simp] theorem errorEntry_ecode : (errorEntry k w s).ecode = k.code := rfl
@[simp] theorem errorEntry_epc : (errorEntry k w s).epc = s.pc := rfl
@[simp] theorem errorEntry_einfo : (errorEntry k w s).einfo = w := rfl
@[simp] theorem errorEntry_edfbudget : (errorEntry k w s).edfbudget = s.edfbudget := rfl
@[simp] theorem errorEntry_cm : (errorEntry k w s).cm = s.cm := rfl
@[simp] theorem errorEntry_params : (errorEntry k w s).params = s.params := rfl
@[simp] theorem errorEntry_drawn : (errorEntry k w s).drawn = s.drawn := rfl
@[simp] theorem errorEntry_resets : (errorEntry k w s).resets = s.resets := rfl
@[simp] theorem errorEntry_getF (q : Reg) : (errorEntry k w s).getF q = s.getF q := rfl
@[simp] theorem errorEntry_getP (q : Reg) : (errorEntry k w s).getP q = s.getP q := rfl
@[simp] theorem errorEntry_getB (q : Reg) : (errorEntry k w s).getB q = s.getB q := rfl
end errorEntry

section start
variable (s : State)
@[simp] theorem start_fregs : (Sys2Proof.Machine.start s).fregs = s.fregs := rfl
@[simp] theorem start_pregs : (Sys2Proof.Machine.start s).pregs = s.pregs := rfl
@[simp] theorem start_bregs : (Sys2Proof.Machine.start s).bregs = s.bregs := rfl
@[simp] theorem start_results : (Sys2Proof.Machine.start s).results = s.results := rfl
@[simp] theorem start_pc : (Sys2Proof.Machine.start s).pc = s.pc := rfl
@[simp] theorem start_status : (Sys2Proof.Machine.start s).status = withState s.status stRunning := rfl
@[simp] theorem start_ecode : (Sys2Proof.Machine.start s).ecode = 0 := rfl
@[simp] theorem start_epc : (Sys2Proof.Machine.start s).epc = 0 := rfl
@[simp] theorem start_einfo : (Sys2Proof.Machine.start s).einfo = 0 := rfl
@[simp] theorem start_edfbudget : (Sys2Proof.Machine.start s).edfbudget = s.edfbudget := rfl
@[simp] theorem start_cm : (Sys2Proof.Machine.start s).cm = s.cm := rfl
@[simp] theorem start_params : (Sys2Proof.Machine.start s).params = s.params := rfl
@[simp] theorem start_drawn : (Sys2Proof.Machine.start s).drawn = s.drawn := rfl
@[simp] theorem start_resets : (Sys2Proof.Machine.start s).resets = s.resets := rfl
@[simp] theorem start_getF (q : Reg) : (Sys2Proof.Machine.start s).getF q = s.getF q := rfl
@[simp] theorem start_getP (q : Reg) : (Sys2Proof.Machine.start s).getP q = s.getP q := rfl
@[simp] theorem start_getB (q : Reg) : (Sys2Proof.Machine.start s).getB q = s.getB q := rfl
end start

/-- A register file read after a write: the written register holds the value, every other its own. -/
@[simp] theorem setF_getF (s : State) (r q : Reg) (v : Word) : (s.setF r v).getF q = if q = r then v else s.getF q := by
  by_cases h : q = r
  · subst h; simp [State.getF]
  · have h' : r.toNat ≠ q.toNat := fun e => h (BitVec.eq_of_toNat_eq e.symm)
    simp [State.getF, h, Vector.getElem_set_ne _ _ h']

/-- A register file read after a write: the written register holds the value, every other its own. -/
@[simp] theorem setP_getP (s : State) (r q : Reg) (v : Poly) : (s.setP r v).getP q = if q = r then v else s.getP q := by
  by_cases h : q = r
  · subst h; simp [State.getP]
  · have h' : r.toNat ≠ q.toNat := fun e => h (BitVec.eq_of_toNat_eq e.symm)
    simp [State.getP, h, Vector.getElem_set_ne _ _ h']

/-- A register file read after a write: the written register holds the value, every other its own. -/
@[simp] theorem setB_getB (s : State) (r q : Reg) (v : Bytes) : (s.setB r v).getB q = if q = r then v else s.getB q := by
  by_cases h : q = r
  · subst h; simp [State.getB]
  · have h' : r.toNat ≠ q.toNat := fun e => h (BitVec.eq_of_toNat_eq e.symm)
    simp [State.getB, h, Vector.getElem_set_ne _ _ h']

end Sys2Proof.Machine
end

