-- ==== Sys2Proof/Laws/Ops.lean ====
section
/-! SUPPORT. One lemma for each shared operation, saying once everything it can do: canonical sequences, the checked writes, the end of a command, error entry and start, the `STATUS` fields, the command memory and its fetch, the host port. -/

namespace Sys2Proof.Machine

/-! ## Canonical sequences (R142) -/

theorem trimZeros_length_le (s : List Word) : (trimZeros s).length ≤ s.length := by
  induction s with
  | nil => simp [trimZeros]
  | cons c cs ih =>
    unfold trimZeros
    split
    · split_ifs <;> simp
    · rename_i t ts h; rw [h] at ih; simp at ih ⊢; omega

theorem trimZeros_getLast_ne (s : List Word) (h : trimZeros s ≠ []) : (trimZeros s).getLast h ≠ 0 := by
  suffices key : ∀ x, (trimZeros s).getLast? = some x → x ≠ 0 from key _ (List.getLast?_eq_some_getLast h)
  clear h
  induction s with
  | nil => simp [trimZeros]
  | cons c cs ih =>
    intro x hx
    unfold trimZeros at hx
    split at hx
    · split_ifs at hx with hc
      · simp at hx
      · simp at hx; rwa [← hx]
    · rename_i t ts ht
      rw [List.getLast?_cons_cons, ← ht] at hx
      exact ih x hx

theorem trimZeros_eq_self (s : List Word) (h : ∀ hs : s ≠ [], s.getLast hs ≠ 0) : trimZeros s = s := by
  induction s with
  | nil => rfl
  | cons c cs ih =>
    cases cs with
    | nil => have := h (by simp); simp at this; simp [trimZeros, this]
    | cons d ds =>
      have ih' := ih (fun hs => by have := h (by simp); simpa [List.getLast_cons] using this)
      unfold trimZeros; rw [ih']

theorem trimZeros_getD (s : List Word) (i : Nat) : (trimZeros s).getD i 0 = s.getD i 0 := by
  induction s generalizing i with
  | nil => rfl
  | cons c cs ih =>
    unfold trimZeros
    split
    · rename_i h
      have h0 : ∀ j, cs.getD j 0 = 0 := fun j => by rw [← ih j, h]; rfl
      split_ifs with hc
      · cases i with
        | zero => simp [hc]
        | succ j => simpa using (h0 j).symm
      · cases i with
        | zero => rfl
        | succ j => simpa using (h0 j).symm
    · rename_i t ts h
      cases i with
      | zero => rfl
      | succ j => have := ih j; rw [h] at this; simpa using this

theorem canon_ne_nil (s : List Word) : canon s ≠ [] := by unfold canon; split <;> simp

theorem canon_length_pos (s : List Word) : 1 ≤ (canon s).length :=
  List.length_pos_iff.mpr (canon_ne_nil s)

theorem canon_length_le (s : List Word) : (canon s).length ≤ max 1 s.length := by
  have := trimZeros_length_le s
  unfold canon
  split
  · simp
  · rename_i t ts h; rw [h] at this; exact le_trans this (le_max_right _ _)

/-- The coefficients of a sequence are those of its canonical form. -/
@[simp] theorem canon_getD (s : List Word) (i : Nat) : (canon s).getD i 0 = s.getD i 0 := by
  have := trimZeros_getD s i
  unfold canon
  split
  · rename_i h; rw [h] at this; rw [← this]; cases i <;> simp
  · rename_i t ts h; rwa [h] at this

/-- A sequence is canonical exactly when R21 says so: one coefficient or more, the last nonzero unless it is the only one. -/
theorem canonical_iff (p : Poly) : Canonical p ↔ ∃ hp : p ≠ [], p.length = 1 ∨ p.getLast hp ≠ 0 := by
  constructor
  · intro h
    have hp : p ≠ [] := fun e => canon_ne_nil p (by rw [h]; exact e)
    refine ⟨hp, ?_⟩
    by_contra hc
    push Not at hc
    have h1 := h
    unfold Canonical canon at h1
    split at h1
    · exact hc.1 (by rw [← h1]; rfl)
    · rename_i t ts ht
      have hne : trimZeros p ≠ [] := by simp [ht]
      apply trimZeros_getLast_ne p hne
      have he : trimZeros p = p := by rw [ht]; exact h1
      have : (trimZeros p).getLast hne = p.getLast hp := by congr 1
      rw [this]; exact hc.2
  · rintro ⟨hp, h⟩
    by_cases h0 : p.getLast hp = 0
    · have hl : p.length = 1 := by tauto
      obtain ⟨c, rfl⟩ := List.length_eq_one_iff.mp hl
      simp at h0; subst h0; rfl
    · have ht := trimZeros_eq_self p (fun _ => h0)
      unfold Canonical canon
      rw [ht]
      cases p with
      | nil => exact absurd rfl hp
      | cons c cs => rfl

/-- `canon` gives a canonical sequence. -/
theorem canon_canonical (s : List Word) : Canonical (canon s) := by
  rcases ht : trimZeros s with _ | ⟨t, ts⟩
  · have h0 : canon s = [0] := by simp [canon, ht]
    rw [h0]; decide
  · have h0 : canon s = trimZeros s := by simp [canon, ht]
    rw [canonical_iff, h0]
    exact ⟨by simp [ht], .inr (trimZeros_getLast_ne s (by simp [ht]))⟩

@[simp] theorem canon_canon (s : List Word) : canon (canon s) = canon s := canon_canonical s

/-! ## Checked writes (R141, R230) -/

/-- All a polynomial write can do. -/
theorem writeP_eq_ok {s t : State} {r : Reg} {p : List Word} :
    writeP s r p = .ok t ↔ (canon p).length ≤ s.params.maxCoef ∧ t = s.setP r (canon p) := by
  unfold writeP; split_ifs with h
  · simp; omega
  · simp; constructor
    · rintro rfl; exact ⟨by omega, rfl⟩
    · rintro ⟨-, rfl⟩; rfl

theorem writeP_eq_error {s : State} {r : Reg} {p : List Word} {k : ErrorKind} :
    writeP s r p = .error k ↔ s.params.maxCoef < (canon p).length ∧ k = .capacityExceeded := by
  unfold writeP; split_ifs with h <;> simp [h, eq_comm]

/-- All a byte-buffer write can do. -/
theorem writeB_eq_ok {s t : State} {r : Reg} {b : Bytes} :
    writeB s r b = .ok t ↔ b.length ≤ s.params.maxBytes ∧ t = s.setB r b := by
  unfold writeB; split_ifs with h
  · simp; omega
  · simp; constructor
    · rintro rfl; exact ⟨by omega, rfl⟩
    · rintro ⟨-, rfl⟩; rfl

theorem writeB_eq_error {s : State} {r : Reg} {b : Bytes} {k : ErrorKind} :
    writeB s r b = .error k ↔ s.params.maxBytes < b.length ∧ k = .capacityExceeded := by
  unfold writeB; split_ifs with h <;> simp [h, eq_comm]

/-! ## The end of a command (R71, R305) -/

@[simp] theorem finish_ok (s t : State) : finish s (.ok t) = .next t.advance := rfl
@[simp] theorem finish_error (s : State) (k : ErrorKind) : finish s (.error k) = .next (errorEntry k 0 s) := rfl

/-- All the end of a command can do: the written state advanced, or the error entry at the state the command began in. -/
theorem finish_eq_next {s u : State} {r : Except ErrorKind State} (h : finish s r = .next u) :
    (∃ t, r = .ok t ∧ u = t.advance) ∨ (∃ k, r = .error k ∧ u = errorEntry k 0 s) := by
  cases r with
  | ok t => simp at h; exact .inl ⟨t, rfl, h.symm⟩
  | error k => simp at h; exact .inr ⟨k, rfl, h.symm⟩

/-- A command always ends in a next state. -/
theorem finish_next (s : State) (r : Except ErrorKind State) : ∃ u, finish s r = .next u := by
  cases r <;> exact ⟨_, rfl⟩

/-- All the write of a field result can do. -/
theorem putF_eq_next {s u : State} {rd : Reg} {r : Except ErrorKind Word} (h : putF s rd r = .next u) :
    (∃ v, r = .ok v ∧ u = (s.setF rd v).advance) ∨ (∃ k, r = .error k ∧ u = errorEntry k 0 s) := by
  cases r with
  | ok v => simp [putF, Except.map] at h; exact .inl ⟨v, rfl, h.symm⟩
  | error k => simp [putF, Except.map] at h; exact .inr ⟨k, rfl, h.symm⟩

/-- All the write of a polynomial result can do. -/
theorem putP_eq_next {s u : State} {rd : Reg} {r : Except ErrorKind Poly} (h : putP s rd r = .next u) :
    (∃ p, r = .ok p ∧ (canon p).length ≤ s.params.maxCoef ∧ u = (s.setP rd (canon p)).advance) ∨
    (∃ p, r = .ok p ∧ s.params.maxCoef < (canon p).length ∧ u = errorEntry .capacityExceeded 0 s) ∨
    (∃ k, r = .error k ∧ u = errorEntry k 0 s) := by
  cases r with
  | error k => simp [putP, Except.bind] at h; exact .inr (.inr ⟨k, rfl, h.symm⟩)
  | ok p =>
    simp only [putP, Except.bind] at h
    by_cases hc : s.params.maxCoef < (canon p).length
    · rw [writeP_eq_error.mpr ⟨hc, rfl⟩] at h; simp at h
      exact .inr (.inl ⟨p, rfl, hc, h.symm⟩)
    · rw [writeP_eq_ok.mpr ⟨by omega, rfl⟩] at h; simp at h
      exact .inl ⟨p, rfl, by omega, h.symm⟩

/-- All the replacement of the result list can do. -/
theorem putList_eq_next {s u : State} {r : Except ErrorKind Factors} (h : putList s r = .next u) :
    (∃ z, r = .ok z ∧ u = (s.setResults z).advance) ∨ (∃ k, r = .error k ∧ u = errorEntry k 0 s) := by
  cases r with
  | ok v => simp [putList, Except.map] at h; exact .inl ⟨v, rfl, h.symm⟩
  | error k => simp [putList, Except.map] at h; exact .inr ⟨k, rfl, h.symm⟩

/-! ## The fields of `STATUS` (R27) -/

@[simp] theorem statusState_withState (w : Word32) (v : BitVec 2) : statusState (withState w v) = v := by
  apply BitVec.eq_of_getLsbD_eq; intro i hi
  interval_cases i <;> simp [statusState, withState]

@[simp] theorem statusAuth_withState (w : Word32) (v : BitVec 2) : statusAuth (withState w v) = statusAuth w := by
  simp [statusAuth, withState]

@[simp] theorem statusReserved_withState (w : Word32) (v : BitVec 2) :
    statusReserved (withState w v) = statusReserved w := by
  apply BitVec.eq_of_getLsbD_eq; intro i hi
  interval_cases i <;> simp [statusReserved, withState]

@[simp] theorem statusState_withAuth (w : Word32) (b : Bool) : statusState (withAuth w b) = statusState w := by
  apply BitVec.eq_of_getLsbD_eq; intro i hi
  interval_cases i <;> cases b <;> simp [statusState, withAuth]

@[simp] theorem statusAuth_withAuth (w : Word32) (b : Bool) : statusAuth (withAuth w b) = b := by
  cases b <;> simp [statusAuth, withAuth]

@[simp] theorem statusReserved_withAuth (w : Word32) (b : Bool) : statusReserved (withAuth w b) = statusReserved w := by
  apply BitVec.eq_of_getLsbD_eq; intro i hi
  interval_cases i <;> cases b <;> simp [statusReserved, withAuth]

@[simp] theorem running_errorEntry (k : ErrorKind) (w : Word32) (s : State) : (errorEntry k w s).running = false := by
  simp [State.running, stError, stRunning]

@[simp] theorem running_start (s : State) : (start s).running = true := by simp [State.running]

/-- Every error code is 1 to 7 (R300). -/
theorem code_range (k : ErrorKind) : 1 ≤ k.code.toNat ∧ k.code.toNat ≤ 7 := by cases k <;> decide

/-! ## Command memory (R25) -/

/-- The canonical form in one sentence: the indexes rise strictly. -/
theorem Memory.wf_iff (m : Memory) : m.wf = true ↔ m.Pairwise (fun a b => a.1 < b.1) := by
  induction m with
  | nil => simp [Memory.wf]
  | cons a m ih =>
    cases m with
    | nil => simp [Memory.wf]
    | cons b m =>
      rw [List.pairwise_cons, ← ih]
      simp only [Memory.wf, Bool.and_eq_true, decide_eq_true_eq]
      constructor
      · rintro ⟨h, hw⟩
        refine ⟨?_, hw⟩
        have := (List.pairwise_cons.mp (ih.mp hw)).1
        intro c hc
        rcases List.mem_cons.mp hc with rfl | hc
        · exact h
        · exact lt_trans h (this c hc)
      · rintro ⟨h, hw⟩; exact ⟨h b (by simp), hw⟩

/-- The entries after a write: the written one, or one that was there. -/
theorem Memory.mem_write {m : Memory} {i : Nat} {w : Word32} {c : Nat × Word32} (h : c ∈ m.write i w) :
    c = (i, w) ∨ c ∈ m := by
  induction m with
  | nil => simpa [Memory.write] using h
  | cons a m ih =>
    obtain ⟨k, v⟩ := a
    simp only [Memory.write] at h
    split_ifs at h
    · simpa using h
    · rcases List.mem_cons.mp h with h | h
      · exact .inl h
      · exact .inr (by simp [h])
    · rcases List.mem_cons.mp h with h | h
      · exact .inr (by simp [h])
      · rcases ih h with h | h
        · exact .inl h
        · exact .inr (by simp [h])

/-- A write keeps the canonical form. -/
theorem Memory.write_wf {m : Memory} (i : Nat) (w : Word32) (h : m.wf = true) : (m.write i w).wf = true := by
  rw [Memory.wf_iff] at h ⊢
  induction m with
  | nil => simp [Memory.write]
  | cons a m ih =>
    obtain ⟨k, v⟩ := a
    have hc := List.pairwise_cons.mp h
    simp only [Memory.write]
    split_ifs with h1 h2
    · refine List.pairwise_cons.mpr ⟨?_, h⟩
      intro c hm
      rcases List.mem_cons.mp hm with rfl | hm
      · exact h1
      · exact lt_trans h1 (hc.1 c hm)
    · subst h2; exact List.pairwise_cons.mpr ⟨hc.1, hc.2⟩
    · refine List.pairwise_cons.mpr ⟨?_, ih hc.2⟩
      intro c hm
      rcases Memory.mem_write hm with rfl | hm
      · show k < i; omega
      · exact hc.1 c hm

/-- A read after a write: the written index gives the word, every other what it gave before. -/
theorem Memory.read_write (m : Memory) (i j : Nat) (w : Word32) :
    (m.write i w).read j = if j = i then some w else m.read j := by
  induction m with
  | nil => simp [Memory.write, Memory.read]
  | cons a m ih =>
    obtain ⟨k, v⟩ := a
    simp only [Memory.write]
    by_cases h1 : i < k
    · simp [h1, Memory.read]
    · by_cases h2 : i = k
      · subst h2; simp only [h1, if_false, if_true, Memory.read]; split_ifs <;> rfl
      · simp only [h1, h2, if_false, Memory.read, ih]
        by_cases h3 : j = k
        · have : j ≠ i := fun e => h2 (by rw [← e, h3])
          simp [h3, Ne.symm h2]
        · simp [h3]

/-- `CM` read after a write of one word. -/
@[simp] theorem cmRead_cmWrite (s : State) (i j : Nat) (w : Word32) :
    (s.cmWrite i w).cmRead j = if j = i then w else s.cmRead j := by
  simp only [State.cmRead, cmWrite_cm, Memory.read_write, cmWrite_resets]
  split_ifs <;> simp

/-- The memory of the reset state has the canonical form. -/
theorem reset_cm_wf : State.reset.cm.wf = true := rfl

/-! ## Fetch (R71) and the host port (R35) -/

/-- All a fetch can give. -/
theorem fetch_eq_ok {s : State} {w : Word32} :
    fetch s = .ok w ↔ s.pc.toNat < s.params.cmSize ∧ w = s.cmRead s.pc.toNat := by
  unfold fetch; split_ifs with h
  · simp; omega
  · simp; constructor
    · rintro rfl; exact ⟨by omega, rfl⟩
    · rintro ⟨-, rfl⟩; rfl

theorem fetch_eq_error {s : State} {k : ErrorKind} :
    fetch s = .error k ↔ s.params.cmSize ≤ s.pc.toNat ∧ k = .fetchOutOfRange := by
  unfold fetch; split_ifs with h <;> simp [h, eq_comm]

/-- All a step can do: nothing while not running; an error of the fetch or of the decoding; the decoded command. -/
theorem step_cases (s : State) :
    (s.running = false ∧ step s = .next s) ∨
    (s.running = true ∧ s.params.cmSize ≤ s.pc.toNat ∧ step s = .next (errorEntry .fetchOutOfRange 0 s)) ∨
    (s.running = true ∧ s.pc.toNat < s.params.cmSize ∧ (∃ e, decode (s.cmRead s.pc.toNat) = .error e) ∧
      step s = .next (errorEntry .illegalCommand (s.cmRead s.pc.toNat) s)) ∨
    (s.running = true ∧ s.pc.toNat < s.params.cmSize ∧ ∃ i, decode (s.cmRead s.pc.toNat) = .ok i ∧ step s = exec i s) := by
  by_cases hr : s.running = true
  · right
    by_cases hp : s.params.cmSize ≤ s.pc.toNat
    · left; refine ⟨hr, hp, ?_⟩
      simp [step, hr, fetch_eq_error.mpr ⟨hp, rfl⟩]
    · right
      have hp' : s.pc.toNat < s.params.cmSize := by omega
      have hf := fetch_eq_ok.mpr ⟨hp', rfl⟩
      cases hd : decode (s.cmRead s.pc.toNat) with
      | error e => left; exact ⟨hr, hp', ⟨e, rfl⟩, by simp [step, hr, hf, hd, illegal]⟩
      | ok i => right; exact ⟨hr, hp', i, rfl, by simp [step, hr, hf, hd]⟩
  · left; simp at hr; exact ⟨hr, by simp [step, hr]⟩

/-- A host action that is not allowed does nothing. -/
theorem hostAct_of_not_allowed {a : HostAction} {s : State} (h : a.allowed s = false) : hostAct a s = s := by
  simp [hostAct, h]

/-- A host action that is allowed has its effect. -/
theorem hostAct_of_allowed {a : HostAction} {s : State} (h : a.allowed s = true) : hostAct a s = a.effect s := by
  simp [hostAct, h]

/-- While the sequencer runs, no host action but reset changes the state. -/
theorem hostAct_running {a : HostAction} {s : State} (hr : s.running = true) (ha : a ≠ .reset) : hostAct a s = s := by
  cases a <;> simp_all [hostAct, HostAction.allowed]

/-- The word placed at the fetch is the word fetched, by a running machine. -/
theorem placeAtFetch_spec (s : State) (w : Word32) (h : 1 ≤ s.params.cmSize) :
    (placeAtFetch s w).running = true ∧ fetch (placeAtFetch s w) = .ok w := by
  unfold placeAtFetch
  simp only []
  split_ifs with h1 h2 h2
  · refine ⟨h2, fetch_eq_ok.mpr ⟨h1, ?_⟩⟩
    simp [State.cmRead, Memory.read_write]
  · refine ⟨running_start _, fetch_eq_ok.mpr ⟨h1, ?_⟩⟩
    simp [State.cmRead, Memory.read_write]
  · refine ⟨h2, fetch_eq_ok.mpr ⟨by simp; omega, ?_⟩⟩
    simp [State.cmRead, Memory.read_write]
  · refine ⟨running_start _, fetch_eq_ok.mpr ⟨by simp; omega, ?_⟩⟩
    simp [State.cmRead, Memory.read_write]

end Sys2Proof.Machine
end

