-- ==== Sys2Proof/Laws/Arith.lean ====
section
/-! SUPPORT. The shape of what the polynomial functions, the factorization stages and the GCM functions give: canonical form and length, which the capacity checks and the invariants ask of them. -/

namespace Sys2Proof.Machine

/-! ## Polynomials -/

theorem canonical_polyZero : Canonical polyZero := by decide
theorem canonical_polyOne : Canonical polyOne := by decide
theorem canonical_polyX : Canonical polyX := by decide

theorem addCoeffs_length (p q : List Word) : (addCoeffs p q).length = max p.length q.length := by
  induction p generalizing q with
  | nil => simp [addCoeffs]
  | cons c p ih =>
    cases q with
    | nil => simp [addCoeffs]
    | cons d q => simp [addCoeffs, ih]

theorem scale_length (c : Word) (q : List Word) : (scale c q).length = q.length := by simp [scale]

theorem shiftBy_length (k : Nat) (q : List Word) : (shiftBy k q).length = k + q.length := by simp [shiftBy]

theorem mulCoeffs_length_le (p q : List Word) : (mulCoeffs p q).length ≤ p.length + q.length := by
  induction p with
  | nil => simp [mulCoeffs]
  | cons c p ih => simp [mulCoeffs, addCoeffs_length, scale_length]; omega

/-- A product of nonempty sequences has one coefficient less than both together. -/
theorem mulCoeffs_length {p q : List Word} (hp : p ≠ []) (hq : q ≠ []) :
    (mulCoeffs p q).length = p.length + q.length - 1 := by
  have hq' : 1 ≤ q.length := List.length_pos_iff.mpr hq
  induction p with
  | nil => exact absurd rfl hp
  | cons c p ih =>
    rcases p with _ | ⟨d, p⟩
    · simp [mulCoeffs, addCoeffs_length, scale_length]; omega
    · rw [mulCoeffs, addCoeffs_length, scale_length, List.length_cons, ih (by simp)]
      simp; omega

theorem Canonical.ne_nil {p : Poly} (h : Canonical p) : p ≠ [] := fun e => canon_ne_nil p (by rw [h]; exact e)

theorem Canonical.length_pos {p : Poly} (h : Canonical p) : 1 ≤ p.length := List.length_pos_iff.mpr h.ne_nil

theorem pAdd_canonical (p q : Poly) : Canonical (pAdd p q) := canon_canonical _

theorem pAdd_length_le (p q : Poly) : (pAdd p q).length ≤ max 1 (max p.length q.length) := by
  rw [← addCoeffs_length]; exact canon_length_le _

theorem pMul_canonical (p q : Poly) : Canonical (pMul p q) := canon_canonical _

theorem pMul_length_le {p q : Poly} (hp : p ≠ []) (hq : q ≠ []) : (pMul p q).length ≤ p.length + q.length - 1 := by
  have h := canon_length_le (mulCoeffs p q)
  rw [mulCoeffs_length hp hq] at h
  have h1 : 1 ≤ p.length := List.length_pos_iff.mpr hp
  have h2 : 1 ≤ q.length := List.length_pos_iff.mpr hq
  show (canon (mulCoeffs p q)).length ≤ _
  omega

/-- A round of the long division, the leading factor given. -/
theorem divLoop_round {m q r : Poly} {fac : Word} (n : Nat) (hd : deg m ≤ deg r) (hr : r ≠ polyZero)
    (hf : feDiv (lc r) (lc m) = .ok fac) : divLoop m (n + 1) q r =
      divLoop m n (pAdd q (shiftBy (deg r - deg m) [fac])) (pAdd r (shiftBy (deg r - deg m) (scale fac m))) := by
  simp [divLoop, hd, hr, hf]

/-- The end of the long division. -/
theorem divLoop_stop {m q r : Poly} (n : Nat) (h : deg r < deg m ∨ r = polyZero) : divLoop m n q r = .ok (q, r) := by
  cases n with
  | zero => rfl
  | succ n =>
    have : ¬ (deg m ≤ deg r ∧ r ≠ polyZero) := by rintro ⟨h1, h2⟩; rcases h with h | h <;> [omega; exact h2 h]
    simp [divLoop, this]

/-- Euclid's loop ends at a zero second operand. -/
theorem gcdLoop_zero (n : Nat) (u : Poly) : gcdLoop n u polyZero = .ok u := by cases n <;> simp [gcdLoop]

/-- A round of Euclid's loop, the remainder given. -/
theorem gcdLoop_round {u v r : Poly} (n : Nat) (hv : v ≠ polyZero) (hr : rem u v = .ok r) :
    gcdLoop (n + 1) u v = gcdLoop n v r := by simp [gcdLoop, hv, hr]

/-- The greatest common divisor of operands in order of degree. -/
theorem pGcd_of_le {u v g : Poly} (hd : deg v ≤ deg u) (h : gcdLoop (u.length + v.length + 1) u v = .ok g) :
    pGcd u v = pMonic g := by
  have hn : ¬ deg u < deg v := by omega
  simp only [pGcd, hn, if_false, h]

theorem divLoop_canonical {m : Poly} (n : Nat) {q r : Poly} {x : Poly × Poly} (hq : Canonical q) (hr : Canonical r)
    (h : divLoop m n q r = .ok x) : Canonical x.1 ∧ Canonical x.2 := by
  induction n generalizing q r with
  | zero => simp [divLoop] at h; subst h; exact ⟨hq, hr⟩
  | succ n ih =>
    unfold divLoop at h
    split_ifs at h with hc
    · split at h
      · cases h
      · exact ih (pAdd_canonical _ _) (pAdd_canonical _ _) h
    · simp at h; subst h; exact ⟨hq, hr⟩

/-- A division of a canonical dividend gives canonical results. -/
theorem pDivmod_canonical {n m : Poly} {x : Poly × Poly} (hn : Canonical n) (h : pDivmod n m = .ok x) :
    Canonical x.1 ∧ Canonical x.2 := by
  unfold pDivmod at h
  split_ifs at h
  exact divLoop_canonical _ canonical_polyZero hn h

theorem quo_canonical {n m q : Poly} (hn : Canonical n) (h : quo n m = .ok q) : Canonical q := by
  unfold quo at h
  cases hd : pDivmod n m with
  | error k => simp [hd, Except.map] at h
  | ok x => simp [hd, Except.map] at h; subst h; exact (pDivmod_canonical hn hd).1

theorem rem_canonical {n m r : Poly} (hn : Canonical n) (h : rem n m = .ok r) : Canonical r := by
  unfold rem at h
  cases hd : pDivmod n m with
  | error k => simp [hd, Except.map] at h
  | ok x => simp [hd, Except.map] at h; subst h; exact (pDivmod_canonical hn hd).2

theorem pPowLoop_canonical (n : Nat) {r s : Poly} (e : Nat) (hr : Canonical r) : Canonical (pPowLoop n r s e) := by
  induction n generalizing r s e with
  | zero => exact hr
  | succ n ih =>
    unfold pPowLoop
    split_ifs
    · exact hr
    · exact ih _ (pMul_canonical _ _)
    · exact ih _ (pMul_canonical _ _)
    · exact ih _ hr
    · exact ih _ hr

theorem pPow_canonical (p : Poly) (e : Nat) : Canonical (pPow p e) := pPowLoop_canonical _ _ canonical_polyOne

theorem pPowmodLoop_canonical (m : Poly) (n : Nat) {r s : Poly} (e : Nat) {x : Poly} (hr : Canonical r)
    (h : pPowmodLoop m n r s e = .ok x) : Canonical x := by
  induction n generalizing r s e with
  | zero => simp [pPowmodLoop] at h; subst h; exact hr
  | succ n ih =>
    unfold pPowmodLoop at h
    by_cases h0 : e = 0
    · simp [h0] at h; subst h; exact hr
    simp only [h0, if_false, bind, Except.bind] at h
    by_cases ho : e % 2 = 1
    · simp only [ho, if_true] at h
      cases h1 : rem (pMul r s) m with
      | error k => simp [h1] at h
      | ok r' =>
        have hr' : Canonical r' := rem_canonical (pMul_canonical _ _) h1
        simp only [h1] at h
        split_ifs at h
        · cases h2 : rem (pMul s s) m with
          | error k => simp [h2] at h
          | ok s' => simp only [h2] at h; exact ih _ hr' h
        · exact ih _ hr' h
    · simp only [ho, if_false] at h
      split_ifs at h
      · cases h2 : rem (pMul s s) m with
        | error k => simp [h2] at h
        | ok s' => simp only [h2] at h; exact ih _ hr h
      · exact ih _ hr h

theorem pPowmod_canonical {p m x : Poly} {e : Nat} (h : pPowmod p e m = .ok x) : Canonical x := by
  unfold pPowmod at h
  split_ifs at h
  simp only [bind, Except.bind] at h
  cases h1 : rem polyOne m with
  | error k => simp [h1] at h
  | ok r =>
    cases h2 : rem p m with
    | error k => simp [h1, h2] at h
    | ok s => simp only [h1, h2] at h; exact pPowmodLoop_canonical m _ _ (rem_canonical canonical_polyOne h1) h

theorem derivCoeffs_length (b : Bool) (p : List Word) : (derivCoeffs b p).length = p.length := by
  induction p generalizing b with
  | nil => rfl
  | cons c p ih => simp [derivCoeffs, ih]

theorem pDeriv_canonical (p : Poly) : Canonical (pDeriv p) := canon_canonical _

theorem pDeriv_length_le (p : Poly) : (pDeriv p).length ≤ max 1 (p.length - 1) := by
  have h := canon_length_le (derivCoeffs true p.tail)
  rwa [derivCoeffs_length, List.length_tail] at h

theorem evenCoeffs_length_le : ∀ p : List Word, (evenCoeffs p).length ≤ p.length
  | [] => by simp [evenCoeffs]
  | [c] => by simp [evenCoeffs]
  | c :: d :: p => by simp [evenCoeffs]; have := evenCoeffs_length_le p; omega

/-- All a square root gives: a canonical polynomial no longer than the operand. -/
theorem pSqrt_ok {p r : Poly} (hp : Canonical p) (h : pSqrt p = .ok r) : Canonical r ∧ r.length ≤ p.length := by
  unfold pSqrt at h
  split_ifs at h
  simp at h; subst h
  refine ⟨canon_canonical _, ?_⟩
  have h1 := canon_length_le ((evenCoeffs p).map feSqrt)
  have h2 := evenCoeffs_length_le p
  have h3 := hp.length_pos
  simp at h1; omega

/-- All a monic form gives: a canonical polynomial no longer than the operand. -/
theorem pMonic_ok {p r : Poly} (hp : Canonical p) (h : pMonic p = .ok r) : Canonical r ∧ r.length ≤ p.length := by
  unfold pMonic at h
  split_ifs at h
  split at h
  · cases h
  · simp at h; subst h
    refine ⟨canon_canonical _, ?_⟩
    rename_i v _
    have h1 := canon_length_le (p.map (fun c => feMul c v))
    have h3 := hp.length_pos
    simp at h1; omega

theorem pMonic_canonical {p r : Poly} (h : pMonic p = .ok r) : Canonical r := by
  unfold pMonic at h
  split_ifs at h
  split at h
  · cases h
  · simp at h; subst h; exact canon_canonical _

theorem pGcd_canonical {u v g : Poly} (h : pGcd u v = .ok g) : Canonical g := by
  unfold pGcd at h
  simp only [] at h
  split at h
  · cases h
  · exact pMonic_canonical h

/-- A sequence padded to hold an index keeps its length or reaches just beyond the index. -/
theorem padTo_length_le (p : Poly) (i : Nat) : (p ++ List.replicate (i + 1 - p.length) fieldZero).length ≤ max p.length (i + 1) := by
  simp; omega

/-! ## Factorization -/

/-- Every polynomial of a factor list is canonical. -/
abbrev AllCanonical (z : Factors) : Prop := ∀ e ∈ z, Canonical e.1

/-- A round of the square-free loop that ends it. -/
theorem sffLoop_stop {f : Poly} {e : Nat} {z : Factors} (n : Nat) (hc : pGcd f (pDeriv f) = .ok f) :
    sffLoop (n + 1) f e z = .ok (z, f) := by simp only [sffLoop, hc, if_true]

/-- A round of the square-free loop that emits a factor. -/
theorem sffLoop_round {f c g : Poly} {e : Nat} {z : Factors} (n : Nat) (hc : pGcd f (pDeriv f) = .ok c) (hne : f ≠ c)
    (hg : quo f c = .ok g) : sffLoop (n + 1) f e z = sffLoop n c (e + 1) (z ++ [(g, e)]) := by
  simp only [sffLoop, hc, hne, if_false, hg]

/-- A level of the square-free stage whose loop ends at one. -/
theorem sffLevels_last {f : Poly} {z : Factors} (n : Nat) (hl : sffLoop (f.length + 1) f 1 [] = .ok (z, polyOne)) :
    sffLevels (n + 1) f = .ok z := by simp only [sffLevels, hl, if_true]

/-- A level of the square-free stage whose loop leaves a square. -/
theorem sffLevels_square {f c h : Poly} {z t : Factors} (n : Nat) (hl : sffLoop (f.length + 1) f 1 [] = .ok (z, c))
    (hc : c ≠ polyOne) (hs : pSqrt c = .ok h) (ht : sffLevels n h = .ok t) :
    sffLevels (n + 1) f = .ok (z ++ t.map (fun e => (e.1, 2 * e.2))) := by
  simp only [sffLevels, hl, hc, if_false, hs, ht]

theorem sffLoop_canonical (n : Nat) {f : Poly} {e : Nat} {z : Factors} {x : Factors × Poly} (hf : Canonical f)
    (hz : AllCanonical z) (h : sffLoop n f e z = .ok x) : AllCanonical x.1 ∧ Canonical x.2 := by
  induction n generalizing f e z with
  | zero => simp [sffLoop] at h; subst h; exact ⟨hz, hf⟩
  | succ n ih =>
    unfold sffLoop at h
    split at h
    · cases h
    · rename_i c hc
      split_ifs at h with he
      · simp at h; subst h; exact ⟨hz, pGcd_canonical hc⟩
      · split at h
        · cases h
        · rename_i g hg
          refine ih (pGcd_canonical hc) ?_ h
          intro a ha
          rcases List.mem_append.mp ha with ha | ha
          · exact hz a ha
          · simp at ha; subst ha; exact quo_canonical hf hg

theorem sffLevels_canonical (n : Nat) {f : Poly} {z : Factors} (hf : Canonical f) (h : sffLevels n f = .ok z) :
    AllCanonical z := by
  induction n generalizing f z with
  | zero => simp [sffLevels] at h; subst h; simp [AllCanonical]
  | succ n ih =>
    unfold sffLevels at h
    split at h
    · cases h
    · rename_i w c hw
      have hwc := sffLoop_canonical _ hf (by simp [AllCanonical]) hw
      split_ifs at h
      · simp at h; subst h; exact hwc.1
      · split at h
        · cases h
        · rename_i r hr
          split at h
          · cases h
          · rename_i t ht
            simp at h; subst h
            have ht' := ih (pSqrt_ok hwc.2 hr).1 ht
            intro a ha
            rcases List.mem_append.mp ha with ha | ha
            · exact hwc.1 a ha
            · obtain ⟨b, hb, rfl⟩ := List.mem_map.mp ha; exact ht' b hb

theorem sff_canonical {f : Poly} {z : Factors} (hf : Canonical f) (h : sff f = .ok z) : AllCanonical z :=
  sffLevels_canonical _ hf h

theorem ddfLoop_canonical (n : Nat) {d : Nat} {fs : Poly} {z : Factors} {x : Factors × Poly} (hf : Canonical fs)
    (hz : AllCanonical z) (h : ddfLoop n d fs z = .ok x) : AllCanonical x.1 ∧ Canonical x.2 := by
  induction n generalizing d fs z with
  | zero => simp [ddfLoop] at h; subst h; exact ⟨hz, hf⟩
  | succ n ih =>
    unfold ddfLoop at h
    by_cases hd : 2 * d ≤ deg fs
    swap
    · simp only [hd, if_false] at h; simp at h; subst h; exact ⟨hz, hf⟩
    simp only [hd, if_true, bind, Except.bind] at h
    cases h1 : rem polyX fs with
    | error k => simp [h1] at h
    | ok x1 =>
      cases h2 : pPowmod polyX (2 ^ (128 * d)) fs with
      | error k => simp [h1, h2] at h
      | ok y =>
        cases h3 : pGcd (pAdd y x1) fs with
        | error k => simp [h1, h2, h3] at h
        | ok g =>
          simp only [h1, h2, h3] at h
          split_ifs at h with hg
          · exact ih hf hz h
          · cases h4 : quo fs g with
            | error k => simp [h4] at h
            | ok rest =>
              simp only [h4] at h
              refine ih (quo_canonical hf h4) ?_ h
              intro a ha
              rcases List.mem_append.mp ha with ha | ha
              · exact hz a ha
              · simp at ha; subst ha; exact pGcd_canonical h3

theorem ddf_canonical {f : Poly} {z : Factors} (hf : Canonical f) (h : ddf f = .ok z) : AllCanonical z := by
  unfold ddf at h
  split_ifs at h
  split at h
  · cases h
  · rename_i w fs hw
    have hwc := ddfLoop_canonical _ hf (by simp [AllCanonical]) hw
    simp at h; subst h
    split_ifs
    · intro a ha
      rcases List.mem_append.mp ha with ha | ha
      · exact hwc.1 a ha
      · simp at ha; subst ha; exact hwc.2
    · exact hwc.1

theorem edfSplit_canonical {d : Nat} {g u : Poly} {z : List Poly} (hu : Canonical u) (h : edfSplit d g u = .ok z) :
    ∀ v ∈ z, Canonical v := by
  unfold edfSplit at h
  by_cases hd : d < deg u
  swap
  · simp only [hd, if_false] at h; simp at h; subst h; simpa using hu
  simp only [hd, if_true, bind, Except.bind] at h
  cases h1 : pGcd u g with
  | error k => simp [h1] at h
  | ok j =>
    simp only [h1] at h
    split_ifs at h
    · cases h2 : quo u j with
      | error k => simp [h2] at h
      | ok q =>
        simp [h2] at h; subst h
        intro v hv
        simp at hv
        rcases hv with rfl | rfl
        · exact pGcd_canonical h1
        · exact quo_canonical hu h2
    · simp at h; subst h; simpa using hu

theorem edfPass_canonical {d : Nat} {g : Poly} {z y : List Poly} (hz : ∀ v ∈ z, Canonical v)
    (h : edfPass d g z = .ok y) : ∀ v ∈ y, Canonical v := by
  induction z generalizing y with
  | nil => simp [edfPass] at h; subst h; simp
  | cons u z ih =>
    simp only [edfPass, bind, Except.bind] at h
    cases h1 : edfSplit d g u with
    | error k => simp [h1] at h
    | ok a =>
      cases h2 : edfPass d g z with
      | error k => simp [h1, h2] at h
      | ok b =>
        simp [h1, h2] at h; subst h
        intro v hv
        rcases List.mem_append.mp hv with hv | hv
        · exact edfSplit_canonical (hz u (by simp)) h1 v hv
        · exact ih (fun w hw => hz w (by simp [hw])) h2 v hv

theorem edfTrial_canonical {f h : Poly} {d : Nat} {z y : List Poly} (hz : ∀ v ∈ z, Canonical v)
    (ht : edfTrial f d h z = .ok y) : ∀ v ∈ y, Canonical v := by
  simp only [edfTrial, bind, Except.bind] at ht
  split at ht
  · cases ht
  · exact edfPass_canonical hz ht

theorem edfLoop_canonical {rand : Nat → Word} {f : Poly} {d : Nat} (t n : Nat) {z y : List Poly}
    (hz : ∀ v ∈ z, Canonical v) (h : (edfLoop rand f d t n z).1 = .ok y) : ∀ v ∈ y, Canonical v := by
  induction t generalizing n z with
  | zero =>
    simp only [edfLoop] at h
    split_ifs at h
    simp at h; subst h; exact hz
  | succ t ih =>
    simp only [edfLoop] at h
    split_ifs at h
    · split at h
      · cases h
      · rename_i z' hz'; exact ih _ (edfTrial_canonical hz hz') h
    · simp at h; subst h; exact hz

theorem edf_canonical {rand : Nat → Word} {budget n : Nat} {f : Poly} {d : Nat} {y : List Poly} (hf : Canonical f)
    (h : (edf rand budget n f d).1 = .ok y) : ∀ v ∈ y, Canonical v := by
  unfold edf at h
  split_ifs at h
  exact edfLoop_canonical _ _ (by simpa using hf) h

theorem factorPart_canonical {rand : Nat → Word} {budget n d m : Nat} {g : Poly} {y : List Poly} (hg : Canonical g)
    (h : factorPart rand budget n g d = (.ok y, m)) : ∀ v ∈ y, Canonical v := by
  unfold factorPart at h
  split_ifs at h
  · exact edf_canonical hg (by rw [h])
  · simp at h; obtain ⟨rfl, -⟩ := h; simpa using hg

theorem factorDegrees_canonical {rand : Nat → Word} {budget e n m : Nat} {z y : Factors} (hz : AllCanonical z)
    (h : factorDegrees rand budget e n z = (.ok y, m)) : AllCanonical y := by
  induction z generalizing n y m with
  | nil => simp [factorDegrees] at h; obtain ⟨rfl, -⟩ := h; simp [AllCanonical]
  | cons a z ih =>
    obtain ⟨g, d⟩ := a
    simp only [factorDegrees] at h
    split at h
    · simp at h
    · rename_i parts m1 hp
      split at h
      · simp at h
      · rename_i out m2 ho
        simp at h; obtain ⟨rfl, -⟩ := h
        intro b hb
        rcases List.mem_append.mp hb with hb | hb
        · obtain ⟨u, hu, rfl⟩ := List.mem_map.mp hb
          exact factorPart_canonical (hz (g, d) (by simp)) hp u hu
        · exact ih (fun c hc => hz c (by simp [hc])) ho b hb

theorem factorSquares_canonical {rand : Nat → Word} {budget n m : Nat} {z y : Factors} (hz : AllCanonical z)
    (h : factorSquares rand budget n z = (.ok y, m)) : AllCanonical y := by
  induction z generalizing n y m with
  | nil => simp [factorSquares] at h; obtain ⟨rfl, -⟩ := h; simp [AllCanonical]
  | cons a z ih =>
    obtain ⟨s, e⟩ := a
    simp only [factorSquares] at h
    split at h
    · simp at h
    · rename_i w hw
      split at h
      · simp at h
      · rename_i o1 m1 h1
        split at h
        · simp at h
        · rename_i o2 m2 h2
          simp at h; obtain ⟨rfl, -⟩ := h
          intro b hb
          rcases List.mem_append.mp hb with hb | hb
          · exact factorDegrees_canonical (ddf_canonical (hz (s, e) (by simp)) hw) h1 b hb
          · exact ih (fun c hc => hz c (by simp [hc])) h2 b hb

theorem factor_canonical {rand : Nat → Word} {budget n m : Nat} {f : Poly} {y : Factors}
    (h : factor rand budget n f = (.ok y, m)) : AllCanonical y := by
  unfold factor at h
  split at h
  · simp at h
  · rename_i g hg
    split at h
    · simp at h
    · rename_i z hz
      exact factorSquares_canonical (sff_canonical (pMonic_canonical hg) hz) h

/-- The pipeline when its monic form and its square-free stage are given. -/
theorem factor_of_stages {rand : Nat → Word} {budget n : Nat} {f m : Poly} {z : Factors} (hm : pMonic f = .ok m)
    (hz : sff m = .ok z) : factor rand budget n f = factorSquares rand budget n z := by simp only [factor, hm, hz]

/-- The pipeline over one more square-free part, each stage given. -/
theorem factorSquares_cons {rand : Nat → Word} {budget n m m' e : Nat} {s : Poly} {rest w a b : Factors}
    (hw : ddf s = .ok w) (ha : factorDegrees rand budget e n w = (.ok a, m))
    (hb : factorSquares rand budget m rest = (.ok b, m')) :
    factorSquares rand budget n ((s, e) :: rest) = (.ok (a ++ b), m') := by simp only [factorSquares, hw, ha, hb]

/-- The pipeline over one more part of a distinct-degree list, the part given. -/
theorem factorDegrees_cons {rand : Nat → Word} {budget n m m' e d : Nat} {g : Poly} {rest out : Factors}
    {parts : List Poly} (hp : factorPart rand budget n g d = (.ok parts, m))
    (ho : factorDegrees rand budget e m rest = (.ok out, m')) :
    factorDegrees rand budget e n ((g, d) :: rest) = (.ok (parts.map (fun u => (u, e)) ++ out), m') := by
  simp only [factorDegrees, hp, ho]

/-- A linear part is its own factor, without a draw. -/
theorem factorPart_linear {rand : Nat → Word} {budget n d : Nat} {g : Poly} (h : deg g ≤ 1) :
    factorPart rand budget n g d = (.ok [g], n) := by
  have hn : ¬ 1 < deg g := by omega
  simp only [factorPart, hn, if_false]

/-- Key recovery when its monic polynomial and its factors are given. -/
theorem recover_of_stages {rand : Nat → Word} {budget n m : Nat} {m1 m2 m3 : Message} {f : Poly} {out : Factors}
    (hf : pMonic (recoverPoly m1 m2) = .ok f) (ho : factor rand budget n f = (.ok out, m)) :
    recover rand budget n m1 m2 m3 = (recoverSearch m1 m3 out, m) := by simp only [recover, hf, ho]

/-- A candidate that passes ends the search. -/
theorem recoverSearch_found {m1 m3 : Message} {u : Poly} {e : Nat} {rest : Factors} (hd : deg u = 1)
    (hp : candidatePasses m1 m3 (coeffAt u 0) = true) :
    recoverSearch m1 m3 ((u, e) :: rest) = .ok (coeffAt u 0, candidateMask m1 (coeffAt u 0)) := by
  simp only [recoverSearch, hd, hp, and_self, if_true]

/-! ## GHASH and GCM -/

theorem bytesOfWord_length (w : Word) : (bytesOfWord w).length = 16 := by simp [bytesOfWord]

theorem padBlocks_length (s : Bytes) : (padBlocks s).length = blockCount s.length := by simp [padBlocks]

theorem keystream_length (cipher : Word → Word → Word) (key : Word) (nonce : Bytes) (m : Nat) :
    (keystream cipher key nonce m).length = 16 := bytesOfWord_length _

end Sys2Proof.Machine
end

