-- ==== Sys2Proof/Laws/Codec.lean ====
section
/-! SUPPORT. The lemmas of the command word: each field of a packed word, a packed word under the masks of R73, the lookup of an opcode, and what an accepted word satisfies. -/

namespace Sys2Proof

section Fields
variable (op : BitVec 8) (rd ra rb rc re rf : Reg) (imm : BitVec 8) (w : Word32)

@[simp] theorem fieldOp_packRegs : fieldOp (packRegs op rd ra rb rc re rf) = op := by
  apply BitVec.eq_of_getLsbD_eq; intro i hi
  interval_cases i <;> simp [fieldOp, packRegs]

@[simp] theorem fieldRd_packRegs : fieldRd (packRegs op rd ra rb rc re rf) = rd := by
  apply BitVec.eq_of_getLsbD_eq; intro i hi
  interval_cases i <;> simp [fieldRd, packRegs]

@[simp] theorem fieldRa_packRegs : fieldRa (packRegs op rd ra rb rc re rf) = ra := by
  apply BitVec.eq_of_getLsbD_eq; intro i hi
  interval_cases i <;> simp [fieldRa, packRegs]

@[simp] theorem fieldRb_packRegs : fieldRb (packRegs op rd ra rb rc re rf) = rb := by
  apply BitVec.eq_of_getLsbD_eq; intro i hi
  interval_cases i <;> simp [fieldRb, packRegs]

@[simp] theorem fieldRc_packRegs : fieldRc (packRegs op rd ra rb rc re rf) = rc := by
  apply BitVec.eq_of_getLsbD_eq; intro i hi
  interval_cases i <;> simp [fieldRc, packRegs]

@[simp] theorem fieldRe_packRegs : fieldRe (packRegs op rd ra rb rc re rf) = re := by
  apply BitVec.eq_of_getLsbD_eq; intro i hi
  interval_cases i <;> simp [fieldRe, packRegs]

@[simp] theorem fieldRf_packRegs : fieldRf (packRegs op rd ra rb rc re rf) = rf := by
  apply BitVec.eq_of_getLsbD_eq; intro i hi
  interval_cases i <;> simp [fieldRf, packRegs]

@[simp] theorem fieldOp_packImm : fieldOp (packImm op rd ra imm) = op := by
  apply BitVec.eq_of_getLsbD_eq; intro i hi
  interval_cases i <;> simp [fieldOp, packImm]

@[simp] theorem fieldRd_packImm : fieldRd (packImm op rd ra imm) = rd := by
  apply BitVec.eq_of_getLsbD_eq; intro i hi
  interval_cases i <;> simp [fieldRd, packImm]

@[simp] theorem fieldRa_packImm : fieldRa (packImm op rd ra imm) = ra := by
  apply BitVec.eq_of_getLsbD_eq; intro i hi
  interval_cases i <;> simp [fieldRa, packImm]

@[simp] theorem fieldImm_packImm : fieldImm (packImm op rd ra imm) = imm := by
  apply BitVec.eq_of_getLsbD_eq; intro i hi
  interval_cases i <;> simp [fieldImm, packImm]

/-- A word is its fields packed. -/
theorem packRegs_fields :
    packRegs (fieldOp w) (fieldRd w) (fieldRa w) (fieldRb w) (fieldRc w) (fieldRe w) (fieldRf w) = w := by
  apply BitVec.eq_of_getLsbD_eq; intro i hi
  interval_cases i <;> simp [fieldOp, fieldRd, fieldRa, fieldRb, fieldRc, fieldRe, fieldRf, packRegs]

theorem packRegs_mask_none : packRegs op 0 0 0 0 0 0 &&& 0xFFFFFFFF = op.setWidth 32 := by
  apply BitVec.eq_of_getLsbD_eq; intro i hi
  interval_cases i <;> simp [packRegs]

theorem packRegs_mask_rd : packRegs op rd 0 0 0 0 0 &&& 0xFFFFF0FF = op.setWidth 32 := by
  apply BitVec.eq_of_getLsbD_eq; intro i hi
  interval_cases i <;> simp [packRegs]

theorem packRegs_mask_ra : packRegs op 0 ra 0 0 0 0 &&& 0xFFFF0FFF = op.setWidth 32 := by
  apply BitVec.eq_of_getLsbD_eq; intro i hi
  interval_cases i <;> simp [packRegs]

theorem packRegs_mask_rd_ra : packRegs op rd ra 0 0 0 0 &&& 0xFFFF00FF = op.setWidth 32 := by
  apply BitVec.eq_of_getLsbD_eq; intro i hi
  interval_cases i <;> simp [packRegs]

theorem packRegs_mask_rd_ra_rb : packRegs op rd ra rb 0 0 0 &&& 0xFFF000FF = op.setWidth 32 := by
  apply BitVec.eq_of_getLsbD_eq; intro i hi
  interval_cases i <;> simp [packRegs]

theorem packRegs_mask_rd_ra_rb_rc : packRegs op rd ra rb rc 0 0 &&& 0xFF0000FF = op.setWidth 32 := by
  apply BitVec.eq_of_getLsbD_eq; intro i hi
  interval_cases i <;> simp [packRegs]

theorem packRegs_mask_five : packRegs op rd ra rb rc re 0 &&& 0xF00000FF = op.setWidth 32 := by
  apply BitVec.eq_of_getLsbD_eq; intro i hi
  interval_cases i <;> simp [packRegs]

theorem packRegs_mask_six : packRegs op rd ra rb rc re rf &&& 0x000000FF = op.setWidth 32 := by
  apply BitVec.eq_of_getLsbD_eq; intro i hi
  interval_cases i <;> simp [packRegs]

theorem packImm_mask_rd : packImm op rd 0 imm &&& 0x00FFF0FF = op.setWidth 32 := by
  apply BitVec.eq_of_getLsbD_eq; intro i hi
  interval_cases i <;> simp [packImm]

theorem packImm_mask_ra : packImm op 0 ra imm &&& 0x00FF0FFF = op.setWidth 32 := by
  apply BitVec.eq_of_getLsbD_eq; intro i hi
  interval_cases i <;> simp [packImm]

theorem packImm_mask_rd_ra : packImm op rd ra imm &&& 0x00FF00FF = op.setWidth 32 := by
  apply BitVec.eq_of_getLsbD_eq; intro i hi
  interval_cases i <;> simp [packImm]

end Fields

/-- Every row is found by its opcode: the opcodes of R73 differ. -/
@[simp] theorem mnemonicOf_opcode (m : Mnemonic) : mnemonicOf m.opcode = some m := by cases m <;> rfl

/-- A found row has the opcode looked up. -/
theorem opcode_of_mnemonicOf {op : BitVec 8} {m : Mnemonic} (h : mnemonicOf op = some m) : m.opcode = op := by
  simpa using List.find?_some h

/-- What an accepted word satisfies: its row, the row's mask and match, and the side condition. -/
theorem decode_eq_ok {w : Word32} {i : Instr} : decode w = .ok i ↔
    ∃ m, mnemonicOf (fieldOp w) = some m ∧ w &&& m.mask = m.matchWord ∧ operandsOf m w = i ∧ i.wf = true := by
  unfold decode
  split
  · rename_i h; simp [h]
  · rename_i m h
    split_ifs with h1 h2
    · constructor
      · intro e; cases e; exact ⟨m, h, h1, rfl, h2⟩
      · rintro ⟨m', e, -, rfl, -⟩; rw [h] at e; cases e; rfl
    · constructor
      · intro e; cases e
      · rintro ⟨m', e, -, rfl, hw⟩; rw [h] at e; cases e; exact absurd hw h2
    · constructor
      · intro e; cases e
      · rintro ⟨m', e, hm, -, -⟩; rw [h] at e; cases e; exact absurd hm h1

end Sys2Proof
end

