-- ==== Sys2Proof/Laws/PerInstr.lean ====
section
/-! SUPPORT. The per-instruction family `EncodeMatchesRow`: the word of every instruction passes the mask and match of its own row of R73, so an encoding writes nothing outside the fields its command uses. -/

namespace Sys2Proof.Laws.EncodeMatchesRow

/-- The word of `i` matches the row of `i`. -/
def Statement (i : Sys2Proof.Instr) : Prop :=
  Sys2Proof.encode i &&& i.mnemonic.mask = i.mnemonic.matchWord

theorem nop : Statement (.nop) := packRegs_mask_none _
theorem halt : Statement (.halt) := packRegs_mask_none _
theorem csrr (rd : Reg) (csr : BitVec 8) : Statement (.csrr rd csr) := packImm_mask_rd _ rd csr
theorem csrw (csr : BitVec 8) (ra : Reg) : Statement (.csrw csr ra) := packImm_mask_ra _ ra csr
theorem fadd (rd ra rb : Reg) : Statement (.fadd rd ra rb) := packRegs_mask_rd_ra_rb _ rd ra rb
theorem fmul (rd ra rb : Reg) : Statement (.fmul rd ra rb) := packRegs_mask_rd_ra_rb _ rd ra rb
theorem fmuln (rd ra rb : Reg) : Statement (.fmuln rd ra rb) := packRegs_mask_rd_ra_rb _ rd ra rb
theorem fbrev (rd ra : Reg) : Statement (.fbrev rd ra) := packRegs_mask_rd_ra _ rd ra
theorem finv (rd ra : Reg) : Statement (.finv rd ra) := packRegs_mask_rd_ra _ rd ra
theorem fdiv (rd ra rb : Reg) : Statement (.fdiv rd ra rb) := packRegs_mask_rd_ra_rb _ rd ra rb
theorem fpow (rd ra rb : Reg) : Statement (.fpow rd ra rb) := packRegs_mask_rd_ra_rb _ rd ra rb
theorem fsqrt (rd ra : Reg) : Statement (.fsqrt rd ra) := packRegs_mask_rd_ra _ rd ra
theorem fmov (rd ra : Reg) : Statement (.fmov rd ra) := packRegs_mask_rd_ra _ rd ra
theorem fli (rd : Reg) (imm : BitVec 8) : Statement (.fli rd imm) := packImm_mask_rd _ rd imm
theorem padd (rd ra rb : Reg) : Statement (.padd rd ra rb) := packRegs_mask_rd_ra_rb _ rd ra rb
theorem pmul (rd ra rb : Reg) : Statement (.pmul rd ra rb) := packRegs_mask_rd_ra_rb _ rd ra rb
theorem pdivmod (rd rc ra rb : Reg) : Statement (.pdivmod rd rc ra rb) := packRegs_mask_rd_ra_rb_rc _ rd ra rb rc
theorem ppow (rd ra rb : Reg) : Statement (.ppow rd ra rb) := packRegs_mask_rd_ra_rb _ rd ra rb
theorem ppowmod (rd ra rb rc : Reg) : Statement (.ppowmod rd ra rb rc) := packRegs_mask_rd_ra_rb_rc _ rd ra rb rc
theorem pderiv (rd ra : Reg) : Statement (.pderiv rd ra) := packRegs_mask_rd_ra _ rd ra
theorem psqrt (rd ra : Reg) : Statement (.psqrt rd ra) := packRegs_mask_rd_ra _ rd ra
theorem pmonic (rd ra : Reg) : Statement (.pmonic rd ra) := packRegs_mask_rd_ra _ rd ra
theorem pgcd (rd ra rb : Reg) : Statement (.pgcd rd ra rb) := packRegs_mask_rd_ra_rb _ rd ra rb
theorem pmov (rd ra : Reg) : Statement (.pmov rd ra) := packRegs_mask_rd_ra _ rd ra
theorem psetc (rd ra : Reg) (imm : BitVec 8) : Statement (.psetc rd ra imm) := packImm_mask_rd_ra _ rd ra imm
theorem pgetc (rd ra : Reg) (imm : BitVec 8) : Statement (.pgetc rd ra imm) := packImm_mask_rd_ra _ rd ra imm
theorem sff (ra : Reg) : Statement (.sff ra) := packRegs_mask_ra _ ra
theorem ddf (ra : Reg) : Statement (.ddf ra) := packRegs_mask_ra _ ra
theorem edf (ra : Reg) (imm : BitVec 8) : Statement (.edf ra imm) := packImm_mask_ra _ ra imm
theorem factor (ra : Reg) : Statement (.factor ra) := packRegs_mask_ra _ ra
theorem lcnt (rd : Reg) : Statement (.lcnt rd) := packRegs_mask_rd _ rd
theorem lgetp (rd : Reg) (imm : BitVec 8) : Statement (.lgetp rd imm) := packImm_mask_rd _ rd imm
theorem lgetn (rd : Reg) (imm : BitVec 8) : Statement (.lgetn rd imm) := packImm_mask_rd _ rd imm
theorem ghash (rd rc ra rb re : Reg) : Statement (.ghash rd rc ra rb re) := packRegs_mask_five _ rd ra rb rc re
theorem gcmenc (rd rc ra rb re rf : Reg) : Statement (.gcmenc rd rc ra rb re rf) := packRegs_mask_six _ rd ra rb rc re rf
theorem gcmdec (rd rc ra rb re rf : Reg) : Statement (.gcmdec rd rc ra rb re rf) := packRegs_mask_six _ rd ra rb rc re rf
theorem recover (rd rc ra rb : Reg) : Statement (.recover rd rc ra rb) := packRegs_mask_rd_ra_rb_rc _ rd ra rb rc
theorem forge (rd ra rc rb re : Reg) : Statement (.forge rd ra rc rb re) := packRegs_mask_five _ rd ra rb rc re

end Sys2Proof.Laws.EncodeMatchesRow
end

