-- ==== Sys2Proof/Tests/Slice0.lean ====
section
/-! SUPPORT. Tests: ill-formed terms refused, words written out from R73 decoded, single steps on small states with the results of `spec/95_test_vectors.md` and of the rules' examples, and one witness for the hypotheses of each statement that has some. -/

namespace Sys2Proof.Tests
open Sys2Proof Sys2Proof.Machine

-- The field multiplier is a loop of 128 rounds, deeper than the default limit of `decide`.
set_option maxRecDepth 8000

/-! ## Well-formedness (R74 case c, R77) -/

theorem test_wf_refuses_csrr_of_csr_6 : (Instr.csrr 0 6).wf = false := by decide
theorem test_wf_refuses_csrw_of_pc : (Instr.csrw 5 0).wf = false := by decide
theorem test_wf_refuses_pdivmod_into_one_register : (Instr.pdivmod 5 5 3 1).wf = false := by decide
theorem test_wf_refuses_ghash_into_one_register : (Instr.ghash 10 10 0 3 4).wf = false := by decide
theorem test_wf_refuses_recover_into_one_register : (Instr.recover 8 8 4 0).wf = false := by decide
theorem test_wf_accepts_the_last_csr : (Instr.csrr 0 5).wf = true := by decide

/-! ## The opcode table (R73), written out -/

theorem test_opcode_table : Mnemonic.all.map (fun m => (m.name, m.matchWord.toNat, m.mask.toNat)) =
    [("NOP", 0x00, 0xFFFFFFFF), ("HALT", 0x01, 0xFFFFFFFF), ("CSRR", 0x02, 0x00FFF0FF), ("CSRW", 0x03, 0x00FF0FFF),
     ("FADD", 0x10, 0xFFF000FF), ("FMUL", 0x11, 0xFFF000FF), ("FMULN", 0x12, 0xFFF000FF), ("FBREV", 0x13, 0xFFFF00FF),
     ("FINV", 0x14, 0xFFFF00FF), ("FDIV", 0x15, 0xFFF000FF), ("FPOW", 0x16, 0xFFF000FF), ("FSQRT", 0x17, 0xFFFF00FF),
     ("FMOV", 0x18, 0xFFFF00FF), ("FLI", 0x19, 0x00FFF0FF),
     ("PADD", 0x20, 0xFFF000FF), ("PMUL", 0x21, 0xFFF000FF), ("PDIVMOD", 0x22, 0xFF0000FF), ("PPOW", 0x23, 0xFFF000FF),
     ("PPOWMOD", 0x24, 0xFF0000FF), ("PDERIV", 0x25, 0xFFFF00FF), ("PSQRT", 0x26, 0xFFFF00FF),
     ("PMONIC", 0x27, 0xFFFF00FF), ("PGCD", 0x28, 0xFFF000FF), ("PMOV", 0x29, 0xFFFF00FF), ("PSETC", 0x2A, 0x00FF00FF),
     ("PGETC", 0x2B, 0x00FF00FF),
     ("SFF", 0x30, 0xFFFF0FFF), ("DDF", 0x31, 0xFFFF0FFF), ("EDF", 0x32, 0x00FF0FFF), ("FACTOR", 0x33, 0xFFFF0FFF),
     ("LCNT", 0x34, 0xFFFFF0FF), ("LGETP", 0x35, 0x00FFF0FF), ("LGETN", 0x36, 0x00FFF0FF),
     ("GHASH", 0x40, 0xF00000FF), ("GCMENC", 0x41, 0x000000FF), ("GCMDEC", 0x42, 0x000000FF),
     ("RECOVER", 0x50, 0xFF0000FF), ("FORGE", 0x51, 0xF00000FF)] := by decide

/-! ## Words written out from R70 and R73, one for each constructor -/

theorem test_decode_system_words :
    decode 0x00000000 = .ok .nop ∧ decode 0x00000001 = .ok .halt ∧ decode 0x04000102 = .ok (.csrr 1 4) ∧
    decode 0x04003003 = .ok (.csrw 4 3) := by decide

theorem test_decode_field_words :
    decode 0x00021310 = .ok (.fadd 3 1 2) ∧ decode 0x00010211 = .ok (.fmul 2 0 1) ∧
    decode 0x00065412 = .ok (.fmuln 4 5 6) ∧ decode 0x00008713 = .ok (.fbrev 7 8) ∧
    decode 0x0000A914 = .ok (.finv 9 10) ∧ decode 0x000DCB15 = .ok (.fdiv 11 12 13) ∧
    decode 0x0001FE16 = .ok (.fpow 14 15 1) ∧ decode 0x00003217 = .ok (.fsqrt 2 3) ∧
    decode 0x00003418 = .ok (.fmov 4 3) ∧ decode 0xE1000519 = .ok (.fli 5 0xE1) := by decide

theorem test_decode_polynomial_words :
    decode 0x00010220 = .ok (.padd 2 0 1) ∧ decode 0x00054321 = .ok (.pmul 3 4 5) ∧
    decode 0x00310222 = .ok (.pdivmod 2 3 0 1) ∧ decode 0x00010223 = .ok (.ppow 2 0 1) ∧
    decode 0x00210324 = .ok (.ppowmod 3 0 1 2) ∧ decode 0x00000125 = .ok (.pderiv 1 0) ∧
    decode 0x00002126 = .ok (.psqrt 1 2) ∧ decode 0x00004327 = .ok (.pmonic 3 4) ∧
    decode 0x00010228 = .ok (.pgcd 2 0 1) ∧ decode 0x00001729 = .ok (.pmov 7 1) ∧
    decode 0x0200102A = .ok (.psetc 0 1 2) ∧ decode 0x0500432B = .ok (.pgetc 3 4 5) := by decide

theorem test_decode_factorization_words :
    decode 0x00006030 = .ok (.sff 6) ∧ decode 0x00007031 = .ok (.ddf 7) ∧ decode 0x03008032 = .ok (.edf 8 3) ∧
    decode 0x00009033 = .ok (.factor 9) ∧ decode 0x00000A34 = .ok (.lcnt 10) ∧ decode 0x01000135 = .ok (.lgetp 1 1) ∧
    decode 0xFF000236 = .ok (.lgetn 2 255) := by decide

theorem test_decode_gcm_and_forgery_words :
    decode 0x01301240 = .ok (.ghash 2 3 1 0 1) ∧ decode 0x32510441 = .ok (.gcmenc 4 5 0 1 2 3) ∧
    decode 0x34510642 = .ok (.gcmdec 6 5 0 1 4 3) ∧ decode 0x00904850 = .ok (.recover 8 9 4 0) ∧
    decode 0x07968A51 = .ok (.forge 10 8 9 6 7) := by decide

/-- V30 to V41: the illegal words, with the case of R74 each falls under. -/
theorem test_decode_refuses_illegal_words :
    decode 0x00000100 = .error .reservedField ∧ decode 0x00100001 = .error .reservedField ∧
    decode 0xFFFFFFFF = .error .unknownOpcode ∧ decode 0x00000037 = .error .unknownOpcode ∧
    decode 0x06000002 = .error .sideCondition ∧ decode 0x05000003 = .error .sideCondition ∧
    decode 0x04000103 = .error .reservedField ∧ decode 0x00110211 = .error .reservedField ∧
    decode 0x00513522 = .error .sideCondition ∧ decode 0x00000130 = .error .reservedField ∧
    decode 0x04A30A40 = .error .sideCondition ∧ decode 0x00804850 = .error .sideCondition := by decide

theorem test_table_word_of_fmul : decodeTableWord 32 0x00010211 = some (.fmul 2 0 1) := by decide

/-- R78's example line. -/
theorem test_asm_of_fmul : (Instr.fmul 2 0 1).asm = "FMUL F2, F0, F1" := by decide

/-! ## Small states -/

/-- Small legal parameters. -/
def tiny : Params := { maxCoef := 4, maxBytes := 16, cmSize := 4 }

/-- A running machine right after a start from reset, with the given words in command memory from index 0. -/
def boot (words : List Word32) : State :=
  start { State.afterReset tiny 0 0 with cm := (List.range words.length).zip words }

/-- Whether an outcome is a next state with a property. -/
def nextHas (o : Outcome) (f : State → Bool) : Bool :=
  match o with
  | .next t => f t
  | .fault _ | .refused _ => false

/-- `blk:` of R12: a word from its bytes, byte 0 first. -/
def blk (b : Bytes) : Word := wordOfBytes b

/-- The message bytes of R237's example. -/
def ct18 : Bytes := [0x00, 0x11, 0x22, 0x33, 0x44, 0x55, 0x66, 0x77, 0x88, 0x99, 0xaa, 0xbb, 0xcc, 0xdd, 0xee, 0xff, 0x01, 0x02]

/-- `boot` with a larger byte capacity. -/
def bootBytes (words : List Word32) : State := { boot words with params := { tiny with maxBytes := 64 } }

/-! ## Single steps -/

/-- R108's example. -/
theorem test_fadd : nextHas (step (((boot [0x00010210]).setF 0
      (blk [0x66, 0xe9, 0x4b, 0xd4, 0xef, 0x8a, 0x2c, 0x3b, 0x88, 0x4c, 0xfa, 0x59, 0xca, 0x34, 0x2b, 0x2e])).setF 1
      (blk [0x03, 0x88, 0xda, 0xce, 0x60, 0xb6, 0xa3, 0x92, 0xf3, 0x28, 0xc2, 0xb9, 0x71, 0xb2, 0xfe, 0x78])))
    (fun t => t.getF 2 ==
      blk [0x65, 0x61, 0x91, 0x1a, 0x8f, 0x3c, 0x8f, 0xa9, 0x7b, 0x64, 0x38, 0xe0, 0xbb, 0x86, 0xd5, 0x56] && t.pc == 1)
    = true := by decide

/-- R109's example: x times x^127. -/
theorem test_fmul : nextHas (step (((boot [0x00010211]).setF 0 0x40).setF 1 (0x01#128 <<< 120)))
    (fun t => t.getF 2 == 0xe1) = true := by decide

/-- V43, V42: (x+1)^2 and x times x^127 in natural ordering. -/
theorem test_fmuln : feMuln 3 3 = 5 ∧ feMuln 2 (1#128 <<< 127) = 0x87 := by decide

/-- R111's example. -/
theorem test_fbrev : nextHas (step ((boot [0x00000113]).setF 0
      (blk [0x01, 0x23, 0x45, 0x67, 0x89, 0xab, 0xcd, 0xef, 0x00, 0x11, 0x22, 0x33, 0x44, 0x55, 0x66, 0x77])))
    (fun t => t.getF 1 ==
      blk [0x80, 0xc4, 0xa2, 0xe6, 0x91, 0xd5, 0xb3, 0xf7, 0x00, 0x88, 0x44, 0xcc, 0x22, 0xaa, 0x66, 0xee]) = true := by
  decide

/-- R112's example: x times the stated inverse is one. -/
theorem test_inverse_of_x : feMul 0x40
    (blk [0xc2, 0, 0, 0, 0, 0, 0, 0, 0, 0, 0, 0, 0, 0, 0, 0x01]) = 0x80 := by decide

/-- R114's corner cases: an exponent is an integer, and the power 0 of zero is one. -/
theorem test_fpow : fePow 0x40 8 = 0x8000 ∧ fePow 0 0 = 0x80 := by decide

/-- R115's example squared gives back x. -/
theorem test_root_of_x : feMul
    (blk [0x25, 0xb6, 0xdb, 0x6d, 0xb6, 0xdb, 0x6d, 0xb6, 0x49, 0x24, 0x92, 0x49, 0x24, 0x92, 0x49, 0x24])
    (blk [0x25, 0xb6, 0xdb, 0x6d, 0xb6, 0xdb, 0x6d, 0xb6, 0x49, 0x24, 0x92, 0x49, 0x24, 0x92, 0x49, 0x24]) = 0x40 := by
  decide

/-- R112, R113: a zero divisor is DivisionByZero, the destination kept. -/
theorem test_finv_of_zero : nextHas (step ((boot [0x00000114]).setF 1 7))
    (fun t => t.getF 1 == 7 && t.ecode == 1 && t.pc == 0 && t.status == 3) = true := by decide

/-- R117's example and R79's `FONE`. -/
theorem test_fli : nextHas (step (boot [encode (Instr.fone 5)])) (fun t => t.getF 5 == 0x80) = true := by decide

/-- R281's example. -/
theorem test_halt : nextHas (step { boot [0, 0, 0, 0x00000001] with pc := 3, status := 5 })
    (fun t => t.status == 6 && t.pc == 3) = true := by decide

/-- R282's examples: `STATUS` with `AUTH` set, and `EDFBUDGET` after reset. -/
theorem test_csrr : nextHas (step { boot [0x00000002] with status := 5 }) (fun t => t.getF 0 == 5) = true ∧
    nextHas (step (boot [0x04000102])) (fun t => t.getF 1 == 256) = true := by decide

/-- R283's example, with a high source bit that is ignored. -/
theorem test_csrw : nextHas (step ((boot [0x04003003]).setF 3 ((1#128 <<< 40) ||| 16)))
    (fun t => t.edfbudget == 16) = true := by decide

/-- R308: the step at `CMSIZE`. -/
theorem test_fetch_out_of_range : nextHas (step { boot [] with pc := 4 })
    (fun t => t.ecode == 7 && t.epc == 4 && t.einfo == 0 && t.status == 3) = true := by decide

/-- R306: an illegal word is in `EINFO`. -/
theorem test_illegal_command : nextHas (step (boot [0xFFFFFFFF]))
    (fun t => t.ecode == 5 && t.einfo == 0xFFFFFFFF && t.epc == 0) = true := by decide

/-- R155's example. -/
theorem test_padd : nextHas (step (((boot [0x00010220]).setP 0 [0xc0, 0x80]).setP 1 [0x40, 0x80]))
    (fun t => t.getP 2 == [0x80]) = true := by decide

/-- R156's example, and CapacityExceeded at five coefficients. -/
theorem test_pmul : nextHas (step (((boot [0x00010221]).setP 0 [0xc0, 0x80]).setP 1 [0x40, 0x80]))
      (fun t => t.getP 2 == [0x60, 0x80, 0x80]) = true ∧
    nextHas (step (((boot [0x00010221]).setP 0 [0xc0, 0, 0x80]).setP 1 [0x40, 0, 0x80]))
      (fun t => t.getP 2 == [0] && t.ecode == 6) = true := by decide

/-- R158's example. -/
theorem test_ppow : nextHas (step (((boot [0x00010223]).setP 0 [0xc0, 0x80]).setF 1 3))
    (fun t => t.getP 2 == [0xf0, 0xa0, 0xc0, 0x80]) = true := by decide

/-- R160's example, the top coefficients left out. -/
theorem test_pderiv : nextHas (step ((boot [0x00000125]).setP 0 [0x01, 0x02, 0x04, 0x08]))
    (fun t => t.getP 1 == [0x02, 0x00, 0x08]) = true := by decide

/-- R161: a nonzero odd-position coefficient. -/
theorem test_psqrt_precondition : nextHas (step ((boot [0x00000126]).setP 0 [0, 0x80]))
    (fun t => t.ecode == 2 && t.getP 1 == [0]) = true := by decide

/-- R165's example; a zero written to the leading coefficient shortens; the index `MAXCOEF` exceeds the capacity. -/
theorem test_psetc : nextHas (step ((boot [0x0200102A]).setF 1 0x80)) (fun t => t.getP 0 == [0, 0, 0x80]) = true ∧
    nextHas (step ((boot [0x0200102A]).setP 0 [1, 2, 3])) (fun t => t.getP 0 == [1, 2]) = true ∧
    nextHas (step ((boot [0x0400102A]).setF 1 0x80)) (fun t => t.ecode == 6) = true := by decide

/-- R166: an index beyond the length reads zero. -/
theorem test_pgetc : nextHas (step (((boot [0x0000032B]).setP 0 [0xc0, 0x80]))) (fun t => t.getF 3 == 0xc0) = true ∧
    nextHas (step (((boot [0x0200032B]).setP 0 [0xc0, 0x80]).setF 3 9)) (fun t => t.getF 3 == 0) = true := by decide

/-- R197: the degree named is the polynomial's, with budget 0; a degree that does not divide it. -/
theorem test_edf : nextHas (step { (boot [0x01000032]).setP 0 [0xc0, 0x80] with edfbudget := 0 })
      (fun t => t.results == [([0xc0, 0x80], 1)] && t.drawn == 0) = true ∧
    nextHas (step ((boot [0x02000032]).setP 0 [0xc0, 0x80])) (fun t => t.ecode == 2) = true := by decide

/-- R197's example with its six draws. -/
theorem test_edf_draw : edfDraw (fun n => if n = 5 then 0x80 else 0) 4 2 = polyX ∧
    edfDraw (fun n => if n = 2 then 0x80 else 0) 2 2 = polyOne ∧ edfDraw (fun _ => 0) 0 2 = polyZero := by decide

/-- R199 to R201, with R195's example list. -/
theorem test_list_commands :
    nextHas (step { boot [0x00000034] with results := [([0xc0, 0x40, 0x80], 1), ([0x60, 0x80, 0x80], 2)] })
      (fun t => t.getF 0 == 2) = true ∧
    nextHas (step { boot [0x01000135] with results := [([0xc0, 0x40, 0x80], 1), ([0x60, 0x80, 0x80], 2)] })
      (fun t => t.getP 1 == [0x60, 0x80, 0x80]) = true ∧
    nextHas (step { boot [0x01000236] with results := [([0xc0, 0x40, 0x80], 1), ([0x60, 0x80, 0x80], 2)] })
      (fun t => t.getF 2 == 2) = true ∧
    nextHas (step { boot [0x02000236] with results := [([0xc0, 0x40, 0x80], 1), ([0x60, 0x80, 0x80], 2)] })
      (fun t => t.ecode == 2) = true := by decide

/-- R237's example. -/
theorem test_ghash : nextHas (step ((((bootBytes [0x01301240]).setF 1
      (blk [0x00, 0x01, 0x02, 0x03, 0x04, 0x05, 0x06, 0x07, 0x08, 0x09, 0x0a, 0x0b, 0x0c, 0x0d, 0x0e, 0x0f])).setB 0
        [0x68, 0x64, 0x72]).setB 1 ct18))
    (fun t => t.getF 2 ==
        blk [0x98, 0xc4, 0x26, 0x2c, 0xdd, 0xdf, 0xe1, 0x94, 0x08, 0x22, 0x72, 0x5d, 0x1a, 0x6c, 0xd6, 0xa0] &&
      t.getF 3 == blk [0, 0, 0, 0, 0, 0, 0, 0x18, 0, 0, 0, 0, 0, 0, 0, 0x90]) = true := by decide

/-- The toy cipher XK of 43_ghash_gcm.md: key xor block. -/
def xk (k x : Word) : Word := k ^^^ x

/-- R238's example. -/
theorem test_gcm_encrypt : gcmEncrypt xk
      (blk [0x00, 0x01, 0x02, 0x03, 0x04, 0x05, 0x06, 0x07, 0x08, 0x09, 0x0a, 0x0b, 0x0c, 0x0d, 0x0e, 0x0f])
      [0xa0, 0xa1, 0xa2, 0xa3, 0xa4, 0xa5, 0xa6, 0xa7, 0xa8, 0xa9, 0xaa, 0xab]
      [0xa0, 0xb1, 0x82, 0x93, 0xe4, 0xf5, 0xc6, 0xd7, 0x28, 0x39, 0x0a, 0x1b, 0xc0, 0xd0, 0xe0, 0xf2, 0xa1, 0xa2]
      [0x68, 0x64, 0x72] =
    (ct18, blk [0x38, 0x64, 0x86, 0x8c, 0x7d, 0x7f, 0x41, 0x34, 0xa8, 0x82, 0xd2, 0xfd, 0x16, 0x61, 0xd8, 0xae]) := by
  decide

/-- The last step of R266: `FORGE F10, F8, F9, B6, B7`. -/
theorem test_forge : nextHas (step (((((bootBytes [0x07968A51]).setF 8
      (blk [0x00, 0x01, 0x02, 0x03, 0x04, 0x05, 0x06, 0x07, 0x08, 0x09, 0x0a, 0x0b, 0x0c, 0x0d, 0x0e, 0x0f])).setF 9
      (blk [0xa0, 0xa0, 0xa0, 0xa0, 0xa0, 0xa0, 0xa0, 0xa0, 0xa0, 0xa0, 0xa0, 0xa0, 0x0c, 0x0d, 0x0e, 0x0e])).setB 6
        [0x68, 0x64, 0x72]).setB 7 ct18))
    (fun t => t.getF 10 ==
      blk [0x38, 0x64, 0x86, 0x8c, 0x7d, 0x7f, 0x41, 0x34, 0xa8, 0x82, 0xd2, 0xfd, 0x16, 0x61, 0xd8, 0xae]) = true := by
  decide

/-- R266: the message polynomial of message 1. -/
theorem test_msg_poly : msgPoly []
      [0xd3, 0xc9, 0xd8, 0xd4, 0xc5, 0xc5, 0xce, 0x80, 0xc2, 0xd9, 0xd4, 0xc5, 0x2c, 0x60, 0x7d, 0x6a] =
    [0, blk [0, 0, 0, 0, 0, 0, 0, 0, 0, 0, 0, 0, 0, 0, 0, 0x80],
      blk [0xd3, 0xc9, 0xd8, 0xd4, 0xc5, 0xc5, 0xce, 0x80, 0xc2, 0xd9, 0xd4, 0xc5, 0x2c, 0x60, 0x7d, 0x6a]] := by decide

/-- R76: the register after 15 is 0. -/
theorem test_register_run_wraps : regAfter 15 1 = 0 ∧ regAfter 12 5 = 1 := by decide

/-- R35: a host write is seen by the fetch; one made while running is not. -/
theorem test_host_writes_cm :
    (hostAct (.writeCM 2 0x11) (State.afterReset tiny 0 0)).cmRead 2 = 0x11 ∧
    (hostAct (.writeCM 2 0x11) (boot [0, 0, 7])).cmRead 2 = 7 := by decide

/-- The word placed at the fetch of the reset state is the one the next step runs (log entry 5). -/
theorem test_placed_word_runs : nextHas (step (State.reset.withFetchWord 32 0xE1000519))
    (fun t => t.getF 5 == 0xe1 && t.pc == 1) = true := by decide

/-! ## Runs through the field inverse of one

The kernel takes long over an inversion, so the runs that need one use the element one, whose powers are known. -/

theorem fePowLoop_one (n e : Nat) : fePowLoop n fieldOne fieldOne e = fieldOne := by
  have h : feMul fieldOne fieldOne = fieldOne := by decide
  induction n generalizing e with
  | zero => rfl
  | succ n ih => unfold fePowLoop; simp [h, ih]

theorem fePow_one (e : Nat) : fePow fieldOne e = fieldOne := by
  unfold fePow; exact fePowLoop_one _ e

theorem feInv_one : feInv fieldOne = .ok fieldOne := by
  have h : fieldOne ≠ fieldZero := by decide
  simp only [feInv, h, if_false]; rw [fePow_one]

theorem feDiv_one_one : feDiv fieldOne fieldOne = .ok fieldOne := by
  have h : feMul fieldOne fieldOne = fieldOne := by decide
  simp only [feDiv, feInv_one, h]

theorem feSqrt_one : feSqrt fieldOne = fieldOne := by unfold feSqrt; rw [fePow_one]

/-- A polynomial whose leading coefficient is one is already monic. -/
theorem pMonic_of_lc_one {p q : Poly} (h0 : p ≠ polyZero) (h1 : lc p = fieldOne)
    (h2 : canon (p.map (fun c => feMul c fieldOne)) = q) : pMonic p = .ok q := by
  simp only [pMonic, h0, if_false, h1, feInv_one, h2]

/-- X + 1. -/
def xPlusOne : Poly := [0x80, 0x80]
/-- X^2 + 1, the square of X + 1. -/
def xSquaredPlusOne : Poly := [0x80, 0, 0x80]

theorem pMonic_one : pMonic polyOne = .ok polyOne :=
  pMonic_of_lc_one (by decide) (by decide) (by decide)
theorem pMonic_xPlusOne : pMonic xPlusOne = .ok xPlusOne :=
  pMonic_of_lc_one (by decide) (by decide) (by decide)
theorem pMonic_xSquaredPlusOne : pMonic xSquaredPlusOne = .ok xSquaredPlusOne :=
  pMonic_of_lc_one (by decide) (by decide) (by decide)

theorem pDivmod_xPlusOne_one : pDivmod xPlusOne polyOne = .ok (xPlusOne, polyZero) := by
  have h1 : divLoop polyOne 2 polyZero xPlusOne = divLoop polyOne 1 [0, 0x80] polyOne := by
    rw [divLoop_round (m := polyOne) (q := polyZero) (r := xPlusOne) 1 (by decide) (by decide) feDiv_one_one]
    congr 1
  have h2 : divLoop polyOne 1 [0, 0x80] polyOne = divLoop polyOne 0 xPlusOne polyZero := by
    rw [divLoop_round (m := polyOne) (q := [0, 0x80]) (r := polyOne) 0 (by decide) (by decide) feDiv_one_one]
    congr 1
  have h3 : polyOne ≠ polyZero := by decide
  simp only [pDivmod, h3, if_false]
  exact (h1.trans h2).trans (divLoop_stop _ (.inr rfl))

theorem pGcd_with_zero {p : Poly} (h : pMonic p = .ok p) : pGcd p polyZero = .ok p :=
  (pGcd_of_le (by simp [deg, polyZero]) (gcdLoop_zero _ _)).trans h

theorem squareFree_xPlusOne : SquareFree xPlusOne := by
  have hr : rem xPlusOne polyOne = .ok polyZero := by rw [rem, pDivmod_xPlusOne_one]; rfl
  rw [SquareFree, show pDeriv xPlusOne = polyOne by decide]
  exact (pGcd_of_le (by decide) ((gcdLoop_round _ (by decide) hr).trans (gcdLoop_zero _ _))).trans pMonic_one

theorem sff_xPlusOne (n : Nat) : sffLevels (n + 1) xPlusOne = .ok [(xPlusOne, 1)] := by
  have hq : quo xPlusOne polyOne = .ok xPlusOne := by rw [quo, pDivmod_xPlusOne_one]; rfl
  have g1 : pGcd xPlusOne (pDeriv xPlusOne) = .ok polyOne := squareFree_xPlusOne
  have g2 : pGcd polyOne (pDeriv polyOne) = .ok polyOne := by
    rw [show pDeriv polyOne = polyZero by decide]; exact pGcd_with_zero pMonic_one
  exact sffLevels_last n ((sffLoop_round _ g1 (by decide) hq).trans (sffLoop_stop _ g2))

theorem sff_xSquaredPlusOne : sff xSquaredPlusOne = .ok [(xPlusOne, 2)] := by
  have g : pGcd xSquaredPlusOne (pDeriv xSquaredPlusOne) = .ok xSquaredPlusOne := by
    rw [show pDeriv xSquaredPlusOne = polyZero by decide]; exact pGcd_with_zero pMonic_xSquaredPlusOne
  have r : pSqrt xSquaredPlusOne = .ok xPlusOne := by
    have ho : (oddCoeffs xSquaredPlusOne).any (fun c => c != 0) = false := by decide
    have he : evenCoeffs xSquaredPlusOne = [fieldOne, fieldOne] := by decide
    simp only [pSqrt, ho, he, List.map, feSqrt_one]; decide
  exact sffLevels_square 3 (sffLoop_stop _ g) (by decide) r (sff_xPlusOne 2)

theorem ddf_xPlusOne : ddf xPlusOne = .ok [(xPlusOne, 1)] := by
  have hd : deg xPlusOne = 1 := by decide
  have hn : ¬ 2 * 1 ≤ 1 := by decide
  have h : ddfLoop xPlusOne.length 1 xPlusOne [] = .ok ([], xPlusOne) := by
    rw [show xPlusOne.length = 1 + 1 from rfl]; simp only [ddfLoop, hd, hn, if_false]
  have h0 : xPlusOne ≠ polyZero := by decide
  simp only [ddf, h0, if_false, h, hd, le_refl, if_true, List.nil_append]

/-- A linear factor of multiplicity two, found without a draw. -/
theorem test_factor_of_a_square (rand : Nat → Word) (budget n : Nat) :
    factor rand budget n xSquaredPlusOne = (.ok [(xPlusOne, 2)], n) :=
  (factor_of_stages pMonic_xSquaredPlusOne sff_xSquaredPlusOne).trans
    (factorSquares_cons ddf_xPlusOne (factorDegrees_cons (factorPart_linear (by decide)) rfl) rfl)

theorem test_factor_of_x_plus_one (rand : Nat → Word) (budget n : Nat) :
    factor rand budget n xPlusOne = (.ok [(xPlusOne, 1)], n) :=
  (factor_of_stages pMonic_xPlusOne (sff_xPlusOne 2)).trans
    (factorSquares_cons ddf_xPlusOne (factorDegrees_cons (factorPart_linear (by decide)) rfl) rfl)

theorem test_factor_of_one (rand : Nat → Word) (budget n : Nat) : factor rand budget n polyOne = (.ok [], n) := by
  have g : pGcd polyOne (pDeriv polyOne) = .ok polyOne := by
    rw [show pDeriv polyOne = polyZero by decide]; exact pGcd_with_zero pMonic_one
  exact factor_of_stages pMonic_one (sffLevels_last 1 (sffLoop_stop _ g))

/-- Message 1 of the recovery test: one ciphertext byte 0x80, tag one. -/
def msgOne : Message := { ad := [], ct := [0x80], tag := 0x80 }
/-- Message 2: one ciphertext byte zero, tag zero. -/
def msgTwo : Message := { ad := [], ct := [0], tag := 0 }

/-- R263's corner case: a third message equal to the first passes for the first candidate. -/
theorem test_recover (rand : Nat → Word) (budget n : Nat) :
    recover rand budget n msgOne msgTwo msgOne = (.ok (0x80, candidateMask msgOne 0x80), n) := by
  have hf : recoverPoly msgOne msgTwo = xSquaredPlusOne := by decide
  have hm : pMonic (recoverPoly msgOne msgTwo) = .ok xSquaredPlusOne := by rw [hf]; exact pMonic_xSquaredPlusOne
  have hp : candidatePasses msgOne msgOne (coeffAt xPlusOne 0) = true := by decide
  rw [recover_of_stages hm (test_factor_of_a_square rand budget n), recoverSearch_found (by decide) hp,
    show coeffAt xPlusOne 0 = 0x80 from rfl]

/-- Two messages with the same blocks and tags that differ: no root (V115's kind). -/
theorem test_recover_no_root (rand : Nat → Word) (budget n : Nat) :
    recover rand budget n { msgTwo with tag := 0x80 } msgTwo msgTwo = (.error .noRootFound, n) := by
  have hf : recoverPoly { msgTwo with tag := 0x80 } msgTwo = polyOne := by decide
  have hm : pMonic (recoverPoly { msgTwo with tag := 0x80 } msgTwo) = .ok polyOne := by rw [hf]; exact pMonic_one
  exact recover_of_stages hm (test_factor_of_one rand budget n)

/-! ## Witnesses

One theorem for each statement with hypotheses: a concrete state and operands that meet them, each clause at a boundary of its range. -/

/-- The invariant from its clauses, each of which evaluates. -/
theorem inv_of_clauses {s : State} (h : s.params.legal ∧ (∀ r : Reg, FitsPolyReg s.params (s.getP r)) ∧
    (∀ r : Reg, (s.getB r).length ≤ s.params.maxBytes) ∧ (∀ e ∈ s.results, Canonical e.1) ∧
    statusReserved s.status = 0 ∧ s.ecode.toNat ≤ 7 ∧ (s.ecode ≠ 0 ↔ statusState s.status = stError) ∧
    (statusState s.status ≠ stError → s.epc = 0 ∧ s.einfo = 0) ∧
    (s.ecode ≠ ErrorKind.illegalCommand.code → s.einfo = 0) ∧ s.cm.wf = true ∧ ∀ e ∈ s.cm, e.1 < s.params.cmSize) :
    Inv s :=
  ⟨h.1, h.2.1, h.2.2.1, h.2.2.2.1, h.2.2.2.2.1, h.2.2.2.2.2.1, h.2.2.2.2.2.2.1, h.2.2.2.2.2.2.2.1,
    h.2.2.2.2.2.2.2.2.1, h.2.2.2.2.2.2.2.2.2.1, h.2.2.2.2.2.2.2.2.2.2⟩

/-- A running machine: a linear, a second linear, a square and a constant polynomial; the field values 0, one, 3; a list of one entry; the words of `NOP`, `HALT`, an illegal word and `FADD F2, F0, F1`. -/
def rich : State :=
  { (((((boot [0x00000000, 0x00000001, 0xFFFFFFFF, 0x00010210]).setP 0 [0xc0, 0x80]).setP 1 [0x40, 0x80]).setP 2
      [0xc0, 0, 0x80]).setP 4 [0x03]) with results := [([0xc0, 0x80], 1)] }.setF 1 0x80 |>.setF 2 3

theorem rich_inv : Inv rich := inv_of_clauses (by decide)
theorem rich_list_fits : ListFits rich := by decide
theorem rich_running : rich.running = true := by decide

/-- What the registers of `rich` hold. -/
theorem rich_values : rich.getP 0 = [0xc0, 0x80] ∧ rich.getP 1 = [0x40, 0x80] ∧ rich.getP 2 = [0xc0, 0, 0x80] ∧
    rich.getP 3 = polyZero ∧ rich.getP 4 = [0x03] ∧ rich.getF 0 = 0 ∧ rich.getF 1 = 0x80 ∧ rich.getF 2 = 3 := by
  decide

theorem witness_DecodeAndEncodeAreInverse :
    (Instr.pdivmod 2 3 0 1).wf = true ∧ decode 0x00310222 = .ok (.pdivmod 2 3 0 1) := by decide

theorem witness_IllegalWordsAreTheThreeCases : decode 0xFFFFFFFF = .error .unknownOpcode ∧
    { rich with pc := 2 }.running = true ∧ { rich with pc := 2 }.pc.toNat < rich.params.cmSize ∧
    { rich with pc := 2 }.cmRead 2 = 0xFFFFFFFF := by decide

theorem witness_StepRunsTheDecodedCommand : { rich with pc := 3 }.running = true ∧
    { rich with pc := 3 }.pc.toNat < rich.params.cmSize ∧ decode ({ rich with pc := 3 }.cmRead 3) = .ok (.fadd 2 0 1) := by
  decide

/-- Each clause: not running; `pc` at `CMSIZE`; an illegal word; a command at the last index. -/
theorem witness_SequencerStep : statusState (State.afterReset tiny 0 0).status ≠ 1 ∧
    ({ rich with pc := 4 }.running = true ∧ rich.params.cmSize ≤ { rich with pc := 4 }.pc.toNat) ∧
    ({ rich with pc := 2 }.pc.toNat < rich.params.cmSize ∧
      decode ({ rich with pc := 2 }.cmRead 2) = .error .unknownOpcode) ∧
    ({ rich with pc := 3 }.pc.toNat < rich.params.cmSize ∧
      decode ({ rich with pc := 3 }.cmRead 3) = .ok (.fadd 2 0 1)) := by decide

theorem witness_ErrorEntryIsPrecise : { rich with pc := 4 }.running = true ∧
    nextHas (step { rich with pc := 4 }) (fun t => statusState t.status == 3) = true := by decide

/-- The four clauses: a `RECOVER` that finds no root, an `EDF` without budget, an ill-formed term, and any command. -/
theorem witness_ErrorKindsNameTheirCommands : rich.running = true ∧ rich.ecode = 0 ∧
    (∃ t, exec (.recover 8 9 4 0) ((((rich.setF 4 0x80).setB 1 [0]).setB 3 [0]).setB 5 [0]) = .next t ∧ t.ecode = 3) ∧
    nextHas (exec (.edf 2 1) { rich with edfbudget := 0 }) (fun t => t.ecode == 4) = true ∧
    nextHas (exec (.csrr 0 6) rich) (fun t => t.ecode == 5) = true ∧
    nextHas (exec .nop rich) (fun t => t.ecode != 7) = true := by
  refine ⟨rich_running, by decide, ?_, by decide, by decide, by decide⟩
  let s := (((rich.setF 4 0x80).setB 1 [0]).setB 3 [0]).setB 5 [0]
  have h : recoverHere s 4 0 = (.error .noRootFound, s.drawn) := by
    have e1 : messageAt s 4 0 0 = { msgTwo with tag := 0x80 } := by decide
    have e2 : messageAt s 4 0 1 = msgTwo := by decide
    have e3 : messageAt s 4 0 2 = msgTwo := by decide
    rw [recoverHere, e1, e2, e3]; exact test_recover_no_root _ _ _
  refine ⟨errorEntry .noRootFound 0 (s.setDrawn s.drawn), ?_, rfl⟩
  show execRecover 8 9 4 0 s = _
  rw [execRecover, if_pos (by decide), h]; rfl

theorem witness_DivisionByZeroExactly : Inv rich ∧ rich.running = true ∧ (Instr.finv 3 0).wf = true ∧
    nextHas (exec (.finv 3 0) rich) (fun t => t.ecode == 1) = true ∧ dividesByZero rich (.finv 3 0) :=
  ⟨rich_inv, rich_running, by decide, by decide, show rich.getF 0 = 0 by decide⟩

/-- Both sides: `PSQRT` of a linear polynomial and of a square, `EDF` with degree 0 and with the degree itself, `LGETP` at the list's length and one below. -/
theorem witness_PreconditionViolationExactly : Inv rich ∧ rich.running = true ∧ (Instr.edf 0 0).wf = true ∧
    (nextHas (exec (.psqrt 1 0) rich) (fun t => t.ecode == 2) = true ∧ violatesPrecondition rich (.psqrt 1 0)) ∧
    (nextHas (exec (.edf 0 0) rich) (fun t => t.ecode == 2) = true ∧ violatesPrecondition rich (.edf 0 0)) ∧
    nextHas (exec (.edf 0 1) rich) (fun t => t.ecode == 0) = true ∧
    (nextHas (exec (.lgetp 0 1) rich) (fun t => t.ecode == 2) = true ∧ violatesPrecondition rich (.lgetp 0 1)) ∧
    nextHas (exec (.lgetp 0 0) rich) (fun t => t.ecode == 0) = true :=
  ⟨rich_inv, rich_running, by decide,
    ⟨by decide, show ∃ i : Nat, i % 2 = 1 ∧ coeffAt (rich.getP 0) i ≠ 0 from ⟨1, by decide⟩⟩,
    ⟨by decide, .inr (.inr (.inl rfl))⟩, by decide,
    ⟨by decide, show rich.results.length ≤ (1 : BitVec 8).toNat by decide⟩, by decide⟩

/-- Both sides at the boundary: an index one below `MAXCOEF` and at `MAXCOEF`. -/
theorem witness_CapacityExceededExactly : Inv rich ∧ ListFits rich ∧ rich.running = true ∧
    nextHas (exec (.psetc 0 1 4) rich) (fun t => t.ecode == 6) = true ∧
    nextHas (exec (.psetc 0 1 3) rich) (fun t => t.ecode == 0) = true :=
  ⟨rich_inv, rich_list_fits, rich_running, by decide, by decide⟩

theorem witness_CommandsWriteOnlyTheirDestinations : rich.running = true ∧
    nextHas (exec (.fadd 2 0 1) rich) (fun t => statusState t.status != 3) = true ∧ (0 : Reg) ∉ destsF (.fadd 2 0 1) ∧
    (2 : Reg) ∉ destsP (.fadd 2 0 1) ∧ (2 : Reg) ∉ destsB (.fadd 2 0 1) ∧ writesList (.fadd 2 0 1) = false ∧
    mayDraw (.fadd 2 0 1) = false := by decide

/-- A command that reads no list, and one that replaces it. -/
theorem witness_CommandsAreIndependentOfWhatTheyDoNotRead :
    nextHas (exec (.fadd 2 0 1) rich) (fun _ => true) = true ∧ (Instr.fadd 2 0 1).mnemonic ≠ .lcnt ∧
    (Instr.fadd 2 0 1).mnemonic ≠ .lgetp ∧ (Instr.fadd 2 0 1).mnemonic ≠ .lgetn ∧
    nextHas (exec (.edf 0 1) rich) (fun t => t.results.length == 1) = true ∧ writesList (.edf 0 1) = true := by decide

/-- A `GCMDEC` that changes `AUTH`, whatever the cipher answers: the flag stands the other way before it. -/
theorem witness_OnlyGcmdecAndResetChangeAuth :
    ∃ s t : State, step s = .next t ∧ statusAuth t.status ≠ statusAuth s.status := by
  let s0 : State := boot [0x34510642]
  let v : Bool := (decryptHere s0 5 0 1 4 3).2
  have hl : ¬ tiny.maxBytes < (decryptHere s0 5 0 1 4 3).1.length := by
    have hb : s0.getB 4 = [] := by decide
    have : (decryptHere s0 5 0 1 4 3).1 = ctrXcrypt Config.encryptBlock (s0.getF 0) (nonceOf (s0.getF 1)) (s0.getB 4) := rfl
    rw [this, hb]; show ¬ tiny.maxBytes < 0; decide
  refine ⟨s0.setAuth (!v), (((s0.setAuth (!v)).setB 6 (decryptHere s0 5 0 1 4 3).1).setAuth v).advance, ?_, ?_⟩
  · have hr : (s0.setAuth (!v)).running = true := by simp [State.running, State.setAuth, s0, boot]
    have hd : decode ((s0.setAuth (!v)).cmRead 0) = .ok (.gcmdec 6 5 0 1 4 3) := by
      show decode 0x34510642 = _; decide
    have hf : fetch (s0.setAuth (!v)) = .ok ((s0.setAuth (!v)).cmRead 0) := fetch_eq_ok.mpr ⟨by decide, rfl⟩
    have hw : writeB (s0.setAuth (!v)) 6 (decryptHere s0 5 0 1 4 3).1 =
        .ok ((s0.setAuth (!v)).setB 6 (decryptHere s0 5 0 1 4 3).1) := writeB_eq_ok.mpr ⟨by
          have : (s0.setAuth (!v)).params = tiny := rfl
          rw [this]; omega, rfl⟩
    simp only [step, hr, if_true, hf, hd]
    show execGcmdec 6 5 0 1 4 3 (s0.setAuth (!v)) = _
    have hh : decryptHere (s0.setAuth (!v)) 5 0 1 4 3 = decryptHere s0 5 0 1 4 3 := rfl
    rw [execGcmdec, hh, hw]; rfl
  · show statusAuth (withAuth (withAuth s0.status (!v)) v) ≠ statusAuth (withAuth s0.status (!v))
    simp

theorem witness_StepKeepsInv : Inv rich ∧ nextHas (step rich) (fun t => t.pc == 1) = true := ⟨rich_inv, by decide⟩

/-- The least and the greatest legal parameters. -/
theorem witness_ResetMeetsInv : ({ maxCoef := 2, maxBytes := 16, cmSize := 1 } : Params).legal ∧ Params.greatest.legal := by
  decide

theorem witness_SchedulesKeepInv : Inv rich := rich_inv

theorem witness_StepKeepsListBounds : Inv rich ∧ ListFits rich ∧ nextHas (step rich) (fun _ => true) = true :=
  ⟨rich_inv, rich_list_fits, by decide⟩

/-- The last index and `CMSIZE` itself. -/
theorem witness_PcNeverExceedsCmSize :
    (Inv { rich with pc := 3 } ∧ nextHas (step { rich with pc := 3 }) (fun t => t.pc == 4) = true) ∧
    Inv { rich with pc := 4 } ∧ nextHas (step { rich with pc := 4 }) (fun t => t.pc == 4) = true :=
  ⟨⟨inv_of_clauses (by decide), by decide⟩, inv_of_clauses (by decide), by decide⟩

theorem witness_ResetValues : hostAct .reset rich = State.afterReset tiny 0 1 := by decide

/-- A running and a stopped machine, an action that is not a reset, and lengths, indexes and register numbers at their bounds. -/
theorem witness_HostPortEffects : rich.running = true ∧ (HostAction.start ≠ .reset) ∧
    (State.afterReset tiny 0 0).running = false ∧ 3 < (State.afterReset tiny 0 0).params.cmSize ∧
    (1 ≤ [(0 : Word)].length ∧ [(0 : Word)].length ≤ tiny.maxCoef) ∧
    hostRead (.csr 5) (State.afterReset tiny 0 0) = some (.word32 0) ∧
    hostRead (.csr 4) (State.afterReset tiny 0 0) = some (.word32 256) := by decide

/-- A stop at `HALT` and a stop at an error. -/
theorem witness_StartRetriesTheLastCommand : rich.ecode = 0 ∧ rich.epc = 0 ∧ rich.einfo = 0 ∧
    nextHas (step { rich with pc := 1 }) (fun t => !t.running) = true ∧
    nextHas (step { rich with pc := 2 }) (fun t => !t.running) = true := by decide

/-- The greatest control register, words of both opcodes, and a running state of `Inv`. -/
theorem witness_SystemCommandsComplete : (5 : BitVec 8).toNat ≤ 5 ∧
    (fieldOp 0x05000102 = 0x02 ∧ decode 0x05000102 = .ok (.csrr 1 5)) ∧
    (fieldOp 0x04003003 = 0x03 ∧ decode 0x04003003 = .ok (.csrw 4 3)) ∧ Inv rich ∧ rich.running = true :=
  ⟨by decide, by decide, by decide, rich_inv, rich_running⟩

theorem witness_FieldTestableProperties : (0x80 : Word) ≠ 0 := by decide

/-- A nonzero and a zero operand, for both commands. -/
theorem witness_InverseAndDivisionComplete : rich.getF 1 ≠ 0 ∧ rich.getF 0 = 0 := by decide

theorem witness_PowerAndRootComplete : feMul 0x80 0x80 = 0x80 := by decide

theorem witness_ProductIsTheConvolution : Canonical xPlusOne ∧ xPlusOne ≠ polyZero ∧ Canonical polyOne ∧ polyOne ≠ polyZero := by
  decide

/-- A zero divisor, a constant one and a linear one; and a pair that meets the premises of uniqueness. -/
theorem witness_DivisionAlgorithm : Canonical polyZero ∧ Canonical polyOne ∧ polyOne ≠ polyZero ∧ Canonical xPlusOne ∧
    xPlusOne ≠ polyZero ∧ pAdd (pMul xPlusOne polyOne) polyZero = xPlusOne := by decide

theorem witness_ModularPowerIsTheRemainderOfThePower : Canonical xPlusOne ∧ xPlusOne ≠ polyZero ∧ Canonical polyZero ∧
    Canonical polyX ∧ polyX ≠ polyZero := by decide

theorem witness_GcdIsTheMonicGreatestDivisor : Canonical xPlusOne ∧ xPlusOne ≠ polyZero ∧ Canonical polyOne ∧
    polyOne ≠ polyZero ∧ rem xPlusOne polyOne = .ok polyZero :=
  ⟨by decide, by decide, by decide, by decide, by rw [rem, pDivmod_xPlusOne_one]; rfl⟩

/-- The index below `MAXCOEF`, a zero coefficient, and the index `MAXCOEF`. -/
theorem witness_CoefficientCommandsComplete : Inv rich ∧ (3 : BitVec 8).toNat < rich.params.maxCoef ∧ rich.getF 0 = 0 ∧
    rich.params.maxCoef ≤ (4 : BitVec 8).toNat ∧ rich.getF 1 ≠ 0 :=
  ⟨rich_inv, by decide, by decide, by decide, by decide⟩

/-- Products and powers of four and of more coefficients, and a zero operand. -/
theorem witness_ProductCommandsComplete : Inv rich ∧
    (rich.getP 2).length + (rich.getP 0).length - 1 = rich.params.maxCoef ∧ rich.getP 3 = polyZero ∧
    (rich.getP 2 ≠ polyZero ∧ rich.params.maxCoef < (rich.getP 2).length + (rich.getP 2).length - 1) ∧
    (rich.getF 2).toNat * deg (rich.getP 0) + 1 = rich.params.maxCoef ∧
    rich.params.maxCoef < (rich.getF 2).toNat * deg (rich.getP 2) + 1 :=
  ⟨rich_inv, by decide, by decide, by decide, by decide, by decide⟩

theorem witness_DivisionCommandsComplete : Inv rich ∧ (5 : Reg) ≠ 6 ∧ rich.getP 0 ≠ polyZero ∧ rich.getP 3 = polyZero :=
  ⟨rich_inv, by decide, by decide, by decide⟩

theorem witness_RootMonicAndGcdCommandsComplete : Inv rich ∧ (∀ i : Nat, i % 2 = 1 → coeffAt (rich.getP 2) i = 0) ∧
    (∃ i : Nat, i % 2 = 1 ∧ coeffAt (rich.getP 0) i ≠ 0) ∧ rich.getP 0 ≠ polyZero ∧ rich.getP 3 = polyZero := by
  refine ⟨rich_inv, ?_, ⟨1, by decide⟩, by decide, by decide⟩
  intro i hi
  rw [show rich.getP 2 = [0xc0, 0, 0x80] by decide]
  match i, hi with
  | 1, _ => rfl
  | i + 3, _ => rfl

theorem witness_SquareFreeStageCompletes : Inv rich ∧ rich.getP 3 = polyZero ∧ rich.getP 0 ≠ polyZero ∧
    isMonic (rich.getP 0) = true :=
  ⟨rich_inv, by decide, by decide, by decide⟩

theorem witness_DistinctDegreeStageCompletes : Inv (rich.setP 5 xPlusOne) ∧ rich.getP 3 = polyZero ∧
    (xPlusOne ≠ polyZero ∧ isMonic xPlusOne = true ∧ SquareFree xPlusOne ∧ deg xPlusOne = 1) ∧
    (rich.setP 5 xPlusOne).getP 5 = xPlusOne ∧ (rich.getP 4 ≠ polyZero ∧ deg (rich.getP 4) = 0) :=
  ⟨inv_of_clauses (by decide), by decide, ⟨by decide, by decide, squareFree_xPlusOne, by decide⟩, by decide, by decide⟩

/-- Each failing precondition, the degree itself, and a proper divisor of the degree with budget 0. -/
theorem witness_EqualDegreeStageWithoutATrial : Inv { rich with edfbudget := 0 } ∧ rich.getP 3 = polyZero ∧
    deg (rich.getP 4) < 1 ∧ (0 : BitVec 8).toNat = 0 ∧ deg (rich.getP 0) % (2 : BitVec 8).toNat ≠ 0 ∧
    deg (rich.getP 0) = (1 : BitVec 8).toNat ∧ (1 : BitVec 8).toNat < deg (rich.getP 2) ∧
    deg (rich.getP 2) % (1 : BitVec 8).toNat = 0 ∧ { rich with edfbudget := 0 }.edfbudget = 0 :=
  ⟨inv_of_clauses (by decide), by decide, by decide, by decide, by decide, by decide, by decide, by decide, by decide⟩

theorem witness_EdfDrawsWithinItsBudget :
    (edf (fun _ => 0) 0 0 [0xc0, 0, 0x80] 1).1 = .error .retryBudgetExceeded ∧
    (edf (fun _ => 0) 0 0 [0xc0, 0x80] 1).1 = .ok [[0xc0, 0x80]] ∧ Inv rich :=
  ⟨by decide, by decide, rich_inv⟩

/-- A degree that is a proper multiple of the one given, and one that is the one given. -/
theorem witness_EdfTrialByTrial : (Canonical [0xc0, 0, 0x80] ∧ 1 ≤ deg [0xc0, 0, 0x80] ∧ deg [0xc0, 0, 0x80] % 1 = 0) ∧
    Canonical [0xc0, 0x80] ∧ 1 ≤ deg [0xc0, 0x80] ∧ deg [0xc0, 0x80] % 1 = 0 := by decide

/-- No polynomial of a higher degree divides a linear one. -/
theorem linear_factor_degree {p : Poly} (h1 : 1 ≤ deg p) (h : rem [0xc0, 0x80] p = .ok polyZero) : deg p = 1 := by
  by_contra hne
  have hlt : deg ([0xc0, 0x80] : Poly) < deg p := by
    have : deg ([0xc0, 0x80] : Poly) = 1 := rfl
    omega
  have h0 : p ≠ polyZero := by rintro rfl; exact absurd h1 (by decide)
  simp only [rem, pDivmod, h0, if_false, divLoop_stop _ (.inl hlt), Except.map, Except.ok.injEq] at h
  exact absurd h (by decide)

theorem witness_EdfKeepsTheProduct : Canonical [0xc0, 0x80] ∧
    edf (fun _ => 0) 0 7 [0xc0, 0x80] 1 = (.ok [[0xc0, 0x80]], 7) ∧ isMonic [0xc0, 0x80] = true ∧
    (∀ p : Poly, Canonical p → IrreduciblePoly p → rem [0xc0, 0x80] p = .ok polyZero → deg p = 1) ∧
    Inv rich ∧ rich.running = true ∧ rich.getP 0 = [0xc0, 0x80] ∧
    nextHas (exec (.edf 0 1) rich) (fun t => statusState t.status != 3) = true :=
  ⟨by decide, by decide, by decide, fun _ _ hi h => linear_factor_degree hi.1 h, rich_inv, rich_running, by decide,
    by decide⟩

theorem witness_FactorOfDegreeAtMostOneCompletes : Inv rich ∧ rich.getP 3 = polyZero ∧
    (rich.getP 4 ≠ polyZero ∧ deg (rich.getP 4) = 0) ∧ deg (rich.getP 0) = 1 :=
  ⟨rich_inv, by decide, by decide, by decide⟩

theorem witness_FactorsMultiplyBack : Canonical xPlusOne ∧ deg xPlusOne = 1 ∧
    factor (fun _ => 0) 0 7 xPlusOne = (.ok [(xPlusOne, 1)], 7) ∧ Inv rich :=
  ⟨by decide, by decide, test_factor_of_x_plus_one _ _ _, rich_inv⟩

theorem witness_FactorStageByStage : Canonical xSquaredPlusOne ∧ xSquaredPlusOne ≠ polyZero ∧ Canonical polyOne ∧
    polyOne ≠ polyZero := by decide

/-- The last entry and the index just beyond it. -/
theorem witness_ListCommandsComplete : Inv rich ∧ ListFits rich ∧ (0 : BitVec 8).toNat < rich.results.length ∧
    rich.results.length ≤ (1 : BitVec 8).toNat :=
  ⟨rich_inv, rich_list_fits, by decide, by decide⟩

theorem witness_RegisterWordPacksItsBytes : (List.replicate 16 (0xAB : Byte)).length = 16 := by decide

/-- The last byte of a short last block, the byte beyond it, and strings within the length bound. -/
theorem witness_BlocksAndLengthBlock : 1 < (ct18.length + 15) / 16 ∧ 16 * 1 + 1 < ct18.length ∧ ¬ 16 * 1 + 2 < ct18.length ∧
    ct18.length < 2 ^ 60 := by decide

theorem witness_CounterModeByteByByte : (List.replicate 12 (0 : Byte)).length = 12 ∧ 17 < ct18.length ∧ 2 ^ 32 - 1 < 2 ^ 32 := by
  decide

/-- Under the toy cipher: a zero and a nonzero hash key, a wrong tag, a changed byte. -/
theorem witness_GcmRoundTrip : hashKey xk 0x80 ≠ 0 ∧ hashKey xk 0 = 0 ∧
    (gcmEncrypt xk 0x80 (List.replicate 12 0) [1] []).1.length = 1 ∧
    (0 : Word) ≠ (gcmEncrypt xk 0x80 (List.replicate 12 0) [1] []).2 ∧
    (0 : Byte) ≠ (gcmEncrypt xk 0x80 (List.replicate 12 0) [1] []).1.getD 0 0 := by decide

theorem witness_GcmCommandsComplete : Inv rich ∧ (2 : Reg) ≠ 3 := ⟨rich_inv, by decide⟩

/-- A `RECOVER` that finds its root, whatever the draws. -/
theorem witness_RecoverIsSound : ∃ t, exec (.recover 8 9 4 0)
      ((((((rich.setF 4 0x80).setF 5 0).setF 6 0x80).setB 1 [0x80]).setB 3 [0]).setB 5 [0x80]) = .next t ∧
    statusState t.status ≠ 3 ∧ (8 : Reg) ≠ 9 ∧ rich.running = true := by
  let s := (((((rich.setF 4 0x80).setF 5 0).setF 6 0x80).setB 1 [0x80]).setB 3 [0]).setB 5 [0x80]
  have h : recoverHere s 4 0 = (.ok (0x80, candidateMask msgOne 0x80), s.drawn) := by
    have e1 : messageAt s 4 0 0 = msgOne := by decide
    have e2 : messageAt s 4 0 1 = msgTwo := by decide
    have e3 : messageAt s 4 0 2 = msgOne := by decide
    rw [recoverHere, e1, e2, e3]; exact test_recover _ _ _
  refine ⟨((s.setF 8 0x80).setF 9 (candidateMask msgOne 0x80)).advance, ?_, ?_, by decide, rich_running⟩
  · show execRecover 8 9 4 0 s = _
    rw [execRecover, if_pos (by decide), h]; rfl
  · show statusState rich.status ≠ 3
    decide

theorem feMul_zero_right (x : Word) : feMul x 0 = 0 := by
  have h : ∀ n : Nat, (mulnRounds (brev8 x) 0 n).1 = 0 := by
    intro n
    induction n with
    | zero => rfl
    | succ n ih => simpa [mulnRounds] using ih
  have h0 : brev8 0 = 0 := by decide
  rw [feMul, h0, feMuln, h, h0]

/-- The combined polynomial not zero; a list with a root that explains the third tag; a constant, which has no root. -/
theorem witness_RecoverTriesEveryRoot : Inv rich ∧ (8 : Reg) ≠ 9 ∧
    recoverPoly msgOne msgTwo = xSquaredPlusOne ∧ xSquaredPlusOne ≠ polyZero ∧
    ((roots [(xPlusOne, 2)]).find? (candidatePasses msgOne msgOne) = some 0x80 ∧ evalAt 0x80 xSquaredPlusOne = 0 ∧
      candidatePasses msgOne msgOne 0x80 = true) ∧
    (polyOne ≠ polyZero ∧ ∀ x : Word, evalAt x polyOne ≠ 0) := by
  refine ⟨rich_inv, by decide, by decide, by decide, by decide, by decide, fun x => ?_⟩
  rw [evalAt, polyOne, List.foldr_cons, List.foldr_nil, feMul_zero_right]; decide

/-- The combined polynomial zero, a nonzero constant, and of degree 1. -/
theorem witness_RecoverOfDegreeAtMostOneCompletes : Inv rich ∧ (8 : Reg) ≠ 9 ∧
    recoverPoly (messageAt rich 4 0 0) (messageAt rich 4 0 1) = polyZero ∧
    recoverPoly (messageAt (rich.setF 4 7) 4 0 0) (messageAt (rich.setF 4 7) 4 0 1) = [7] ∧
    deg (recoverPoly (messageAt (rich.setB 1 [0]) 4 0 0) (messageAt (rich.setB 1 [0]) 4 0 1)) = 1 :=
  ⟨rich_inv, by decide, by decide, by decide, by decide⟩

end Sys2Proof.Tests
end

section
/-! The invariant `Inv` along every run: what each operation on the state does to it, then each command, the step, the host's actions and every schedule (R9, R37, R61). -/

namespace Sys2Proof.Machine

/-! ## What each operation does to the invariant -/

section operations
variable {s : State} (hi : Inv s)
include hi

theorem Inv.setF (r : Reg) (v : Word) : Inv (s.setF r v) := { hi with }

theorem Inv.setP {r : Reg} {p : Poly} (hp : FitsPolyReg s.params p) : Inv (s.setP r p) :=
  { hi with polys := fun q => by rw [setP_getP]; split_ifs; exacts [hp, hi.polys q] }

theorem Inv.setB {r : Reg} {b : Bytes} (hb : b.length ≤ s.params.maxBytes) : Inv (s.setB r b) :=
  { hi with bytes := fun q => by rw [setB_getB]; split_ifs; exacts [hb, hi.bytes q] }

theorem Inv.setResults {z : Factors} (hz : AllCanonical z) : Inv (s.setResults z) :=
  { hi with
    list := fun e he => by
      obtain ⟨f, hf, rfl⟩ := List.mem_map.mp he
      exact hz f hf }

theorem Inv.setAuth (b : Bool) : Inv (s.setAuth b) :=
  { hi with
    reserved := by simpa using hi.reserved
    error := by simpa using hi.error
    cleared := by simpa using hi.cleared }

theorem Inv.setBudget (v : Word32) : Inv (s.setBudget v) := { hi with }

theorem Inv.setDrawn (n : Nat) : Inv (s.setDrawn n) := { hi with }

theorem Inv.setPc (v : Word32) : Inv { s with pc := v } := { hi with }

theorem Inv.advance : Inv s.advance := hi.setPc _

theorem Inv.cmWrite {i : Nat} (w : Word32) (h : i < s.params.cmSize) : Inv (s.cmWrite i w) :=
  { hi with
    cm := Memory.write_wf i w hi.cm
    cmRange := fun e he => by
      rcases Memory.mem_write he with rfl | hm
      exacts [h, hi.cmRange e hm] }

/-- Error entry meets the invariant from any state, since it writes every register the invariant ties to the state ERROR. -/
theorem Inv.errorEntry {k : ErrorKind} {info : Word32} (h : k ≠ .illegalCommand → info = 0) :
    Inv (errorEntry k info s) :=
  { hi with
    reserved := by simpa using hi.reserved
    ecode := (code_range k).2
    error := iff_of_true (by cases k <;> decide : k.code ≠ 0) (statusState_withState _ _)
    cleared := by simp
    einfo := fun hc => h (fun e => hc (by rw [e]; rfl)) }

theorem Inv.start : Inv (start s) :=
  { hi with
    reserved := by simpa using hi.reserved
    ecode := by simp
    error := by simp [stRunning, stError]
    cleared := by simp
    einfo := by simp }

theorem Inv.ecode_eq_zero_of_running (hr : s.running = true) : s.ecode = 0 := by
  have hs : statusState s.status = stRunning := by simpa [State.running] using hr
  by_contra hne
  exact absurd (hs.symm.trans (hi.error.mp hne)) (by decide)

/-- A running machine may halt: outside ERROR the error registers are zero, and they stay so. -/
theorem Inv.halt (hr : s.running = true) : Inv (s.setState stHalted) :=
  have hne : statusState s.status ≠ stError := fun h =>
    absurd (hi.ecode_eq_zero_of_running hr) (hi.error.mpr h)
  { hi with
    reserved := by simpa using hi.reserved
    error := by simp [hi.ecode_eq_zero_of_running hr, stHalted, stError]
    cleared := fun _ => hi.cleared hne }

end operations

/-! ## How a command ends -/

/-- The outcome is a next state that meets the invariant. -/
def EndsInInv (o : Outcome) : Prop := ∃ t : State, o = .next t ∧ Inv t

theorem endsInInv_next {t : State} (h : Inv t) : EndsInInv (.next t) := ⟨t, rfl, h⟩

/-- What a command writes, if it raises no error, meets the invariant. -/
def WritesInv (r : Except ErrorKind State) : Prop := ∀ t : State, r = .ok t → Inv t

theorem writesInv_ok {t : State} (h : Inv t) : WritesInv (.ok t) := by
  rintro _ ⟨⟩; exact h

theorem writesInv_error (k : ErrorKind) : WritesInv (.error k) := nofun

theorem writesInv_bind {α : Type} {r : Except ErrorKind α} {f : α → Except ErrorKind State}
    (h : ∀ a, r = .ok a → WritesInv (f a)) : WritesInv (r.bind f) := by
  cases r with
  | error k => exact writesInv_error k
  | ok a => exact h a rfl

theorem writesInv_map {α : Type} {r : Except ErrorKind α} {f : α → State} (h : ∀ a, r = .ok a → Inv (f a)) :
    WritesInv (r.map f) := by
  cases r with
  | error k => exact writesInv_error k
  | ok a => exact writesInv_ok (h a rfl)

section commands
variable {s : State} (hi : Inv s)
include hi

theorem writesInv_writeP (r : Reg) (p : List Word) : WritesInv (writeP s r p) := by
  intro t ht
  obtain ⟨hp, rfl⟩ := writeP_eq_ok.mp ht
  exact hi.setP ⟨canon_canonical p, hp⟩

theorem writesInv_writeB (r : Reg) (b : Bytes) : WritesInv (writeB s r b) := by
  intro t ht
  obtain ⟨hb, rfl⟩ := writeB_eq_ok.mp ht
  exact hi.setB hb

/-- A command ends within the invariant, in an error or not, as soon as its writes meet it. -/
theorem finish_endsInInv {r : Except ErrorKind State} (h : WritesInv r) : EndsInInv (finish s r) := by
  cases r with
  | ok t => exact endsInInv_next (h t rfl).advance
  | error k => exact endsInInv_next (hi.errorEntry fun _ => rfl)

theorem illegal_endsInInv (w : Word32) : EndsInInv (illegal w s) :=
  endsInInv_next (hi.errorEntry fun h => absurd rfl h)

/-- A command with a side condition: its meaning where the condition holds, IllegalCommand elsewhere. -/
theorem guarded_endsInInv {c : Prop} [Decidable c] {o : Outcome} (w : Word32) (h : EndsInInv o) :
    EndsInInv (if c then o else illegal w s) := by
  split_ifs
  exacts [h, illegal_endsInInv hi w]

theorem finish_setF_endsInInv (r : Reg) (v : Word) : EndsInInv (finish s (.ok (s.setF r v))) :=
  finish_endsInInv hi (writesInv_ok (hi.setF r v))

theorem putF_endsInInv (rd : Reg) (r : Except ErrorKind Word) : EndsInInv (putF s rd r) :=
  finish_endsInInv hi (writesInv_map fun v _ => hi.setF rd v)

/-- R141: whatever polynomial a command computes, its canonical form is what is checked and written. -/
theorem putP_endsInInv (rd : Reg) (r : Except ErrorKind Poly) : EndsInInv (putP s rd r) :=
  finish_endsInInv hi (writesInv_bind fun p _ => writesInv_writeP hi rd p)

theorem putList_endsInInv {r : Except ErrorKind Factors} (h : ∀ z, r = .ok z → AllCanonical z) :
    EndsInInv (putList s r) :=
  finish_endsInInv hi (writesInv_map fun z hz => hi.setResults (h z hz))

/-! ## The commands that are more than one write -/

theorem execPdivmod_endsInInv (rd rc ra rb : Reg) : EndsInInv (execPdivmod rd rc ra rb s) :=
  guarded_endsInInv hi _ <| finish_endsInInv hi <| writesInv_bind fun qr _ => writesInv_bind fun _ ht =>
    writesInv_writeP (writesInv_writeP hi rd qr.1 _ ht) rc qr.2

theorem execPpow_endsInInv (rd ra rb : Reg) : EndsInInv (execPpow rd ra rb s) := by
  unfold execPpow
  split_ifs
  · exact finish_endsInInv hi (writesInv_error _)
  · exact putP_endsInInv hi rd _

theorem execEdf_endsInInv (ra : Reg) (imm : BitVec 8) : EndsInInv (execEdf ra imm s) := by
  refine putList_endsInInv (hi.setDrawn _) fun z hz => ?_
  cases he : (edfHere s (s.getP ra) (immNat imm)).1 with
  | error k => simp [he, Except.map] at hz
  | ok parts =>
    have hparts : ∀ u ∈ parts, Canonical u := edf_canonical (hi.polys ra).1 he
    simp only [he, Except.map, Except.ok.injEq] at hz
    subst hz
    simpa [AllCanonical] using hparts

theorem execFactor_endsInInv (ra : Reg) : EndsInInv (execFactor ra s) :=
  putList_endsInInv (hi.setDrawn _) fun _ hz => factor_canonical (Prod.ext hz rfl)

theorem execLgetp_endsInInv (rd : Reg) (imm : BitVec 8) : EndsInInv (execLgetp rd imm s) :=
  finish_endsInInv hi (writesInv_bind fun e _ => writesInv_writeP hi rd e.1)

theorem execLgetn_endsInInv (rd : Reg) (imm : BitVec 8) : EndsInInv (execLgetn rd imm s) :=
  finish_endsInInv hi (writesInv_map fun _ _ => hi.setF rd _)

theorem execGhash_endsInInv (rd rc ra rb re : Reg) : EndsInInv (execGhash rd rc ra rb re s) :=
  guarded_endsInInv hi _ (finish_endsInInv hi (writesInv_ok ((hi.setF rd _).setF rc _)))

theorem execGcmenc_endsInInv (rd rc ra rb re rf : Reg) : EndsInInv (execGcmenc rd rc ra rb re rf s) :=
  finish_endsInInv hi (writesInv_map fun t ht => (writesInv_writeB hi rd _ t ht).setF rc _)

theorem execGcmdec_endsInInv (rd rc ra rb re rf : Reg) : EndsInInv (execGcmdec rd rc ra rb re rf s) :=
  finish_endsInInv hi (writesInv_map fun t ht => (writesInv_writeB hi rd _ t ht).setAuth _)

theorem execRecover_endsInInv (rd rc ra rb : Reg) : EndsInInv (execRecover rd rc ra rb s) :=
  guarded_endsInInv hi _ <| finish_endsInInv (hi.setDrawn _) <| writesInv_map fun _ _ =>
    ((hi.setDrawn _).setF rd _).setF rc _

/-! ## The step -/

/-- Every command of a running machine has a next state, which meets the invariant. -/
theorem exec_endsInInv (hr : s.running = true) (i : Instr) : EndsInInv (exec i s) := by
  cases i with
  | nop => exact finish_endsInInv hi (writesInv_ok hi)
  | halt => exact endsInInv_next (hi.halt hr)
  | csrr rd csr => exact guarded_endsInInv hi _ (finish_setF_endsInInv hi rd _)
  | csrw csr ra => exact guarded_endsInInv hi _ (finish_endsInInv hi (writesInv_ok (hi.setBudget _)))
  | fadd rd | fmul rd | fmuln rd | fbrev rd | fpow rd | fsqrt rd | fmov rd | fli rd =>
    exact putF_endsInInv hi rd (.ok _)
  | finv rd | fdiv rd => exact putF_endsInInv hi rd _
  | padd rd | pmul rd | ppowmod rd | pderiv rd | psqrt rd | pmonic rd | pgcd rd | pmov rd | psetc rd =>
    exact putP_endsInInv hi rd _
  | pdivmod rd rc ra rb => exact execPdivmod_endsInInv hi rd rc ra rb
  | ppow rd ra rb => exact execPpow_endsInInv hi rd ra rb
  | pgetc rd | lcnt rd | forge rd => exact finish_setF_endsInInv hi rd _
  | sff ra => exact putList_endsInInv hi fun _ hz => sff_canonical (hi.polys ra).1 hz
  | ddf ra => exact putList_endsInInv hi fun _ hz => ddf_canonical (hi.polys ra).1 hz
  | edf ra imm => exact execEdf_endsInInv hi ra imm
  | factor ra => exact execFactor_endsInInv hi ra
  | lgetp rd imm => exact execLgetp_endsInInv hi rd imm
  | lgetn rd imm => exact execLgetn_endsInInv hi rd imm
  | ghash rd rc ra rb re => exact execGhash_endsInInv hi rd rc ra rb re
  | gcmenc rd rc ra rb re rf => exact execGcmenc_endsInInv hi rd rc ra rb re rf
  | gcmdec rd rc ra rb re rf => exact execGcmdec_endsInInv hi rd rc ra rb re rf
  | recover rd rc ra rb => exact execRecover_endsInInv hi rd rc ra rb

theorem step_endsInInv : EndsInInv (step s) := by
  obtain ⟨-, h⟩ | ⟨-, -, h⟩ | ⟨-, -, -, h⟩ | ⟨hr, -, i, -, h⟩ := step_cases s <;> rw [h]
  · exact endsInInv_next hi
  · exact endsInInv_next (hi.errorEntry fun _ => rfl)
  · exact illegal_endsInInv hi _
  · exact exec_endsInInv hi hr i

end commands

/-! ## Reset, the host's actions and schedules -/

/-- R37: right after reset the machine is idle, every register is within its bounds and command memory holds no written word. -/
theorem inv_afterReset {p : Params} (hp : p.legal) (drawn resets : Nat) : Inv (State.afterReset p drawn resets) where
  params := hp
  polys r := by
    have hz : (State.afterReset p drawn resets).getP r = polyZero := by
      simp [State.getP, State.afterReset, polyZero, fieldZero]
    have hlen : polyZero.length ≤ p.maxCoef := le_trans (by decide) hp.1
    exact hz ▸ ⟨canonical_polyZero, hlen⟩
  bytes r := by simp [State.getB, State.afterReset]
  list := by simp [State.afterReset]
  reserved := by simp [State.afterReset, statusReserved]
  ecode := by simp [State.afterReset]
  error := by simp [State.afterReset, statusState, stError]
  cleared _ := ⟨rfl, rfl⟩
  einfo _ := rfl
  cm := rfl
  cmRange := by simp [State.afterReset]

theorem inv_hostReset {s : State} (hi : Inv s) : Inv (hostReset s) := inv_afterReset hi.params _ _

/-- R35: an allowed action keeps the invariant; the lengths and indexes it needs are those the action is allowed for. -/
theorem Inv.effect {s : State} (hi : Inv s) {a : HostAction} (ha : a.allowed s = true) : Inv (a.effect s) := by
  cases a with
  | writeF i w => exact hi.setF i w
  | writeP i p =>
    simp only [HostAction.allowed, Bool.and_eq_true, decide_eq_true_eq] at ha
    obtain ⟨⟨-, hpos⟩, hlen⟩ := ha
    have hfit : (canon p).length ≤ s.params.maxCoef :=
      (canon_length_le p).trans (max_le (hpos.trans hlen) hlen)
    exact hi.setP ⟨canon_canonical p, hfit⟩
  | writeB i b =>
    simp only [HostAction.allowed, Bool.and_eq_true, decide_eq_true_eq] at ha
    exact hi.setB ha.2
  | writeCM i w =>
    simp only [HostAction.allowed, Bool.and_eq_true, decide_eq_true_eq] at ha
    exact hi.cmWrite w ha.2
  | writeBudget v => exact hi.setBudget v
  | writePc v => exact hi.setPc v
  | start => exact hi.start
  | reset => exact inv_hostReset hi

theorem Inv.hostAct {s : State} (hi : Inv s) (a : HostAction) : Inv (hostAct a s) := by
  cases ha : a.allowed s with
  | false => rwa [hostAct_of_not_allowed ha]
  | true => rw [hostAct_of_allowed ha]; exact hi.effect ha

theorem happen_endsInInv {s : State} (hi : Inv s) (e : Event) : EndsInInv (e.happen s) := by
  cases e with
  | tick => exact step_endsInInv hi
  | host a => exact endsInInv_next (hi.hostAct a)

theorem runEvents_cons_of_next {e : Event} {s t : State} (h : e.happen s = .next t) (es : List Event) :
    runEvents (e :: es) s = runEvents es t := by
  simp only [runEvents, h]

theorem runEvents_endsInInv (es : List Event) {s : State} (hi : Inv s) : EndsInInv (runEvents es s) := by
  induction es generalizing s with
  | nil => exact endsInInv_next hi
  | cons e es ih =>
    obtain ⟨t, ht, hit⟩ := happen_endsInInv hi e
    rw [runEvents_cons_of_next ht]
    exact ih hit

/-- Settles O17, by induction on the schedule: every event ends in a next state that meets the invariant. -/
theorem schedulesKeepInv : Obligations.SchedulesKeepInv := fun es _ hi => runEvents_endsInInv es hi

/-- Settles O16: the reset state of any legal parameters, those of `State.reset` among them. -/
theorem resetMeetsInv : Obligations.ResetMeetsInv :=
  ⟨fun _ drawn resets hp => inv_afterReset hp drawn resets, inv_afterReset (by decide) 0 0⟩

end Sys2Proof.Machine
end

section
/-! The bytes of a register word (R12): `wordOfBytes` and `bytesOfWord` byte by byte, and a word as the number its bytes write in base 256. -/

namespace Sys2Proof.Machine

theorem wordOfBytes_cons_low_byte (b : Byte) (bs : Bytes) : (wordOfBytes (b :: bs)).extractLsb' 0 8 = b := by
  apply BitVec.eq_of_getLsbD_eq
  intro i hi
  have h128 : i < 128 := by omega
  simp [wordOfBytes, hi, h128]

theorem wordOfBytes_cons_next_byte (b : Byte) (bs : Bytes) {k : Nat} (hk : k < 15) :
    (wordOfBytes (b :: bs)).extractLsb' (8 * (k + 1)) 8 = (wordOfBytes bs).extractLsb' (8 * k) 8 := by
  apply BitVec.eq_of_getLsbD_eq
  intro i hi
  have h128 : 8 * (k + 1) + i < 128 := by omega
  have hrest : 8 * k + i < 128 := by omega
  have hlow : ¬ 8 * (k + 1) + i < 8 := by omega
  have hshift : 8 * (k + 1) + i - 8 = 8 * k + i := by omega
  have hbyte : b.getLsbD (8 * (k + 1) + i) = false := BitVec.getLsbD_of_ge _ _ (by omega)
  simp [wordOfBytes, hi, h128, hlow, hshift, hbyte, BitVec.getLsbD_eq_getElem hrest]

/-- R12: byte `k` of the block is bits `8k+7:8k` of the word; a byte the block does not have is zero. -/
theorem wordOfBytes_byte (b : Bytes) {k : Nat} (hk : k < 16) : (wordOfBytes b).extractLsb' (8 * k) 8 = b.getD k 0 := by
  induction b generalizing k with
  | nil => simp [wordOfBytes]
  | cons c bs ih =>
    cases k with
    | zero => exact wordOfBytes_cons_low_byte c bs
    | succ k => rw [wordOfBytes_cons_next_byte c bs (by omega), ih (by omega), List.getD_cons_succ]

theorem bytesOfWord_getD (w : Word) {k : Nat} (hk : k < 16) : (bytesOfWord w).getD k 0 = w.extractLsb' (8 * k) 8 := by
  simp [bytesOfWord, hk]

theorem word_ext_bytes {v w : Word} (h : ∀ k < 16, v.extractLsb' (8 * k) 8 = w.extractLsb' (8 * k) 8) : v = w := by
  apply BitVec.eq_of_getLsbD_eq
  intro i hi
  have hbit := congrArg (fun x : Byte => x.getLsbD (i % 8)) (h (i / 8) (by omega))
  have hpos : i % 8 < 8 := Nat.mod_lt _ (by omega)
  simpa [hpos, Nat.div_add_mod] using hbit

theorem wordOfBytes_bytesOfWord (w : Word) : wordOfBytes (bytesOfWord w) = w :=
  word_ext_bytes fun _ hk => (wordOfBytes_byte _ hk).trans (bytesOfWord_getD w hk)

theorem bytesOfWord_wordOfBytes {b : Bytes} (hb : b.length = 16) : bytesOfWord (wordOfBytes b) = b := by
  refine List.ext_getElem ((bytesOfWord_length _).trans hb.symm) fun k _ hk => ?_
  have hbyte := wordOfBytes_byte b (hb ▸ hk)
  simpa [bytesOfWord, hk] using hbyte

/-- The low `n` bytes of a word, as the number they write in base 256. -/
theorem word_mod_eq_sum_bytes (w : Word) (n : Nat) :
    w.toNat % 2 ^ (8 * n) = ∑ k ∈ Finset.range n, (w.extractLsb' (8 * k) 8).toNat * 2 ^ (8 * k) := by
  induction n with
  | zero => simp [Nat.mod_one]
  | succ n ih =>
    have hbyte : (w.extractLsb' (8 * n) 8).toNat = w.toNat / 2 ^ (8 * n) % 2 ^ 8 := by
      rw [BitVec.extractLsb'_toNat, Nat.shiftRight_eq_div_pow]
    rw [Finset.sum_range_succ, ← ih, hbyte, Nat.mul_succ, Nat.pow_add, Nat.mod_mul, Nat.mul_comm (2 ^ (8 * n))]

theorem wordOfBytes_toNat (b : Bytes) :
    (wordOfBytes b).toNat = ∑ k ∈ Finset.range 16, (b.getD k 0).toNat * 2 ^ (8 * k) :=
  calc (wordOfBytes b).toNat
      = (wordOfBytes b).toNat % 2 ^ (8 * 16) := (Nat.mod_eq_of_lt (wordOfBytes b).isLt).symm
    _ = ∑ k ∈ Finset.range 16, ((wordOfBytes b).extractLsb' (8 * k) 8).toNat * 2 ^ (8 * k) :=
        word_mod_eq_sum_bytes _ 16
    _ = ∑ k ∈ Finset.range 16, (b.getD k 0).toNat * 2 ^ (8 * k) :=
        Finset.sum_congr rfl fun k hk => by rw [wordOfBytes_byte b (Finset.mem_range.mp hk)]

/-- Settles O51, from the word's bytes one by one and the number they write. -/
theorem registerWordPacksItsBytes : Obligations.RegisterWordPacksItsBytes :=
  ⟨fun b hb => ⟨wordOfBytes_toNat b, fun _ hk => wordOfBytes_byte b hk, bytesOfWord_wordOfBytes hb⟩,
    fun w => ⟨wordOfBytes_bytesOfWord w, bytesOfWord_length w⟩⟩

end Sys2Proof.Machine
end

section
/-! The invariant of reachable states along one step (R21 to R30). -/

namespace Sys2Proof.Machine

/-- Settles O15: every step of a state within the invariant has a next state within it. -/
theorem stepKeepsInv : Obligations.StepKeepsInv := by
  intro s t hi ht
  obtain ⟨u, hu, hiu⟩ := step_endsInInv hi
  obtain rfl : u = t := Host.Outcome.next.inj (hu.symm.trans ht)
  exact hiu

end Sys2Proof.Machine
end

section
/-! The frame of every command (R51): what a command's writes keep, how a command ends, and the statements that follow from it: the destinations, `AUTH` (R27), `pc` (R24). -/

namespace Sys2Proof.Machine

/-! ## What the writes of a command keep -/

/-- `u` differs from `s` in nothing but the destinations of `i` (R51, R73): the registers its row names, the list, `EDFBUDGET`, `AUTH` and the count of draws for the commands that have them. -/
structure WritesDests (i : Instr) (s u : State) : Prop where
  fregs : ∀ r : Reg, r ∉ destsF i → u.getF r = s.getF r
  pregs : ∀ r : Reg, r ∉ destsP i → u.getP r = s.getP r
  bregs : ∀ r : Reg, r ∉ destsB i → u.getB r = s.getB r
  results : writesList i = false → u.results = s.results
  pc : u.pc = s.pc
  auth : i.mnemonic ≠ .gcmdec → statusAuth u.status = statusAuth s.status
  state : statusState u.status = statusState s.status
  reserved : statusReserved u.status = statusReserved s.status
  ecode : u.ecode = s.ecode
  epc : u.epc = s.epc
  einfo : u.einfo = s.einfo
  edfbudget : i.mnemonic ≠ .csrw → u.edfbudget = s.edfbudget
  cm : u.cm = s.cm
  params : u.params = s.params
  drawn : mayDraw i = false → u.drawn = s.drawn
  drawn_le : s.drawn ≤ u.drawn
  resets : u.resets = s.resets

section writes
variable {i : Instr} {s u : State}

theorem WritesDests.refl (i : Instr) (s : State) : WritesDests i s s := by
  constructor <;> intros <;> rfl

variable (h : WritesDests i s u)
include h

theorem WritesDests.setF {r : Reg} (hr : r ∈ destsF i) (v : Word) : WritesDests i s (u.setF r v) :=
  { h with fregs := fun q hq => by rw [setF_getF, if_neg (ne_of_mem_of_not_mem hr hq).symm, h.fregs q hq] }

theorem WritesDests.setP {r : Reg} (hr : r ∈ destsP i) (p : Poly) : WritesDests i s (u.setP r p) :=
  { h with pregs := fun q hq => by rw [setP_getP, if_neg (ne_of_mem_of_not_mem hr hq).symm, h.pregs q hq] }

theorem WritesDests.setB {r : Reg} (hr : r ∈ destsB i) (b : Bytes) : WritesDests i s (u.setB r b) :=
  { h with bregs := fun q hq => by rw [setB_getB, if_neg (ne_of_mem_of_not_mem hr hq).symm, h.bregs q hq] }

theorem WritesDests.setResults (hl : writesList i = true) (z : Factors) : WritesDests i s (u.setResults z) :=
  { h with results := fun hn => absurd (hl.symm.trans hn) (by decide) }

theorem WritesDests.setAuth (hm : i.mnemonic = .gcmdec) (b : Bool) : WritesDests i s (u.setAuth b) :=
  { h with
    auth := fun hn => absurd hm hn
    state := by simpa using h.state
    reserved := by simpa using h.reserved }

theorem WritesDests.setBudget (hm : i.mnemonic = .csrw) (v : Word32) : WritesDests i s (u.setBudget v) :=
  { h with edfbudget := fun hn => absurd hm hn }

theorem WritesDests.setDrawn (hm : mayDraw i = true) {n : Nat} (hn : s.drawn ≤ n) : WritesDests i s (u.setDrawn n) :=
  { h with
    drawn := fun hf => absurd (hm.symm.trans hf) (by decide)
    drawn_le := hn }

end writes

/-! ## The draws of the functions that draw only go on -/

theorem edfLoop_drawn_le (rand : Nat → Word) (f : Poly) (d t n : Nat) (z : List Poly) :
    n ≤ (edfLoop rand f d t n z).2 := by
  induction t generalizing n z with
  | zero => exact le_rfl
  | succ t ih =>
    unfold edfLoop
    split_ifs
    · split
      · exact Nat.le_add_right _ _
      · exact (Nat.le_add_right _ _).trans (ih _ _)
    · exact le_rfl

theorem edf_drawn_le (rand : Nat → Word) (budget n : Nat) (f : Poly) (d : Nat) : n ≤ (edf rand budget n f d).2 := by
  unfold edf
  split_ifs
  exacts [le_rfl, edfLoop_drawn_le _ _ _ _ _ _]

theorem factorPart_drawn_le (rand : Nat → Word) (budget n : Nat) (g : Poly) (d : Nat) :
    n ≤ (factorPart rand budget n g d).2 := by
  unfold factorPart
  split_ifs
  exacts [edf_drawn_le _ _ _ _ _, le_rfl]

theorem factorDegrees_drawn_le (rand : Nat → Word) (budget e n : Nat) (z : Factors) :
    n ≤ (factorDegrees rand budget e n z).2 := by
  induction z generalizing n with
  | nil => exact le_rfl
  | cons x rest ih =>
    have hp := factorPart_drawn_le rand budget n x.1 x.2
    unfold factorDegrees
    split
    · next h => rwa [h] at hp
    · next m h =>
      rw [h] at hp
      have hr := hp.trans (ih m)
      split <;> next h' => rwa [h'] at hr

theorem factorSquares_drawn_le (rand : Nat → Word) (budget n : Nat) (z : Factors) :
    n ≤ (factorSquares rand budget n z).2 := by
  induction z generalizing n with
  | nil => exact le_rfl
  | cons x rest ih =>
    unfold factorSquares
    split
    · exact le_rfl
    · next w _ =>
      have hp := factorDegrees_drawn_le rand budget x.2 n w
      split
      · next h => rwa [h] at hp
      · next m h =>
        rw [h] at hp
        have hr := hp.trans (ih m)
        split <;> next h' => rwa [h'] at hr

theorem factor_drawn_le (rand : Nat → Word) (budget n : Nat) (f : Poly) : n ≤ (factor rand budget n f).2 := by
  unfold factor
  split
  · exact le_rfl
  · split
    exacts [le_rfl, factorSquares_drawn_le _ _ _ _]

theorem recover_drawn_le (rand : Nat → Word) (budget n : Nat) (m1 m2 m3 : Message) :
    n ≤ (recover rand budget n m1 m2 m3).2 := by
  unfold recover
  split
  · exact le_rfl
  · next f _ =>
    have hf := factor_drawn_le rand budget n f
    split <;> next h => rwa [h] at hf

/-! ## How a command ends -/

/-- All that executing `i` in `s` can end in: an error entry, its draws consumed; `HALT`; or its writes, `pc` advanced. -/
inductive EndsIn (i : Instr) (s : State) : State → Prop where
  | error (k : ErrorKind) (info : Word32) {u : State} (h : WritesDests i s u)
      (hu : u = s.setDrawn u.drawn) : EndsIn i s (errorEntry k info u)
  | halt (h : i = .halt) : EndsIn i s (s.setState stHalted)
  | done {u : State} (h : WritesDests i s u) : EndsIn i s u.advance

/-- What a command writes, if it raises no error, is within its destinations. -/
def Framed (i : Instr) (s : State) (r : Except ErrorKind State) : Prop := ∀ u : State, r = .ok u → WritesDests i s u

/-- Wherever the outcome leads, `EndsIn` tells. -/
def OutcomeEndsIn (i : Instr) (s : State) (o : Outcome) : Prop := ∀ t : State, o = .next t → EndsIn i s t

section ends
variable {i : Instr} {s : State}

theorem framed_ok {u : State} (h : WritesDests i s u) : Framed i s (.ok u) := by
  rintro _ ⟨⟩; exact h

theorem framed_bind {α : Type} {r : Except ErrorKind α} {f : α → Except ErrorKind State}
    (h : ∀ a, r = .ok a → Framed i s (f a)) : Framed i s (r.bind f) := by
  cases r with
  | error k => nofun
  | ok a => exact h a rfl

theorem framed_map {α : Type} {r : Except ErrorKind α} {f : α → State} (h : ∀ a, r = .ok a → WritesDests i s (f a)) :
    Framed i s (r.map f) := by
  cases r with
  | error k => nofun
  | ok a => exact framed_ok (h a rfl)

theorem framed_writeP {u : State} (h : WritesDests i s u) {r : Reg} (hr : r ∈ destsP i) (p : List Word) :
    Framed i s (writeP u r p) := by
  intro t ht
  obtain ⟨-, rfl⟩ := writeP_eq_ok.mp ht
  exact h.setP hr _

theorem framed_writeB {r : Reg} (hr : r ∈ destsB i) (b : Bytes) : Framed i s (writeB s r b) := by
  intro t ht
  obtain ⟨-, rfl⟩ := writeB_eq_ok.mp ht
  exact (WritesDests.refl i s).setB hr b

/-- A command that has drawn, or not, and then ends. -/
theorem finish_endsIn_of_drawn {u : State} (hu : WritesDests i s u) (hd : u = s.setDrawn u.drawn)
    {r : Except ErrorKind State} (h : Framed i s r) : OutcomeEndsIn i s (finish u r) := by
  intro t ht
  obtain ⟨v, hv, rfl⟩ | ⟨k, -, rfl⟩ := finish_eq_next ht
  · exact .done (h v hv)
  · exact .error k 0 hu hd

theorem finish_endsIn {r : Except ErrorKind State} (h : Framed i s r) : OutcomeEndsIn i s (finish s r) :=
  finish_endsIn_of_drawn (.refl i s) rfl h

theorem guarded_endsIn {c : Prop} [Decidable c] {o : Outcome} (w : Word32) (h : OutcomeEndsIn i s o) :
    OutcomeEndsIn i s (if c then o else illegal w s) := by
  split_ifs
  · exact h
  · rintro _ ⟨⟩; exact .error .illegalCommand w (.refl i s) rfl

theorem putF_endsIn {rd : Reg} (hr : rd ∈ destsF i) (r : Except ErrorKind Word) : OutcomeEndsIn i s (putF s rd r) :=
  finish_endsIn (framed_map fun v _ => (WritesDests.refl i s).setF hr v)

theorem finish_setF_endsIn {rd : Reg} (hr : rd ∈ destsF i) (v : Word) :
    OutcomeEndsIn i s (finish s (.ok (s.setF rd v))) := putF_endsIn hr (.ok v)

theorem putP_endsIn {rd : Reg} (hr : rd ∈ destsP i) (r : Except ErrorKind Poly) : OutcomeEndsIn i s (putP s rd r) :=
  finish_endsIn (framed_bind fun p _ => framed_writeP (.refl i s) hr p)

theorem putList_endsIn (hl : writesList i = true) {u : State} (hu : WritesDests i s u) (hd : u = s.setDrawn u.drawn)
    (r : Except ErrorKind Factors) : OutcomeEndsIn i s (putList u r) :=
  finish_endsIn_of_drawn hu hd (framed_map fun z _ => hu.setResults hl z)

end ends

theorem execPpow_endsIn (rd ra rb : Reg) (s : State) : OutcomeEndsIn (.ppow rd ra rb) s (execPpow rd ra rb s) := by
  unfold execPpow
  split_ifs
  · exact finish_endsIn nofun
  · exact putP_endsIn (by simp [destsP]) _

/-- R51: every command ends in an error entry, in `HALT`, or with writes to the destinations its row names. -/
theorem exec_endsIn (i : Instr) (s : State) : OutcomeEndsIn i s (exec i s) := by
  have h0 := WritesDests.refl i s
  cases i with
  | nop => exact finish_endsIn (framed_ok h0)
  | halt => rintro _ ⟨⟩; exact .halt rfl
  | csrr => exact guarded_endsIn _ (finish_setF_endsIn (by simp [destsF]) _)
  | csrw => exact guarded_endsIn _ (finish_endsIn (framed_ok (h0.setBudget rfl _)))
  | fadd rd | fmul rd | fmuln rd | fbrev rd | fpow rd | fsqrt rd | fmov rd | fli rd =>
    exact putF_endsIn (rd := rd) (by simp [destsF]) (.ok _)
  | finv | fdiv => exact putF_endsIn (by simp [destsF]) _
  | padd rd | pmul rd | ppowmod rd | pderiv rd | psqrt rd | pmonic rd | pgcd rd | pmov rd | psetc rd =>
    exact putP_endsIn (rd := rd) (by simp [destsP]) _
  | pdivmod rd rc =>
    exact guarded_endsIn _ (finish_endsIn (framed_bind fun qr _ => framed_bind fun u hu =>
      framed_writeP (framed_writeP h0 (r := rd) (by simp [destsP]) qr.1 u hu) (by simp [destsP]) qr.2))
  | ppow rd ra rb => exact execPpow_endsIn rd ra rb s
  | pgetc rd | lcnt rd | forge rd => exact finish_setF_endsIn (rd := rd) (by simp [destsF]) _
  | sff | ddf => exact putList_endsIn rfl h0 rfl _
  | edf => exact putList_endsIn rfl (h0.setDrawn rfl (edf_drawn_le _ _ _ _ _)) rfl _
  | factor => exact putList_endsIn rfl (h0.setDrawn rfl (factor_drawn_le _ _ _ _)) rfl _
  | lgetp => exact finish_endsIn (framed_bind fun e _ => framed_writeP h0 (by simp [destsP]) _)
  | lgetn => exact finish_endsIn (framed_map fun e _ => h0.setF (by simp [destsF]) _)
  | ghash rd rc =>
    exact guarded_endsIn _
      (finish_endsIn (framed_ok ((h0.setF (r := rd) (by simp [destsF]) _).setF (r := rc) (by simp [destsF]) _)))
  | gcmenc => exact finish_endsIn (framed_map fun u hu => (framed_writeB (by simp [destsB]) _ u hu).setF (by simp [destsF]) _)
  | gcmdec => exact finish_endsIn (framed_map fun u hu => (framed_writeB (by simp [destsB]) _ u hu).setAuth rfl _)
  | recover rd rc ra rb =>
    have hd := h0.setDrawn rfl (recover_drawn_le Config.rand128 s.edfbudget.toNat s.drawn (messageAt s ra rb 0)
      (messageAt s ra rb 1) (messageAt s ra rb 2))
    exact guarded_endsIn _ (finish_endsIn_of_drawn hd rfl
      (framed_map fun hm _ => (hd.setF (r := rd) (by simp [destsF]) _).setF (r := rc) (by simp [destsF]) _))

/-! ## The statements -/

theorem state_eq_one_of_running {s : State} (hr : s.running = true) : statusState s.status = 1 := by
  simpa [State.running, stRunning] using hr

/-- Settles O12, from the three ways a command ends. -/
theorem commandsWriteOnlyTheirDestinations : Obligations.CommandsWriteOnlyTheirDestinations := by
  intro i s t hr ht
  have hrun := state_eq_one_of_running hr
  cases exec_endsIn i s t ht with
  | error k info h _ =>
    exact ⟨h.fregs, h.pregs, h.bregs, h.results, h.edfbudget, by simpa using h.auth, by simpa using h.reserved,
      by simp [stError], by simp [stError], h.drawn, h.drawn_le, h.cm, h.params, h.resets⟩
  | halt hi => simp [hi, stHalted]
  | done h =>
    exact ⟨h.fregs, h.pregs, h.bregs, h.results, h.edfbudget, h.auth, h.reserved,
      fun _ => ⟨h.ecode, h.epc, h.einfo⟩, .inl (h.state.trans hrun), h.drawn, h.drawn_le, h.cm, h.params, h.resets⟩

/-- A command that changes `AUTH` is a `GCMDEC`. -/
theorem exec_auth_eq {i : Instr} {s t : State} (ht : exec i s = .next t) (hm : i.mnemonic ≠ .gcmdec) :
    statusAuth t.status = statusAuth s.status := by
  cases exec_endsIn i s t ht with
  | error k info h _ => simpa using h.auth hm
  | halt _ => simp
  | done h => exact h.auth hm

/-- A `GCMDEC` that changes `AUTH` gives it the flag computed (R239). -/
theorem execGcmdec_auth {rd rc ra rb re rf : Reg} {s t : State} (ht : execGcmdec rd rc ra rb re rf s = .next t)
    (hne : statusAuth t.status ≠ statusAuth s.status) : statusAuth t.status = (decryptHere s rc ra rb re rf).2 := by
  unfold execGcmdec at ht
  cases hw : writeB s rd (decryptHere s rc ra rb re rf).1 with
  | error k =>
    rw [hw] at ht
    cases ht
    exact absurd (statusAuth_withState _ _) hne
  | ok u =>
    rw [hw] at ht
    cases ht
    exact statusAuth_withAuth _ _

theorem hostAct_auth_eq {a : HostAction} (ha : a ≠ .reset) (s : State) :
    statusAuth (hostAct a s).status = statusAuth s.status := by
  unfold hostAct
  split_ifs
  · cases a with
    | reset => exact absurd rfl ha
    | start => exact statusAuth_withState _ _
    | writeF | writeP | writeB | writeCM | writeBudget | writePc => rfl
  · rfl

/-- Settles O14, from the frame of the commands: a step that changes `AUTH` executes a `GCMDEC`. -/
theorem onlyGcmdecAndResetChangeAuth : Obligations.OnlyGcmdecAndResetChangeAuth := by
  refine ⟨fun s t ht hne => ?_, fun a s ha => hostAct_auth_eq ha s⟩
  obtain ⟨-, h⟩ | ⟨-, -, h⟩ | ⟨-, -, -, h⟩ | ⟨-, -, i, hd, h⟩ := step_cases s <;> rw [h] at ht
  · cases ht; exact absurd rfl hne
  · cases ht; exact absurd (statusAuth_withState _ _) hne
  · cases ht; exact absurd (statusAuth_withState _ _) hne
  · by_cases hm : i.mnemonic = .gcmdec
    · cases i <;> cases hm
      exact ⟨_, _, _, _, _, _, hd, execGcmdec_auth ht hne⟩
    · exact absurd (exec_auth_eq ht hm) hne

/-- Settles O19: only a command that ends without an error moves `pc`, by one, from an index below `CMSIZE`. -/
theorem pcNeverExceedsCmSize : Obligations.PcNeverExceedsCmSize := by
  intro s t hi hpc ht
  obtain ⟨-, h⟩ | ⟨-, -, h⟩ | ⟨-, -, -, h⟩ | ⟨-, hlt, i, -, h⟩ := step_cases s <;> rw [h] at ht
  · cases ht; exact ⟨hpc, .inl rfl⟩
  · cases ht; exact ⟨hpc, .inl rfl⟩
  · cases ht; exact ⟨hpc, .inl rfl⟩
  · cases exec_endsIn i s t ht with
    | error k info h _ => simp only [errorEntry_pc, errorEntry_params, h.pc, h.params]; exact ⟨hpc, .inl trivial⟩
    | halt _ => exact ⟨hpc, .inl rfl⟩
    | done h =>
      have hsize : s.params.cmSize ≤ 2 ^ 31 := hi.params.2.2.2.2.2
      have hnext : (s.pc + 1).toNat = s.pc.toNat + 1 := by bv_omega
      simp only [advance_pc, advance_params, h.pc, h.params, hnext]
      exact ⟨hlt, .inr trivial⟩

end Sys2Proof.Machine
end

section
/-! Reset (R37) and the host port (R35): what each action does to the whole state, and what a read gives. -/

namespace Sys2Proof.Machine

theorem hostAct_reset (s : State) : hostAct .reset s = State.afterReset s.params s.drawn (s.resets + 1) := rfl

section afterReset
variable (p : Params) (drawn resets : Nat) (r : Reg)

@[simp] theorem afterReset_getF : (State.afterReset p drawn resets).getF r = 0 := by
  simp [State.getF, State.afterReset]

@[simp] theorem afterReset_getP : (State.afterReset p drawn resets).getP r = [0] := by
  simp [State.getP, State.afterReset]

@[simp] theorem afterReset_getB : (State.afterReset p drawn resets).getB r = [] := by
  simp [State.getB, State.afterReset]

end afterReset

/-- Settles O20: both states are an `afterReset`, whose elements R37 lists. -/
theorem resetValues : Obligations.ResetValues := by
  intro s t ht
  obtain ⟨p, drawn, resets, rfl⟩ : ∃ p drawn resets, t = State.afterReset p drawn resets := by
    rcases ht with rfl | rfl
    exacts [⟨_, _, _, hostAct_reset s⟩, ⟨_, _, _, rfl⟩]
  exact ⟨fun r => ⟨afterReset_getF p drawn resets r, afterReset_getP p drawn resets r, afterReset_getB p drawn resets r⟩,
    rfl, rfl, (by decide : statusState 0 = 0), (by decide : statusAuth 0 = false), rfl, rfl, rfl, rfl, rfl⟩

section stopped
variable {s : State} (hr : s.running = false)
include hr

theorem hostAct_writeF (i : Reg) (w : Word) : hostAct (.writeF i w) s = s.setF i w :=
  hostAct_of_allowed (by simp [HostAction.allowed, hr])

theorem hostAct_writeP (i : Reg) (p : List Word) : hostAct (.writeP i p) s =
    if 1 ≤ p.length ∧ p.length ≤ s.params.maxCoef then s.setP i (canon p) else s := by
  simp [hostAct, HostAction.allowed, HostAction.effect, hr]

theorem hostAct_writeB (i : Reg) (b : Bytes) :
    hostAct (.writeB i b) s = if b.length ≤ s.params.maxBytes then s.setB i b else s := by
  simp [hostAct, HostAction.allowed, HostAction.effect, hr]

theorem hostAct_writeCM (i : Nat) (w : Word32) :
    hostAct (.writeCM i w) s = if i < s.params.cmSize then s.cmWrite i w else s := by
  simp [hostAct, HostAction.allowed, HostAction.effect, hr]

theorem cmRead_hostAct_writeCM (i : Nat) (w : Word32) (j : Nat) :
    (hostAct (.writeCM i w) s).cmRead j = if i < s.params.cmSize ∧ j = i then w else s.cmRead j := by
  rw [hostAct_writeCM hr]
  by_cases hi : i < s.params.cmSize <;> simp [hi]

theorem hostAct_writeBudget (v : Word32) : hostAct (.writeBudget v) s = { s with edfbudget := v } :=
  hostAct_of_allowed (by simp [HostAction.allowed, hr])

theorem hostAct_writePc (v : Word32) : hostAct (.writePc v) s = { s with pc := v } :=
  hostAct_of_allowed (by simp [HostAction.allowed, hr])

theorem hostAct_start : hostAct .start s = start s :=
  hostAct_of_allowed (by simp [HostAction.allowed, hr])

theorem hostRead_registers (i : Reg) : hostRead (.f i) s = some (.word (s.getF i)) ∧
    hostRead (.p i) s = some (.poly (s.getP i)) ∧ hostRead (.b i) s = some (.bytes (s.getB i)) := by
  simp [hostRead, HostElement.readable, hr]

theorem hostRead_list : hostRead .list s = some (.list s.results) := by
  simp [hostRead, HostElement.readable, hr]

theorem hostRead_cm {i : Nat} (hi : i < s.params.cmSize) : hostRead (.cm i) s = some (.word32 (s.cmRead i)) := by
  simp [hostRead, HostElement.readable, hr, hi]

theorem hostRead_csr {n : Nat} (hn : n ≤ 5) : hostRead (.csr n) s = some (.word32 (s.getCsr n)) := by
  have hread : (HostElement.csr n).readable s = true := by
    cases n with
    | zero => rfl
    | succ n => simp [HostElement.readable, hr, hn]
  simp [hostRead, hread]

end stopped

theorem hostRead_status (s : State) : hostRead (.csr 0) s = some (.word32 s.status) := rfl

/-- R26: the control registers by number. -/
theorem getCsr_eq_getD (s : State) (n : Nat) :
    s.getCsr n = [s.status, s.ecode, s.epc, s.einfo, s.edfbudget, s.pc].getD n 0 := by
  match n with
  | 0 | 1 | 2 | 3 | 4 | 5 => rfl
  | n + 6 => simp [State.getCsr]

/-- Settles O21, action by action and element by element. -/
theorem hostPortEffects : Obligations.HostPortEffects := fun s =>
  ⟨fun hr _ ha => hostAct_running hr ha,
    fun hr => ⟨hostAct_writeF hr, hostAct_writeP hr, hostAct_writeB hr,
      fun i w => ⟨hostAct_writeCM hr i w, cmRead_hostAct_writeCM hr i w⟩,
      hostAct_writeBudget hr, hostAct_writePc hr, hostAct_start hr, hostRead_registers hr, hostRead_list hr,
      fun _ => hostRead_cm hr, fun n hn => ⟨hostRead_csr hr hn, getCsr_eq_getD s n⟩⟩,
    hostRead_status s, hostAct_reset s⟩

end Sys2Proof.Machine
end

section
/-! Independence (R23, R25, R64): a command does the same whatever command memory holds, and, but for the three commands that read it, whatever the result list holds. -/

namespace Sys2Proof.Machine

/-- `s` with other contents of command memory, of the result list, or of both. -/
def withUnread (m : Option Memory) (l : Option (List (Poly × Word32))) (s : State) : State :=
  { s with cm := m.getD s.cm, results := l.getD s.results }

/-- An outcome with its next state changed. -/
def mapNext (g : State → State) : Outcome → Outcome
  | .next t => .next (g t)
  | .fault r => .fault r
  | .refused r => .refused r

section unread
variable (m : Option Memory) (l : Option (List (Poly × Word32))) (s : State)

theorem finish_withUnread (r : Except ErrorKind State) :
    finish (withUnread m l s) (r.map (withUnread m l)) = mapNext (withUnread m l) (finish s r) := by
  cases r <;> rfl

theorem finish_ok_withUnread {t u : State} (h : u = withUnread m l t) :
    finish (withUnread m l s) (.ok u) = mapNext (withUnread m l) (finish s (.ok t)) :=
  h ▸ finish_withUnread m l s (.ok t)

theorem writeP_withUnread (r : Reg) (p : List Word) :
    writeP (withUnread m l s) r p = (writeP s r p).map (withUnread m l) := by
  change (if s.params.maxCoef < (canon p).length then _ else _) = _
  unfold writeP
  split_ifs <;> rfl

theorem writeB_withUnread (r : Reg) (b : Bytes) :
    writeB (withUnread m l s) r b = (writeB s r b).map (withUnread m l) := by
  change (if s.params.maxBytes < b.length then _ else _) = _
  unfold writeB
  split_ifs <;> rfl

theorem putF_withUnread (rd : Reg) (r : Except ErrorKind Word) :
    putF (withUnread m l s) rd r = mapNext (withUnread m l) (putF s rd r) := by
  cases r <;> rfl

theorem putP_withUnread (rd : Reg) (r : Except ErrorKind Poly) :
    putP (withUnread m l s) rd r = mapNext (withUnread m l) (putP s rd r) := by
  cases r with
  | error k => rfl
  | ok p => exact (congrArg (finish _) (writeP_withUnread m l s rd p)).trans (finish_withUnread m l s _)

/-- A command with a side condition on its operands alone. -/
theorem guarded_withUnread {c : Prop} [Decidable c] (w : Word32) {o o' : Outcome}
    (h : o' = mapNext (withUnread m l) o) :
    (if c then o' else illegal w (withUnread m l s)) = mapNext (withUnread m l) (if c then o else illegal w s) := by
  split_ifs
  exacts [h, rfl]

/-! ## The commands that are more than one write -/

theorem writeQuotRem_withUnread (rd rc : Reg) (x : Poly × Poly) :
    writeQuotRem (withUnread m l s) rd rc x = (writeQuotRem s rd rc x).map (withUnread m l) := by
  unfold writeQuotRem
  rw [writeP_withUnread]
  cases writeP s rd x.1 with
  | error k => rfl
  | ok t => exact writeP_withUnread m l t rc x.2

theorem execPdivmod_withUnread (rd rc ra rb : Reg) :
    execPdivmod rd rc ra rb (withUnread m l s) = mapNext (withUnread m l) (execPdivmod rd rc ra rb s) := by
  refine guarded_withUnread m l s _ ?_
  change finish _ ((pDivmod (s.getP ra) (s.getP rb)).bind _) = _
  cases pDivmod (s.getP ra) (s.getP rb) with
  | error k => rfl
  | ok x => exact (congrArg (finish _) (writeQuotRem_withUnread m l s rd rc x)).trans (finish_withUnread m l s _)

theorem execPpow_withUnread (rd ra rb : Reg) :
    execPpow rd ra rb (withUnread m l s) = mapNext (withUnread m l) (execPpow rd ra rb s) := by
  change (if powOverflows s (s.getP ra) (wordInt (s.getF rb)) then _ else _) = _
  unfold execPpow
  split_ifs
  exacts [rfl, putP_withUnread m l s rd (.ok _)]

/-- The two commands that write a byte buffer and then one thing more. -/
theorem finish_writeB_withUnread (rd : Reg) (b : Bytes) {g : State → State}
    (hg : ∀ t, g (withUnread m l t) = withUnread m l (g t)) :
    finish (withUnread m l s) ((writeB (withUnread m l s) rd b).map g) =
      mapNext (withUnread m l) (finish s ((writeB s rd b).map g)) := by
  rw [writeB_withUnread]
  cases writeB s rd b with
  | error k => rfl
  | ok t => exact finish_ok_withUnread m l s (hg t)

theorem execRecover_withUnread (rd rc ra rb : Reg) :
    execRecover rd rc ra rb (withUnread m l s) = mapNext (withUnread m l) (execRecover rd rc ra rb s) := by
  refine guarded_withUnread m l s _ ?_
  change finish _ ((recoverHere s ra rb).1.map _) = _
  cases (recoverHere s ra rb).1 <;> rfl

/-- The commands that neither read nor replace the result list. -/
def sparesList (i : Instr) : Bool :=
  i.mnemonic ∉ [Mnemonic.sff, .ddf, .edf, .factor, .lcnt, .lgetp, .lgetn]

theorem exec_withUnread {i : Instr} (hi : sparesList i = true) :
    exec i (withUnread m l s) = mapNext (withUnread m l) (exec i s) := by
  cases i with
  | nop | halt => rfl
  | csrr rd csr =>
    refine guarded_withUnread m l s _ (finish_ok_withUnread m l s ?_)
    unfold State.getCsr
    split <;> rfl
  | csrw => exact guarded_withUnread m l s _ rfl
  | fadd rd | fmul rd | fmuln rd | fbrev rd | fpow rd | fsqrt rd | fmov rd | fli rd =>
    exact putF_withUnread m l s rd (.ok _)
  | finv rd | fdiv rd => exact putF_withUnread m l s rd _
  | padd rd | pmul rd | pderiv rd | pmov rd | psetc rd => exact putP_withUnread m l s rd (.ok _)
  | ppowmod rd | psqrt rd | pmonic rd | pgcd rd => exact putP_withUnread m l s rd _
  | pdivmod rd rc ra rb => exact execPdivmod_withUnread m l s rd rc ra rb
  | ppow rd ra rb => exact execPpow_withUnread m l s rd ra rb
  | pgetc | forge => rfl
  | ghash => exact guarded_withUnread m l s _ rfl
  | gcmenc rd | gcmdec rd => exact finish_writeB_withUnread m l s rd _ fun _ => rfl
  | recover rd rc ra rb => exact execRecover_withUnread m l s rd rc ra rb
  | sff | ddf | edf | factor | lcnt | lgetp | lgetn => cases hi

end unread

/-! ## The commands that read or replace the list -/

section list
variable (m : Memory) (l : List (Poly × Word32)) (s : State)

theorem putList_withCm (r : Except ErrorKind Factors) :
    putList (withUnread (some m) none s) r = mapNext (withUnread (some m) none) (putList s r) := by
  cases r <;> rfl

/-- A command that replaces the list does so whatever the list held; an error leaves the list. -/
theorem putList_withResults (r : Except ErrorKind Factors) :
    putList (withUnread none (some l) s) r = mapNext (withUnread none (some l)) (putList s r) ∨
      putList (withUnread none (some l) s) r = putList s r := by
  cases r with
  | error k => exact .inl rfl
  | ok z => exact .inr rfl

theorem execLgetp_withCm (rd : Reg) (imm : BitVec 8) : execLgetp rd imm (withUnread (some m) none s) =
    mapNext (withUnread (some m) none) (execLgetp rd imm s) := by
  change finish _ ((listEntry s (immNat imm)).bind _) = _
  unfold execLgetp
  cases listEntry s (immNat imm) with
  | error k => rfl
  | ok e => exact putP_withUnread (some m) none s rd (.ok e.1)

theorem execLgetn_withCm (rd : Reg) (imm : BitVec 8) : execLgetn rd imm (withUnread (some m) none s) =
    mapNext (withUnread (some m) none) (execLgetn rd imm s) := by
  change finish _ ((listEntry s (immNat imm)).map _) = _
  unfold execLgetn
  cases listEntry s (immNat imm) <;> rfl

/-- R25, R64: no command reads or writes command memory. -/
theorem exec_withCm (i : Instr) :
    exec i (withUnread (some m) none s) = mapNext (withUnread (some m) none) (exec i s) := by
  cases hi : sparesList i with
  | true => exact exec_withUnread (some m) none s hi
  | false =>
    cases i with
    | sff | ddf => exact putList_withCm m s _
    | edf => exact putList_withCm m (s.setDrawn _) _
    | factor => exact putList_withCm m (s.setDrawn _) _
    | lcnt => rfl
    | lgetp rd imm => exact execLgetp_withCm m s rd imm
    | lgetn rd imm => exact execLgetn_withCm m s rd imm
    | _ => cases hi

theorem exec_withResults_of_writesList {i : Instr} (hi : writesList i = true) :
    exec i (withUnread none (some l) s) = mapNext (withUnread none (some l)) (exec i s) ∨
      exec i (withUnread none (some l) s) = exec i s := by
  cases i with
  | sff | ddf => exact putList_withResults l s _
  | edf => exact putList_withResults l (s.setDrawn _) _
  | factor => exact putList_withResults l (s.setDrawn _) _
  | _ => cases hi

end list

/-- Settles O13: other contents of command memory or of the list go through a command unread. -/
theorem commandsAreIndependentOfWhatTheyDoNotRead : Obligations.CommandsAreIndependentOfWhatTheyDoNotRead := by
  intro i s t ht
  refine ⟨fun m => (exec_withCm m s i).trans (congrArg _ ht), fun hcnt hp hn l => ?_⟩
  have hnext : mapNext (withUnread none (some l)) (exec i s) = .next { t with results := l } := congrArg _ ht
  cases hw : writesList i with
  | true => exact (exec_withResults_of_writesList l s hw).imp (·.trans hnext) fun h => ⟨rfl, h.trans ht⟩
  | false =>
    have hi : sparesList i = true := by simp_all [sparesList, writesList]
    exact .inl ((exec_withUnread none (some l) s hi).trans hnext)

end Sys2Proof.Machine
end

section
/-! The field law of GF(2^128) (R101 to R105). A register word is a residue of GF(2)[X] modulo x^128 + x^7 + x^2 + x + 1; the raw multiplier is the product of residues; the modulus is irreducible, so the inverse of R104 is one. -/

namespace Sys2Proof.Machine

/-! ## Words as polynomials over GF(2), natural ordering (R52, R101) -/

/-- The polynomial over GF(2) whose coefficient of X^i is bit `i`. -/
noncomputable def gf2Poly (w : Word) : Polynomial (ZMod 2) :=
  ∑ i ∈ Finset.range 128, if w.getLsbD i then Polynomial.X ^ i else 0

/-- R101's modulus. -/
@[irreducible] noncomputable def fieldModulus : Polynomial (ZMod 2) :=
  Polynomial.X ^ 128 + Polynomial.X ^ 7 + Polynomial.X ^ 2 + Polynomial.X + 1

/-- The residue a word stands for. -/
noncomputable def residue (w : Word) : AdjoinRoot fieldModulus := AdjoinRoot.mk fieldModulus (gf2Poly w)

theorem gf2Poly_coeff (w : Word) (i : Nat) : (gf2Poly w).coeff i = if w.getLsbD i then 1 else 0 := by
  have hterm : ∀ j ∈ Finset.range 128, (if w.getLsbD j then (Polynomial.X ^ j : Polynomial (ZMod 2)) else 0).coeff i =
      if i = j then (if w.getLsbD i then 1 else 0) else 0 := by
    intro j _
    by_cases hij : i = j
    · subst hij; rw [if_pos rfl]; split_ifs <;> simp
    · rw [if_neg hij]; split_ifs <;> simp [Polynomial.coeff_X_pow, hij]
  rw [gf2Poly, Polynomial.finsetSum_coeff, Finset.sum_congr rfl hterm, Finset.sum_ite_eq]
  split_ifs with h1 h2 h2
  · rfl
  · rfl
  · exact absurd (BitVec.lt_of_getLsbD h2) (by simpa using h1)
  · rfl

theorem gf2Poly_zero : gf2Poly 0 = 0 := by simp [gf2Poly]

theorem gf2Poly_xor (a b : Word) : gf2Poly (a ^^^ b) = gf2Poly a + gf2Poly b := by
  ext i
  have hone : (1 : ZMod 2) + 1 = 0 := by decide
  rw [Polynomial.coeff_add, gf2Poly_coeff, gf2Poly_coeff, gf2Poly_coeff, BitVec.getLsbD_xor]
  cases a.getLsbD i <;> cases b.getLsbD i <;> simp [hone]

theorem gf2Poly_twoPow {k : Nat} (hk : k < 128) : gf2Poly (BitVec.twoPow 128 k) = Polynomial.X ^ k := by
  ext i
  rw [gf2Poly_coeff, Polynomial.coeff_X_pow, BitVec.getLsbD_twoPow]
  by_cases hik : i = k
  · simp [hik, hk]
  · simp [hik, Ne.symm hik]

/-- A shift by one is a multiplication by X, but for the coefficient that leaves the word. -/
theorem gf2Poly_shiftLeft_one (a : Word) :
    gf2Poly (a <<< 1) + (if a.msb then Polynomial.X ^ 128 else 0) = Polynomial.X * gf2Poly a := by
  ext i
  have hmsb : a.msb = a.getLsbD 127 := BitVec.msb_eq_getLsbD_last a
  rw [Polynomial.coeff_add, gf2Poly_coeff, BitVec.getLsbD_shiftLeft, hmsb]
  cases i with
  | zero => split_ifs <;> simp_all [Polynomial.coeff_X_pow]
  | succ j =>
    rw [Polynomial.coeff_X_mul, gf2Poly_coeff]
    obtain hj | rfl | hj : j < 127 ∨ j = 127 ∨ 127 < j := by omega
    · have h1 : j + 1 < 128 := by omega
      have h2 : j + 1 ≠ 128 := by omega
      split_ifs <;> simp_all [Polynomial.coeff_X_pow]
    · split_ifs <;> simp_all [Polynomial.coeff_X_pow]
    · have h1 : ¬ j + 1 < 128 := by omega
      have h2 : j + 1 ≠ 128 := by omega
      have h3 : a.getLsbD j = false := BitVec.getLsbD_of_ge _ _ (by omega)
      split_ifs <;> simp_all [Polynomial.coeff_X_pow]

theorem gf2Poly_0x87 :
    gf2Poly 0x87 = Polynomial.X ^ 7 + Polynomial.X ^ 2 + Polynomial.X ^ 1 + Polynomial.X ^ 0 := by
  have hbits : (0x87 : Word) =
      BitVec.twoPow 128 7 ^^^ BitVec.twoPow 128 2 ^^^ BitVec.twoPow 128 1 ^^^ BitVec.twoPow 128 0 := by decide +kernel
  rw [hbits, gf2Poly_xor, gf2Poly_xor, gf2Poly_xor, gf2Poly_twoPow (by omega), gf2Poly_twoPow (by omega),
    gf2Poly_twoPow (by omega), gf2Poly_twoPow (by omega)]

theorem gf2Poly_low_modulus : gf2Poly 0x87 + Polynomial.X ^ 128 = fieldModulus := by
  rw [gf2Poly_0x87, pow_one, pow_zero]
  unfold fieldModulus
  abel

theorem gf2Poly_timesX (a : Word) :
    gf2Poly (timesX a) = Polynomial.X * gf2Poly a + if a.msb then fieldModulus else 0 := by
  have hdouble : ∀ p : Polynomial (ZMod 2), p + p = 0 := CharTwo.add_self_eq_zero
  rw [← gf2Poly_shiftLeft_one, ← gf2Poly_low_modulus, timesX]
  split_ifs
  · rw [gf2Poly_xor]
    linear_combination - hdouble (Polynomial.X ^ 128)
  · simp

/-! ## The raw multiplier is the product of residues (R101) -/

theorem residue_xor (a b : Word) : residue (a ^^^ b) = residue a + residue b := by
  rw [residue, gf2Poly_xor, map_add]; rfl

theorem residue_zero : residue 0 = 0 := by rw [residue, gf2Poly_zero, map_zero]

theorem residue_one : residue 1 = 1 := by
  have h : gf2Poly 1 = Polynomial.X ^ 0 := gf2Poly_twoPow (k := 0) (by omega)
  rw [residue, h, pow_zero, map_one]

theorem residue_two : residue 2 = AdjoinRoot.root fieldModulus := by
  have h : gf2Poly 2 = Polynomial.X ^ 1 := gf2Poly_twoPow (k := 1) (by omega)
  rw [residue, h, pow_one, AdjoinRoot.mk_X]

theorem residue_timesX (a : Word) : residue (timesX a) = AdjoinRoot.root fieldModulus * residue a := by
  rw [residue, gf2Poly_timesX, map_add, map_mul, AdjoinRoot.mk_X]
  split_ifs <;> simp [residue]

theorem residue_mulnRounds_snd (a b : Word) (n : Nat) :
    residue (mulnRounds a b n).2 = AdjoinRoot.root fieldModulus ^ n * residue a := by
  induction n with
  | zero => simp [mulnRounds]
  | succ n ih => rw [mulnRounds, residue_timesX, ih, pow_succ', mul_assoc]

theorem residue_mulnRounds_fst (a b : Word) (n : Nat) : residue (mulnRounds a b n).1 =
    (∑ i ∈ Finset.range n, if b.getLsbD i then AdjoinRoot.root fieldModulus ^ i else 0) * residue a := by
  induction n with
  | zero => rw [Finset.sum_range_zero, zero_mul]; exact residue_zero
  | succ n ih =>
    rw [Finset.sum_range_succ, add_mul, ← ih, mulnRounds]
    split_ifs
    · rw [residue_xor, residue_mulnRounds_snd]
    · rw [zero_mul, add_zero]

theorem residue_eq_sum (b : Word) :
    residue b = ∑ i ∈ Finset.range 128, if b.getLsbD i then AdjoinRoot.root fieldModulus ^ i else 0 := by
  rw [residue, gf2Poly, map_sum]
  refine Finset.sum_congr rfl fun i _ => ?_
  split_ifs <;> simp

/-- R101: the raw multiplier multiplies residues. -/
theorem residue_feMuln (a b : Word) : residue (feMuln a b) = residue a * residue b := by
  rw [feMuln, residue_mulnRounds_fst, ← residue_eq_sum, mul_comm]

/-! ## A word is its residue -/

theorem fieldModulus_natDegree : fieldModulus.natDegree = 128 := by
  unfold fieldModulus; compute_degree!

theorem fieldModulus_ne_zero : fieldModulus ≠ 0 := by
  intro h
  have := fieldModulus_natDegree
  simp [h] at this

theorem gf2Poly_degree_lt (w : Word) : (gf2Poly w).degree < fieldModulus.degree := by
  rw [Polynomial.degree_eq_natDegree fieldModulus_ne_zero, fieldModulus_natDegree, Polynomial.degree_lt_iff_coeff_zero]
  intro i hi
  rw [gf2Poly_coeff, BitVec.getLsbD_of_ge _ _ hi]
  rfl

theorem residue_eq_zero {w : Word} (h : residue w = 0) : w = 0 := by
  have hpoly : gf2Poly w = 0 :=
    Polynomial.eq_zero_of_dvd_of_degree_lt (AdjoinRoot.mk_eq_zero.mp h) (gf2Poly_degree_lt w)
  refine BitVec.eq_of_getLsbD_eq fun i _ => ?_
  have hcoeff := gf2Poly_coeff w i
  rw [hpoly, Polynomial.coeff_zero] at hcoeff
  split_ifs at hcoeff with hi
  · exact absurd hcoeff (by decide)
  · simpa using hi

theorem residue_injective : Function.Injective residue := by
  intro a b h
  have hsum : residue (a ^^^ b) = 0 := by rw [residue_xor, h, ← residue_xor, BitVec.xor_self]; exact residue_zero
  exact BitVec.xor_eq_zero_iff.mp (residue_eq_zero hsum)

/-! ## The modulus is irreducible

Rabin's test: X^(2^128) = X modulo the modulus, and X^(2^64) + X has an inverse modulo it. The powers are reached by repeated squaring, eight blocks of sixteen. -/

/-- `n` squarings of a word, natural ordering. -/
def squarings (n : Nat) (w : Word) : Word := (fun v => feMuln v v)^[n] w

theorem residue_squarings (n : Nat) (w : Word) : residue (squarings n w) = residue w ^ 2 ^ n := by
  induction n with
  | zero => simp [squarings]
  | succ n ih =>
    have hstep : squarings (n + 1) w = feMuln (squarings n w) (squarings n w) :=
      Function.iterate_succ_apply' _ n w
    rw [hstep, residue_feMuln, ih, ← pow_two, ← pow_mul, ← pow_succ]

theorem squarings_add (m n : Nat) (w : Word) : squarings (m + n) w = squarings m (squarings n w) :=
  Function.iterate_add_apply _ m n w

theorem squarings_two_16 : squarings 16 2 = 0x1001001111110961118fe6196978ef70 := by decide +kernel
theorem squarings_two_32 :
    squarings 16 0x1001001111110961118fe6196978ef70 = 0x782d0a995dd3b01821777af80695052a := by decide +kernel
theorem squarings_two_48 :
    squarings 16 0x782d0a995dd3b01821777af80695052a = 0xe316b61772920218fe1d7816d9eb81fd := by decide +kernel
theorem squarings_two_64 :
    squarings 16 0xe316b61772920218fe1d7816d9eb81fd = 0x61651fea6b5832b944e598a795a299f6 := by decide +kernel
theorem squarings_two_80 :
    squarings 16 0x61651fea6b5832b944e598a795a299f6 = 0x79a3d532b4dca977042a87c2811ee47a := by decide +kernel
theorem squarings_two_96 :
    squarings 16 0x79a3d532b4dca977042a87c2811ee47a = 0x40e2dfc1450698cadca8758ed620dd7b := by decide +kernel
theorem squarings_two_112 :
    squarings 16 0x40e2dfc1450698cadca8758ed620dd7b = 0xc77a431b17442dc246bdf85b5f5764d5 := by decide +kernel
theorem squarings_two_128 : squarings 16 0xc77a431b17442dc246bdf85b5f5764d5 = 2 := by decide +kernel

theorem squarings_64_two : squarings 64 2 = 0x61651fea6b5832b944e598a795a299f6 := by
  rw [squarings_add 16 48, squarings_add 16 32, squarings_add 16 16, squarings_two_16, squarings_two_32,
    squarings_two_48, squarings_two_64]

theorem squarings_128_two : squarings 128 2 = 2 := by
  rw [squarings_add 16 112, squarings_add 16 96, squarings_add 16 80, squarings_add 16 64, squarings_64_two,
    squarings_two_80, squarings_two_96, squarings_two_112, squarings_two_128]

/-- X^(2^64) + X has an inverse. -/
theorem squarings_64_add_X_inverse : feMuln (squarings 64 2 ^^^ 2) 0x9e4af928ddbc838a41a8cafd2c95b018 = 1 := by
  rw [squarings_64_two]; decide +kernel

theorem residue_squarings_two (n : Nat) : residue (squarings n 2) = AdjoinRoot.root fieldModulus ^ 2 ^ n := by
  rw [residue_squarings, residue_two]

theorem modulus_dvd_of_squarings_eq {n : Nat} (h : squarings n 2 = 2) :
    fieldModulus ∣ Polynomial.X ^ 2 ^ n - Polynomial.X := by
  rw [← AdjoinRoot.mk_eq_zero, map_sub, map_pow, AdjoinRoot.mk_X, ← residue_squarings_two, h, residue_two, sub_self]

/-- If X^(2^n) + X has an inverse modulo the modulus, no factor of the modulus but a unit divides it. -/
theorem isUnit_of_dvd_modulus {n : Nat} {v : Word} (hv : feMuln (squarings n 2 ^^^ 2) v = 1)
    {q : Polynomial (ZMod 2)} (hq : q ∣ fieldModulus) (hn : q ∣ Polynomial.X ^ 2 ^ n - Polynomial.X) : IsUnit q := by
  have hres : AdjoinRoot.mk fieldModulus ((Polynomial.X ^ 2 ^ n + Polynomial.X) * gf2Poly v - 1) = 0 := by
    have h := congrArg residue hv
    rw [residue_feMuln, residue_xor, residue_squarings_two, residue_two, residue_one, residue] at h
    rw [map_sub, map_mul, map_add, map_pow, AdjoinRoot.mk_X, map_one, h, sub_self]
  have hmod : q ∣ (Polynomial.X ^ 2 ^ n + Polynomial.X) * gf2Poly v - 1 := hq.trans (AdjoinRoot.mk_eq_zero.mp hres)
  rw [CharTwo.sub_eq_add] at hn
  exact isUnit_of_dvd_one ((dvd_sub_right (hn.mul_right (gf2Poly v))).mp hmod)

theorem natDegree_dvd_iff_dvd_X_pow_sub {q : Polynomial (ZMod 2)} (hirr : Irreducible q) (n : Nat) :
    q.natDegree ∣ n ↔ q ∣ Polynomial.X ^ 2 ^ n - Polynomial.X := by
  have h := hirr.natDegree_dvd_iff_dvd_X_pow_card_pow_sub_X (n := n)
  rwa [Nat.card_zmod 2] at h

theorem irreducible_factor_natDegree {q : Polynomial (ZMod 2)} (hirr : Irreducible q) (hq : q ∣ fieldModulus) :
    q.natDegree = 128 := by
  have h128 : ∀ n, squarings n 2 = 2 → q.natDegree ∣ n := fun n hn =>
    (natDegree_dvd_iff_dvd_X_pow_sub hirr n).mpr (hq.trans (modulus_dvd_of_squarings_eq hn))
  have h64 : ∀ n v, feMuln (squarings n 2 ^^^ 2) v = 1 → ¬ q.natDegree ∣ n := fun n v hv hn =>
    hirr.not_isUnit (isUnit_of_dvd_modulus hv hq ((natDegree_dvd_iff_dvd_X_pow_sub hirr n).mp hn))
  exact Nat.eq_prime_pow_of_dvd_least_prime_pow (k := 6) Nat.prime_two (h64 64 _ squarings_64_add_X_inverse)
    (h128 128 squarings_128_two)

theorem fieldModulus_irreducible : Irreducible fieldModulus := by
  have hunit : ¬ IsUnit fieldModulus := fun h => by
    have := Polynomial.natDegree_eq_zero_of_isUnit h
    rw [fieldModulus_natDegree] at this
    omega
  obtain ⟨q, hirr, hq⟩ := WfDvdMonoid.exists_irreducible_factor hunit fieldModulus_ne_zero
  have hdeg : fieldModulus.natDegree ≤ q.natDegree := by
    rw [fieldModulus_natDegree, irreducible_factor_natDegree hirr hq]
  exact (Polynomial.associated_of_dvd_of_natDegree_le hq fieldModulus_ne_zero hdeg).irreducible hirr

end Sys2Proof.Machine
end

section
/-! The field law in GCM ordering (R52 to R54, R102 to R106): the converter bit by bit, the multiplier as the product of field elements, powers and the inverse. -/

namespace Sys2Proof.Machine

/-! ## The converter (R53) -/

/-- An exchange of neighbouring groups of `k` bits, given the mask of the even groups. -/
def swapGroups (k : Nat) (mask w : Word) : Word := ((w >>> k) &&& mask) ||| ((w &&& mask) <<< k)

theorem brev8_eq_swapGroups (w : Word) :
    brev8 w = swapGroups 4 0x0F0F0F0F0F0F0F0F0F0F0F0F0F0F0F0F (swapGroups 2 0x33333333333333333333333333333333
      (swapGroups 1 0x55555555555555555555555555555555 w)) := rfl

theorem swapGroups_getLsbD {k : Nat} (hk : k = 1 ∨ k = 2 ∨ k = 4) {mask : Word}
    (hmask : ∀ j < 128, mask.getLsbD j = decide (j / k % 2 = 0)) (w : Word) {i : Nat} (hi : i < 128) :
    (swapGroups k mask w).getLsbD i = w.getLsbD (if i / k % 2 = 0 then i + k else i - k) := by
  rw [swapGroups, BitVec.getLsbD_or, BitVec.getLsbD_and, BitVec.getLsbD_ushiftRight, BitVec.getLsbD_shiftLeft, BitVec.getLsbD_and,
    hmask i hi, hmask (i - k) (by omega)]
  by_cases heven : i / k % 2 = 0
  · have hlow : i < k ∨ ¬ (i - k) / k % 2 = 0 := by rcases hk with rfl | rfl | rfl <;> omega
    rcases hlow with h | h <;> simp [heven, h, Nat.add_comm]
  · have hhigh : ¬ i < k ∧ (i - k) / k % 2 = 0 := by rcases hk with rfl | rfl | rfl <;> omega
    simp [heven, hi, hhigh]

/-- R53's formula: the bits inside each byte reversed. -/
theorem brev8_getLsbD (w : Word) {i : Nat} (hi : i < 128) :
    (brev8 w).getLsbD i = w.getLsbD (8 * (i / 8) + 7 - i % 8) := by
  have hmask1 : ∀ j < 128, (0x55555555555555555555555555555555 : Word).getLsbD j = decide (j / 1 % 2 = 0) := by
    decide +kernel
  have hmask2 : ∀ j < 128, (0x33333333333333333333333333333333 : Word).getLsbD j = decide (j / 2 % 2 = 0) := by
    decide +kernel
  have hmask4 : ∀ j < 128, (0x0F0F0F0F0F0F0F0F0F0F0F0F0F0F0F0F : Word).getLsbD j = decide (j / 4 % 2 = 0) := by
    decide +kernel
  rw [brev8_eq_swapGroups, swapGroups_getLsbD (by omega) hmask4 _ hi,
    swapGroups_getLsbD (by omega) hmask2 _ (by split_ifs <;> omega),
    swapGroups_getLsbD (by omega) hmask1 _ (by split_ifs <;> omega)]
  congr 1
  split_ifs <;> omega

theorem brev8_brev8 (w : Word) : brev8 (brev8 w) = w := by
  refine BitVec.eq_of_getLsbD_eq fun i hi => ?_
  rw [brev8_getLsbD _ hi, brev8_getLsbD _ (by omega)]
  congr 1
  omega

theorem brev8_xor (a b : Word) : brev8 (a ^^^ b) = brev8 a ^^^ brev8 b := by
  refine BitVec.eq_of_getLsbD_eq fun i hi => ?_
  simp only [BitVec.getLsbD_xor, brev8_getLsbD _ hi]

/-! ## Words as field elements, GCM ordering (R52, R102) -/

/-- The field element a register word stands for. -/
noncomputable def toField (w : Word) : AdjoinRoot fieldModulus := residue (brev8 w)

theorem toField_injective : Function.Injective toField := fun a b h => by
  rw [← brev8_brev8 a, residue_injective h, brev8_brev8]

theorem toField_feAdd (a b : Word) : toField (feAdd a b) = toField a + toField b := by
  rw [toField, feAdd, brev8_xor, residue_xor]; rfl

theorem toField_feMul (a b : Word) : toField (feMul a b) = toField a * toField b := by
  rw [toField, feMul, brev8_brev8, residue_feMuln]; rfl

theorem toField_zero : toField 0 = 0 := by
  rw [toField, show brev8 0 = 0 by decide +kernel, residue_zero]

theorem toField_one : toField fieldOne = 1 := by
  rw [toField, show brev8 fieldOne = 1 by decide +kernel, residue_one]

theorem toField_eq_zero {w : Word} : toField w = 0 ↔ w = 0 := by
  rw [← toField_zero, toField_injective.eq_iff]

/-! ## The multiplication laws (R102) -/

theorem feMul_comm (a b : Word) : feMul a b = feMul b a :=
  toField_injective (by simp only [toField_feMul, mul_comm])

theorem feMul_assoc (a b c : Word) : feMul (feMul a b) c = feMul a (feMul b c) :=
  toField_injective (by simp only [toField_feMul, mul_assoc])

theorem feMul_feAdd (a b c : Word) : feMul a (feAdd b c) = feAdd (feMul a b) (feMul a c) :=
  toField_injective (by simp only [toField_feMul, toField_feAdd, mul_add])

@[simp] theorem feMul_fieldOne (a : Word) : feMul a fieldOne = a :=
  toField_injective (by rw [toField_feMul, toField_one, mul_one])

@[simp] theorem feMul_zero (a : Word) : feMul a 0 = 0 :=
  toField_injective (by rw [toField_feMul, toField_zero, mul_zero])

@[simp] theorem zero_feMul (a : Word) : feMul 0 a = 0 := by rw [feMul_comm, feMul_zero]

/-! ## Powers and the inverse (R103, R104) -/

theorem toField_fePowLoop (n : Nat) (r x : Word) {e : Nat} (he : e < 2 ^ n) :
    toField (fePowLoop n r x e) = toField r * toField x ^ e := by
  induction n generalizing r x e with
  | zero => obtain rfl : e = 0 := by omega
            rw [fePowLoop, pow_zero, mul_one]
  | succ n ih =>
    unfold fePowLoop
    split_ifs with h0 hodd
    · rw [h0, pow_zero, mul_one]
    · rw [ih _ _ (by omega), toField_feMul, toField_feMul, ← pow_two, ← pow_mul, mul_assoc, ← pow_succ']
      congr 2; omega
    · rw [ih _ _ (by omega), toField_feMul, ← pow_two, ← pow_mul]
      congr 2; omega

theorem toField_fePow (a : Word) (e : Nat) : toField (fePow a e) = toField a ^ e := by
  rw [fePow, toField_fePowLoop _ _ _ Nat.lt_log2_self, toField_one, one_mul]

theorem fePow_fieldOne (e : Nat) : fePow fieldOne e = fieldOne :=
  toField_injective (by rw [toField_fePow, toField_one, one_pow])

/-- The nonzero elements of the field form a group of order 2^128 - 1. -/
theorem pow_card_sub_one {x : AdjoinRoot fieldModulus} (hx : x ≠ 0) : x ^ (2 ^ 128 - 1) = 1 := by
  have : Fact (Irreducible fieldModulus) := ⟨fieldModulus_irreducible⟩
  have hfinite : Module.Finite (ZMod 2) (AdjoinRoot fieldModulus) :=
    (AdjoinRoot.powerBasis fieldModulus_ne_zero).finite
  have hcard : Nat.card (AdjoinRoot fieldModulus)ˣ = 2 ^ 128 - 1 := by
    rw [Nat.card_units, Module.natCard_eq_pow_finrank (K := ZMod 2), Nat.card_zmod,
      (AdjoinRoot.powerBasis fieldModulus_ne_zero).finrank, AdjoinRoot.powerBasis_dim, fieldModulus_natDegree]
  have hunit : Units.mk0 x hx ^ (2 ^ 128 - 1) = 1 := hcard ▸ pow_card_eq_one'
  simpa using congrArg Units.val hunit

theorem feMul_fePow_inverse {a : Word} (ha : a ≠ 0) : feMul a (fePow a (2 ^ 128 - 2)) = fieldOne := by
  refine toField_injective ?_
  rw [toField_feMul, toField_fePow, ← pow_succ', toField_one]
  exact pow_card_sub_one (mt toField_eq_zero.mp ha)

/-- R104: every nonzero element has an inverse. -/
theorem feInv_of_ne_zero {a : Word} (ha : a ≠ 0) : ∃ v, feInv a = .ok v ∧ feMul a v = fieldOne :=
  ⟨_, if_neg ha, feMul_fePow_inverse ha⟩

theorem feInv_fieldOne : feInv fieldOne = .ok fieldOne :=
  (if_neg (by decide)).trans (congrArg _ (fePow_fieldOne _))

/-- R105: the quotient by a nonzero divisor exists, and times the divisor is the dividend. -/
theorem feDiv_of_ne_zero (a : Word) {b : Word} (hb : b ≠ 0) : ∃ x, feDiv a b = .ok x ∧ feMul x b = a := by
  obtain ⟨v, hv, hmul⟩ := feInv_of_ne_zero hb
  refine ⟨feMul a v, by simp only [feDiv, hv], ?_⟩
  rw [feMul_assoc, feMul_comm v, hmul, feMul_fieldOne]

end Sys2Proof.Machine
end

section
/-! Degrees (R143, R148, R153, R154): the coefficients of each polynomial function, the fall of the degree in a division, and what quotients, remainders, monic forms and greatest common divisors of nonzero polynomials give. -/

namespace Sys2Proof.Machine

/-! ## Coefficients -/

@[simp] theorem coeffAt_canon (p : List Word) (i : Nat) : coeffAt (canon p) i = coeffAt p i := canon_getD p i

theorem coeffAt_of_length_le {p : Poly} {i : Nat} (h : p.length ≤ i) : coeffAt p i = 0 := by
  simp [coeffAt, h]

@[simp] theorem coeffAt_polyZero (i : Nat) : coeffAt polyZero i = 0 := by
  cases i <;> simp [coeffAt, polyZero, fieldZero]

theorem coeffAt_addCoeffs (p q : List Word) (i : Nat) :
    coeffAt (addCoeffs p q) i = feAdd (coeffAt p i) (coeffAt q i) := by
  induction p generalizing q i with
  | nil => simp [addCoeffs, coeffAt, feAdd]
  | cons c p ih =>
    cases q with
    | nil => simp [addCoeffs, coeffAt, feAdd]
    | cons d q =>
      cases i with
      | zero => simp [addCoeffs, coeffAt]
      | succ i => simpa [addCoeffs, coeffAt] using ih q i

@[simp] theorem coeffAt_pAdd (p q : Poly) (i : Nat) : coeffAt (pAdd p q) i = feAdd (coeffAt p i) (coeffAt q i) := by
  rw [pAdd, coeffAt_canon, coeffAt_addCoeffs]

theorem coeffAt_map {g : Word → Word} (hg : g 0 = 0) (p : List Word) (i : Nat) :
    coeffAt (p.map g) i = g (coeffAt p i) := by
  simp only [coeffAt, List.getD_eq_getElem?_getD, List.getElem?_map]
  cases p[i]? with
  | none => exact hg.symm
  | some c => rfl

@[simp] theorem coeffAt_scale (c : Word) (p : List Word) (i : Nat) :
    coeffAt (scale c p) i = feMul c (coeffAt p i) := coeffAt_map (feMul_zero c) p i

@[simp] theorem coeffAt_shiftBy (k : Nat) (p : List Word) (i : Nat) :
    coeffAt (shiftBy k p) i = if i < k then 0 else coeffAt p (i - k) := by
  simp only [coeffAt, shiftBy, List.getD_eq_getElem?_getD]
  split_ifs with h
  · simp [List.getElem?_append_left, h, fieldZero]
  · rw [List.getElem?_append_right (by simpa using h), List.length_replicate]

theorem coeffAt_derivCoeffs (odd : Bool) (p : List Word) (i : Nat) :
    coeffAt (derivCoeffs odd p) i = if odd = (i % 2 == 0) then coeffAt p i else 0 := by
  induction p generalizing odd i with
  | nil => simp [derivCoeffs, coeffAt]
  | cons c p ih =>
    cases i with
    | zero => cases odd <;> simp [derivCoeffs, coeffAt, fieldZero]
    | succ i =>
      have hparity : ((i + 1) % 2 == 0) = !(i % 2 == 0) := by
        rw [Bool.eq_iff_iff, Bool.not_eq_true', beq_iff_eq, beq_eq_false_iff_ne]
        omega
      have hrest := ih (!odd) i
      simp only [coeffAt, derivCoeffs, List.getD_cons_succ] at hrest ⊢
      rw [hrest, hparity]
      cases odd <;> cases i % 2 == 0 <;> rfl

/-- R151: the coefficients of the formal derivative. -/
theorem coeffAt_pDeriv (p : Poly) (i : Nat) :
    coeffAt (pDeriv p) i = if i % 2 = 0 then coeffAt p (i + 1) else 0 := by
  have htail : coeffAt p.tail i = coeffAt p (i + 1) := by cases p <;> rfl
  rw [pDeriv, coeffAt_canon, coeffAt_derivCoeffs, htail]
  exact if_congr (eq_comm.trans beq_iff_eq) rfl rfl

/-! ## Degree and leading coefficient -/

/-- A canonical polynomial other than zero. -/
structure NonzeroPoly (p : Poly) : Prop where
  canonical : Canonical p
  ne_zero : p ≠ polyZero

/-- A canonical polynomial whose leading coefficient is one. -/
structure MonicPoly (p : Poly) : Prop where
  canonical : Canonical p
  lc : lc p = fieldOne

theorem lc_eq_coeffAt (p : Poly) : lc p = coeffAt p (deg p) := by
  cases h : p.getLast? with
  | none => rw [List.getLast?_eq_none_iff.mp h]; rfl
  | some c => simp [Sys2Proof.Machine.lc, coeffAt, deg, List.getLastD_eq_getLast?, h, ← List.getLast?_eq_getElem?]

theorem Canonical.length_eq {p : Poly} (h : Canonical p) : p.length = deg p + 1 := by
  have := h.length_pos
  unfold deg
  omega

theorem ne_polyZero_of_deg_pos {p : Poly} (h : 1 ≤ deg p) : p ≠ polyZero := by
  rintro rfl
  exact absurd h (by decide)

theorem NonzeroPoly.lc_ne_zero {p : Poly} (h : NonzeroPoly p) : lc p ≠ 0 := by
  obtain ⟨hne, hlast⟩ := (canonical_iff p).mp h.canonical
  have hlc : lc p = p.getLast hne := by simp [lc, List.getLastD_eq_getLast?, List.getLast?_eq_some_getLast hne]
  rw [hlc]
  rcases hlast with hlen | hlast
  · obtain ⟨c, rfl⟩ := List.length_eq_one_iff.mp hlen
    rintro (hc : c = 0)
    exact h.ne_zero (by rw [hc]; rfl)
  · exact hlast

theorem MonicPoly.nonzero {p : Poly} (h : MonicPoly p) : NonzeroPoly p where
  canonical := h.canonical
  ne_zero := by
    rintro rfl
    exact absurd h.lc (by decide)

theorem le_deg_of_coeffAt_ne {p : Poly} {k : Nat} (h : coeffAt p k ≠ 0) : k ≤ deg p := by
  have hk : k < p.length := by
    by_contra hk
    exact h (coeffAt_of_length_le (by omega))
  unfold deg
  omega

theorem coeffAt_of_deg_lt {p : Poly} {i : Nat} (h : deg p < i) : coeffAt p i = 0 := by
  by_contra hne
  have := le_deg_of_coeffAt_ne hne
  omega

theorem ne_polyZero_of_coeffAt_ne {p : Poly} {k : Nat} (h : coeffAt p k ≠ 0) : p ≠ polyZero := by
  rintro rfl
  exact h (coeffAt_polyZero k)

/-- A canonical polynomial without coefficients from `n` on is zero or has its degree below `n`. -/
theorem Canonical.eq_zero_or_deg_lt {p : Poly} (hp : Canonical p) {n : Nat} (h : ∀ i, n ≤ i → coeffAt p i = 0) :
    p = polyZero ∨ deg p < n := by
  by_contra hc
  push Not at hc
  exact NonzeroPoly.lc_ne_zero ⟨hp, hc.1⟩ ((lc_eq_coeffAt p).trans (h _ hc.2))

theorem Canonical.eq_polyZero {p : Poly} (hp : Canonical p) (h : ∀ i, coeffAt p i = 0) : p = polyZero :=
  (hp.eq_zero_or_deg_lt (n := 0) fun i _ => h i).resolve_right (by omega)

/-- The degree is the place of the last coefficient that is not zero. -/
theorem Canonical.deg_eq {p : Poly} (hp : Canonical p) {k : Nat} (hk : coeffAt p k ≠ 0)
    (h : ∀ i, k < i → coeffAt p i = 0) : deg p = k := by
  have hlt := (hp.eq_zero_or_deg_lt (n := k + 1) fun i hi => h i hi).resolve_left (ne_polyZero_of_coeffAt_ne hk)
  have hle := le_deg_of_coeffAt_ne hk
  omega

theorem MonicPoly.eq_polyOne {p : Poly} (h : MonicPoly p) (hd : deg p = 0) : p = polyOne := by
  obtain ⟨c, rfl⟩ := List.length_eq_one_iff.mp (h.canonical.length_eq.trans (by omega))
  exact congrArg (fun x => [x]) h.lc

/-! ## Division (R148) -/

theorem feAdd_self (a : Word) : feAdd a a = 0 := BitVec.xor_self

theorem feAdd_eq_left {a b : Word} : feAdd a b = a ↔ b = 0 := by
  rw [← toField_injective.eq_iff, toField_feAdd, add_eq_left, toField_eq_zero]

/-- A round of the long division cancels the leading coefficient of the running dividend. -/
theorem divRound_falls {m r : Poly} {fac : Word} (hd : deg m ≤ deg r) (hfac : feMul fac (lc m) = lc r) :
    pAdd r (shiftBy (deg r - deg m) (scale fac m)) = polyZero ∨
      deg (pAdd r (shiftBy (deg r - deg m) (scale fac m))) < deg r := by
  refine (pAdd_canonical _ _).eq_zero_or_deg_lt fun i hi => ?_
  rw [coeffAt_pAdd, coeffAt_shiftBy, if_neg (by omega), coeffAt_scale]
  rcases hi.eq_or_lt with rfl | hlt
  · rw [Nat.sub_sub_self hd, ← lc_eq_coeffAt, ← lc_eq_coeffAt, hfac, feAdd_self]
  · rw [coeffAt_of_deg_lt hlt, coeffAt_of_deg_lt (p := m) (by omega), feMul_zero, feAdd_self]

/-- A round of the long division sets one coefficient of the quotient. -/
theorem coeffAt_divRound (q : Poly) (k : Nat) (fac : Word) (i : Nat) :
    coeffAt (pAdd q (shiftBy k [fac])) i = if i = k then feAdd (coeffAt q i) fac else coeffAt q i := by
  rw [coeffAt_pAdd, coeffAt_shiftBy]
  obtain h | rfl | h : i < k ∨ i = k ∨ k < i := by omega
  · simp [h, h.ne, feAdd]
  · simp [coeffAt]
  · have hout : coeffAt [fac] (i - k) = 0 := coeffAt_of_length_le (by simp; omega)
    simp [hout, h.ne', h.not_gt, feAdd]

/-- The long division by a nonzero `m`: the remainder is zero or of lower degree than `m`, and the quotient gets its first new coefficient at the difference of the degrees, and none above it. -/
theorem divLoop_spec {m : Poly} (hm : NonzeroPoly m) (n : Nat) (q : Poly) {r : Poly} (hr : Canonical r)
    (hn : r = polyZero ∨ deg r < n) :
    ∃ q' r', divLoop m n q r = .ok (q', r') ∧ (r' = polyZero ∨ deg r' < deg m) ∧
      (∀ i, r = polyZero ∨ deg r < deg m + i → coeffAt q' i = coeffAt q i) ∧
      (r ≠ polyZero → deg m ≤ deg r → coeffAt q' (deg r - deg m) ≠ coeffAt q (deg r - deg m)) := by
  induction n generalizing q r with
  | zero =>
    obtain rfl := hn.resolve_right (by omega)
    exact ⟨q, polyZero, rfl, .inl rfl, fun _ _ => rfl, fun hne => absurd rfl hne⟩
  | succ n ih =>
    by_cases hstop : deg r < deg m ∨ r = polyZero
    · refine ⟨q, r, divLoop_stop _ hstop, hstop.symm, fun _ _ => rfl, fun hne hd => ?_⟩
      exact absurd (hstop.resolve_right hne) (by omega)
    push Not at hstop
    obtain ⟨hd, hne⟩ := hstop
    obtain ⟨fac, hdiv, hfac⟩ := feDiv_of_ne_zero (lc r) hm.lc_ne_zero
    have hfac0 : fac ≠ 0 := by
      rintro rfl
      exact NonzeroPoly.lc_ne_zero ⟨hr, hne⟩ (hfac.symm.trans (zero_feMul _))
    have hfall := divRound_falls hd hfac
    have hlt : deg r < n + 1 := hn.resolve_left hne
    obtain ⟨q', r', hloop, hr', hq', -⟩ := ih (pAdd q (shiftBy (deg r - deg m) [fac])) (pAdd_canonical _ _)
      (hfall.imp_right fun h => by omega)
    refine ⟨q', r', (divLoop_round n hd hne hdiv).trans hloop, hr', fun i hi => ?_, fun _ _ => ?_⟩
    · have hi' : deg r < deg m + i := hi.resolve_left hne
      rw [hq' i (hfall.imp_right fun h => by omega), coeffAt_divRound, if_neg (by omega)]
    · rw [hq' _ (hfall.imp_right fun h => by omega), coeffAt_divRound, if_pos rfl]
      exact mt feAdd_eq_left.mp hfac0

theorem pDivmod_spec {u v : Poly} (hu : Canonical u) (hv : NonzeroPoly v) :
    ∃ q r, pDivmod u v = .ok (q, r) ∧ (r = polyZero ∨ deg r < deg v) ∧
      (u ≠ polyZero → deg v ≤ deg u → q ≠ polyZero ∧ deg q = deg u - deg v) := by
  have hfuel : u = polyZero ∨ deg u < u.length := .inr (by have := hu.length_eq; omega)
  obtain ⟨q, r, hloop, hr, hhigh, hlead⟩ := divLoop_spec hv u.length polyZero hu hfuel
  have hdiv : pDivmod u v = .ok (q, r) := (if_neg hv.ne_zero).trans hloop
  refine ⟨q, r, hdiv, hr, fun hu0 hd => ?_⟩
  have hq : coeffAt q (deg u - deg v) ≠ 0 := by simpa using hlead hu0 hd
  refine ⟨ne_polyZero_of_coeffAt_ne hq, (pDivmod_canonical hu hdiv).1.deg_eq hq fun i hi => ?_⟩
  rw [hhigh i (.inr (by omega)), coeffAt_polyZero]

theorem rem_spec {u v : Poly} (hu : Canonical u) (hv : NonzeroPoly v) :
    ∃ r, rem u v = .ok r ∧ Canonical r ∧ (r = polyZero ∨ deg r < deg v) := by
  obtain ⟨q, r, hdiv, hr, -⟩ := pDivmod_spec hu hv
  exact ⟨r, by rw [rem, hdiv]; rfl, (pDivmod_canonical hu hdiv).2, hr⟩

theorem quo_spec {u v : Poly} (hu : NonzeroPoly u) (hv : NonzeroPoly v) (hd : deg v ≤ deg u) :
    ∃ q, quo u v = .ok q ∧ NonzeroPoly q ∧ deg q = deg u - deg v := by
  obtain ⟨q, r, hdiv, -, hq⟩ := pDivmod_spec hu.canonical hv
  obtain ⟨hq0, hdeg⟩ := hq hu.ne_zero hd
  exact ⟨q, by rw [quo, hdiv]; rfl, ⟨(pDivmod_canonical hu.canonical hdiv).1, hq0⟩, hdeg⟩

/-! ## The monic form (R153) -/

theorem pMonic_spec {p : Poly} (hp : NonzeroPoly p) :
    ∃ r, pMonic p = .ok r ∧ MonicPoly r ∧ deg r = deg p ∧ ∃ v, ∀ i, coeffAt r i = feMul (coeffAt p i) v := by
  obtain ⟨v, hv, hmul⟩ := feInv_of_ne_zero hp.lc_ne_zero
  have hr : pMonic p = .ok (canon (p.map fun c => feMul c v)) := by
    rw [pMonic, if_neg hp.ne_zero, hv]
  have hcoeff : ∀ i, coeffAt (canon (p.map fun c => feMul c v)) i = feMul (coeffAt p i) v := fun i => by
    rw [coeffAt_canon, coeffAt_map (zero_feMul v)]
  have hlead : coeffAt (canon (p.map fun c => feMul c v)) (deg p) = fieldOne := by
    rw [hcoeff, ← lc_eq_coeffAt, hmul]
  have hdeg : deg (canon (p.map fun c => feMul c v)) = deg p := by
    refine (canon_canonical _).deg_eq (hlead ▸ by decide) fun i hi => ?_
    rw [hcoeff, coeffAt_of_deg_lt hi, zero_feMul]
  exact ⟨_, hr, ⟨canon_canonical _, by rw [lc_eq_coeffAt, hdeg, hlead]⟩, hdeg, v, hcoeff⟩

theorem pMonic_of_monic {p : Poly} (hp : MonicPoly p) : pMonic p = .ok p := by
  have hid : (p.map fun c => feMul c fieldOne) = p := by simp
  rw [pMonic, if_neg hp.nonzero.ne_zero, hp.lc, feInv_fieldOne]
  exact congrArg _ ((congrArg canon hid).trans hp.canonical)

/-! ## The greatest common divisor (R154) -/

theorem gcdLoop_spec (n : Nat) {u v : Poly} (hu : NonzeroPoly u) (hv : Canonical v) (hd : deg v ≤ deg u) :
    ∃ g, gcdLoop n u v = .ok g ∧ NonzeroPoly g ∧ deg g ≤ deg u := by
  induction n generalizing u v with
  | zero => exact ⟨u, rfl, hu, le_rfl⟩
  | succ n ih =>
    by_cases hv0 : v = polyZero
    · exact ⟨u, hv0 ▸ gcdLoop_zero _ u, hu, le_rfl⟩
    · obtain ⟨r, hrem, hr, hlt⟩ := rem_spec hu.canonical ⟨hv, hv0⟩
      have hle : deg r ≤ deg v := hlt.elim (fun h => h ▸ Nat.zero_le _) Nat.le_of_lt
      obtain ⟨g, hg, hgn, hgd⟩ := ih ⟨hv, hv0⟩ hr hle
      exact ⟨g, (gcdLoop_round n hv0 hrem).trans hg, hgn, hgd.trans hd⟩

/-- Euclid's loop with a nonzero second operand: the result is no longer than it. -/
theorem gcdLoop_succ_spec (n : Nat) {u v : Poly} (hu : Canonical u) (hv : NonzeroPoly v) :
    ∃ g, gcdLoop (n + 1) u v = .ok g ∧ NonzeroPoly g ∧ deg g ≤ deg v := by
  obtain ⟨r, hrem, hr, hlt⟩ := rem_spec hu hv
  have hle : deg r ≤ deg v := hlt.elim (fun h => h ▸ Nat.zero_le _) Nat.le_of_lt
  obtain ⟨g, hg, hgn, hgd⟩ := gcdLoop_spec n hv hr hle
  exact ⟨g, (gcdLoop_round n hv.ne_zero hrem).trans hg, hgn, hgd⟩

/-- Euclid's loop from operands in order of degree, not both zero: the result is no longer than a nonzero operand. -/
theorem gcdLoop_ordered_spec (n : Nat) {u v : Poly} (hu : Canonical u) (hv : Canonical v) (hd : deg v ≤ deg u)
    (hne : u ≠ polyZero ∨ v ≠ polyZero) : ∃ g, gcdLoop (n + 1) u v = .ok g ∧ NonzeroPoly g ∧
      (u ≠ polyZero → deg g ≤ deg u) ∧ (v ≠ polyZero → deg g ≤ deg v) := by
  by_cases hv0 : v = polyZero
  · have hu0 : u ≠ polyZero := hne.resolve_right (not_not.mpr hv0)
    exact ⟨u, hv0 ▸ gcdLoop_zero _ u, ⟨hu, hu0⟩, fun _ => le_rfl, fun h => absurd hv0 h⟩
  · obtain ⟨g, hg, hgn, hgd⟩ := gcdLoop_succ_spec n hu ⟨hv, hv0⟩
    exact ⟨g, hg, hgn, fun _ => hgd.trans hd, fun _ => hgd⟩

theorem pGcd_of_loop {u v g : Poly}
    (h : gcdLoop (u.length + v.length + 1) (if deg u < deg v then v else u) (if deg u < deg v then u else v) = .ok g) :
    pGcd u v = pMonic g := by
  simp only [pGcd, h]

/-- R154: two polynomials not both zero have a monic greatest common divisor, of no greater degree than a nonzero one of them. -/
theorem pGcd_spec {u v : Poly} (hu : Canonical u) (hv : Canonical v) (hne : u ≠ polyZero ∨ v ≠ polyZero) :
    ∃ g, pGcd u v = .ok g ∧ MonicPoly g ∧ (u ≠ polyZero → deg g ≤ deg u) ∧ (v ≠ polyZero → deg g ≤ deg v) := by
  obtain ⟨w, hw, hwn, hwu, hwv⟩ : ∃ w, gcdLoop (u.length + v.length + 1) (if deg u < deg v then v else u)
      (if deg u < deg v then u else v) = .ok w ∧ NonzeroPoly w ∧
      (u ≠ polyZero → deg w ≤ deg u) ∧ (v ≠ polyZero → deg w ≤ deg v) := by
    split_ifs with hlt
    · obtain ⟨w, hw, hwn, hwv, hwu⟩ := gcdLoop_ordered_spec (u.length + v.length) hv hu hlt.le hne.symm
      exact ⟨w, hw, hwn, hwu, hwv⟩
    · exact gcdLoop_ordered_spec (u.length + v.length) hu hv (not_lt.mp hlt) hne
  obtain ⟨g, hg, hmonic, hdeg, -⟩ := pMonic_spec hwn
  exact ⟨g, (pGcd_of_loop hw).trans hg, hmonic, hdeg ▸ hwu, hdeg ▸ hwv⟩

/-- The greatest common divisor with zero is the monic form. -/
theorem pGcd_polyZero (u : Poly) : pGcd u polyZero = pMonic u :=
  pGcd_of_le (Nat.zero_le _) (gcdLoop_zero _ u)

/-! ## The modular power (R150) -/

theorem pPowmodLoop_total {m : Poly} (hm : NonzeroPoly m) (n : Nat) (r s : Poly) (e : Nat) :
    ∃ x, pPowmodLoop m n r s e = .ok x := by
  induction n generalizing r s e with
  | zero => exact ⟨r, rfl⟩
  | succ n ih =>
    obtain ⟨r', hr', -⟩ := rem_spec (pMul_canonical r s) hm
    obtain ⟨s', hs', -⟩ := rem_spec (pMul_canonical s s) hm
    by_cases h0 : e = 0
    · exact ⟨r, if_pos h0⟩
    · simp only [pPowmodLoop, if_neg h0, hr', hs', bind, Except.bind]
      split_ifs <;> exact ih _ _ _

theorem pPowmod_total {m : Poly} (hm : NonzeroPoly m) {p : Poly} (hp : Canonical p) (e : Nat) :
    ∃ x, pPowmod p e m = .ok x := by
  obtain ⟨r, hr, -⟩ := rem_spec canonical_polyOne hm
  obtain ⟨s, hs, -⟩ := rem_spec hp hm
  rw [pPowmod, if_neg hm.ne_zero, hr, hs]
  exact pPowmodLoop_total hm _ r s e

end Sys2Proof.Machine
end

section
/-! The equal-degree stage (R192, R194, R197): its candidates share the degree of its input, its draws are whole trials within the budget, and its only errors are that of its precondition and that of its budget. -/

namespace Sys2Proof.Machine

/-! ## Lists of parts of a polynomial -/

/-- Canonical polynomials of degree at least 1, whose degrees sum to at most `n`. -/
structure Parts (n : Nat) (z : List Poly) : Prop where
  part : ∀ u ∈ z, Canonical u ∧ 1 ≤ deg u
  sum_le : (z.map deg).sum ≤ n

theorem Parts.nil (n : Nat) : Parts n [] := ⟨by simp, Nat.zero_le _⟩

theorem Parts.singleton {u : Poly} (hu : Canonical u) (hd : 1 ≤ deg u) : Parts (deg u) [u] :=
  ⟨by simpa using ⟨hu, hd⟩, by simp⟩

theorem Parts.append {m n : Nat} {y z : List Poly} (hy : Parts m y) (hz : Parts n z) : Parts (m + n) (y ++ z) where
  part u hu := (List.mem_append.mp hu).elim (hy.part u) (hz.part u)
  sum_le := by
    rw [List.map_append, List.sum_append]
    exact add_le_add hy.sum_le hz.sum_le

theorem Parts.mono {m n : Nat} {z : List Poly} (hz : Parts m z) (h : m ≤ n) : Parts n z := ⟨hz.part, hz.sum_le.trans h⟩

theorem Parts.deg_le {n : Nat} {z : List Poly} (hz : Parts n z) {u : Poly} (hu : u ∈ z) : deg u ≤ n :=
  (List.le_sum_of_mem (List.mem_map_of_mem hu)).trans hz.sum_le

theorem Parts.length_le {n : Nat} {z : List Poly} (hz : Parts n z) : z.length ≤ n := by
  have h := List.length_le_sum_of_one_le (z.map deg) fun i hi => by
    obtain ⟨u, hu, rfl⟩ := List.mem_map.mp hi
    exact (hz.part u hu).2
  exact (List.length_map (as := z) deg ▸ h).trans hz.sum_le

theorem nonzero_of_deg_pos {u : Poly} (hu : Canonical u) (hd : 1 ≤ deg u) : NonzeroPoly u :=
  ⟨hu, ne_polyZero_of_deg_pos hd⟩

/-! ## A trial -/

theorem edfSplit_small {d : Nat} {g u : Poly} (hd : deg u ≤ d) : edfSplit d g u = .ok [u] :=
  if_neg (not_lt.mpr hd)

theorem edfSplit_trivial {d : Nat} {g u j : Poly} (hd : d < deg u) (hj : pGcd u g = .ok j)
    (h : ¬ (1 ≤ deg j ∧ deg j < deg u)) : edfSplit d g u = .ok [u] := by
  simp only [edfSplit, if_pos hd, hj, bind, Except.bind, if_neg h]

theorem edfSplit_nontrivial {d : Nat} {g u j q : Poly} (hd : d < deg u) (hj : pGcd u g = .ok j)
    (h : 1 ≤ deg j ∧ deg j < deg u) (hq : quo u j = .ok q) : edfSplit d g u = .ok [j, q] := by
  simp only [edfSplit, if_pos hd, hj, bind, Except.bind, if_pos h, hq]

/-- A split keeps the degree: a candidate gives itself, or a proper divisor and its co-factor. -/
theorem edfSplit_parts (d : Nat) {g u : Poly} (hg : Canonical g) (hu : Canonical u) (hd : 1 ≤ deg u) :
    ∃ z, edfSplit d g u = .ok z ∧ Parts (deg u) z := by
  have hu0 := nonzero_of_deg_pos hu hd
  obtain ⟨j, hj, hmonic, -⟩ := pGcd_spec hu hg (.inl hu0.ne_zero)
  by_cases hbig : d < deg u
  · by_cases hproper : 1 ≤ deg j ∧ deg j < deg u
    · obtain ⟨q, hq, hqn, hqd⟩ := quo_spec hu0 hmonic.nonzero hproper.2.le
      have hparts := (Parts.singleton hmonic.canonical hproper.1).append (Parts.singleton hqn.canonical (by omega))
      exact ⟨[j, q], edfSplit_nontrivial hbig hj hproper hq, hparts.mono (by omega)⟩
    · exact ⟨[u], edfSplit_trivial hbig hj hproper, .singleton hu hd⟩
  · exact ⟨[u], edfSplit_small (not_lt.mp hbig), .singleton hu hd⟩

theorem edfPass_parts (d : Nat) {g : Poly} (hg : Canonical g) {z : List Poly} {n : Nat} (hz : Parts n z) :
    ∃ y, edfPass d g z = .ok y ∧ Parts n y := by
  induction z generalizing n with
  | nil => exact ⟨[], rfl, .nil n⟩
  | cons u z ih =>
    obtain ⟨hu, hd⟩ := hz.part u (by simp)
    have hsum : deg u + (z.map deg).sum ≤ n := by simpa using hz.sum_le
    obtain ⟨a, ha, hpa⟩ := edfSplit_parts d hg hu hd
    obtain ⟨b, hb, hpb⟩ := ih ⟨fun v hv => hz.part v (by simp [hv]), le_rfl⟩
    exact ⟨a ++ b, by simp only [edfPass, ha, hb, bind, Except.bind], (hpa.append hpb).mono hsum⟩

theorem edfTrial_parts {f : Poly} (hf : NonzeroPoly f) (d : Nat) {h : Poly} (hh : Canonical h) {z : List Poly} {n : Nat}
    (hz : Parts n z) : ∃ y, edfTrial f d h z = .ok y ∧ Parts n y := by
  obtain ⟨x, hx⟩ := pPowmod_total hf hh ((2 ^ (128 * d) - 1) / 3)
  obtain ⟨y, hy, hp⟩ := edfPass_parts d (pAdd_canonical x polyOne) hz
  exact ⟨y, by simp only [edfTrial, hx, bind, Except.bind, hy], hp⟩

/-! ## The trials -/

/-- Some candidate still has degree above `d`. -/
def needsSplit (d : Nat) (z : List Poly) : Bool := z.any fun u => decide (d < deg u)

theorem needsSplit_eq_false {d : Nat} {z : List Poly} : needsSplit d z = false ↔ ∀ u ∈ z, deg u ≤ d := by
  simp [needsSplit]

section loop
variable {rand : Nat → Word} {f : Poly} {d : Nat} {z : List Poly}

theorem edfLoop_done (h : needsSplit d z = false) (t n : Nat) : edfLoop rand f d t n z = (.ok z, n) := by
  unfold needsSplit at h
  cases t <;> simp [edfLoop, h]

theorem edfLoop_spent (h : needsSplit d z = true) (n : Nat) :
    edfLoop rand f d 0 n z = (.error .retryBudgetExceeded, n) := by
  unfold needsSplit at h
  simp [edfLoop, h]

theorem edfLoop_trial_error (h : needsSplit d z = true) {n : Nat} {k : ErrorKind}
    (hk : edfTrial f d (edfDraw rand n (deg f)) z = .error k) (t : Nat) :
    edfLoop rand f d (t + 1) n z = (.error k, n + deg f) := by
  unfold needsSplit at h
  simp only [edfLoop, h, if_true, hk]

theorem edfLoop_trial_ok (h : needsSplit d z = true) {n : Nat} {y : List Poly}
    (hy : edfTrial f d (edfDraw rand n (deg f)) z = .ok y) (t : Nat) :
    edfLoop rand f d (t + 1) n z = edfLoop rand f d t (n + deg f) y := by
  unfold needsSplit at h
  simp only [edfLoop, h, if_true, hy]

end loop

/-- For an input that is not zero, the trials end with parts of the same degree in sum, or with the budget used up. -/
theorem edfLoop_parts (rand : Nat → Word) {f : Poly} (hf : NonzeroPoly f) (d t n : Nat) {m : Nat} {z : List Poly}
    (hz : Parts m z) : (∃ y, (edfLoop rand f d t n z).1 = .ok y ∧ Parts m y) ∨
      (edfLoop rand f d t n z).1 = .error .retryBudgetExceeded := by
  induction t generalizing n z with
  | zero =>
    cases hs : needsSplit d z with
    | false => exact .inl ⟨z, by rw [edfLoop_done hs], hz⟩
    | true => exact .inr (by rw [edfLoop_spent hs])
  | succ t ih =>
    cases hs : needsSplit d z with
    | false => exact .inl ⟨z, by rw [edfLoop_done hs], hz⟩
    | true =>
      obtain ⟨y, hy, hp⟩ := edfTrial_parts hf d (canon_canonical ((List.range (deg f)).map fun i => rand (n + i))) hz
      rw [edfLoop_trial_ok hs hy]
      exact ih _ hp

/-- R192's precondition. -/
def edfAccepts (f : Poly) (d : Nat) : Prop := f ≠ polyZero ∧ 1 ≤ deg f ∧ 1 ≤ d ∧ deg f % d = 0

theorem edf_of_accepts {f : Poly} {d : Nat} (h : edfAccepts f d) (rand : Nat → Word) (budget n : Nat) :
    edf rand budget n f d = edfLoop rand f d budget n [f] := by
  obtain ⟨h0, hf, hd, hdvd⟩ := h
  exact if_neg (by rintro (h | h | h | h) <;> [exact h0 h; omega; omega; exact h hdvd])

theorem edf_of_not_accepts {f : Poly} {d : Nat} (h : ¬ edfAccepts f d) (rand : Nat → Word) (budget n : Nat) :
    edf rand budget n f d = (.error .preconditionViolation, n) := by
  refine if_pos ?_
  by_contra hc
  push Not at hc
  obtain ⟨h0, hf, hd, hdvd⟩ := hc
  exact h ⟨h0, hf, hd, hdvd⟩

theorem edf_parts {f : Poly} {d : Nat} (hc : Canonical f) (h : edfAccepts f d) (rand : Nat → Word) (budget n : Nat) :
    (∃ y, (edf rand budget n f d).1 = .ok y ∧ Parts (deg f) y) ∨
      (edf rand budget n f d).1 = .error .retryBudgetExceeded := by
  rw [edf_of_accepts h]
  exact edfLoop_parts rand ⟨hc, h.1⟩ d budget n (.singleton hc h.2.1)

/-! ## The errors of the arithmetic, whatever the operands -/

/-- A result whose only error, if it is one, is DivisionByZero. -/
def OnlyDivisionByZero {α : Type} (r : Except ErrorKind α) : Prop := ∀ k, r = .error k → k = .divisionByZero

theorem onlyDivisionByZero_ok {α : Type} (a : α) : OnlyDivisionByZero (.ok a) := nofun

theorem onlyDivisionByZero_error {α : Type} : OnlyDivisionByZero (α := α) (.error .divisionByZero) := by
  rintro _ ⟨⟩; rfl

theorem onlyDivisionByZero_bind {α β : Type} {r : Except ErrorKind α} (hr : OnlyDivisionByZero r)
    {g : α → Except ErrorKind β} (hg : ∀ a, OnlyDivisionByZero (g a)) : OnlyDivisionByZero (r.bind g) := by
  cases r with
  | error k => rintro _ ⟨⟩; exact hr k rfl
  | ok a => exact hg a

theorem onlyDivisionByZero_of_error {α β : Type} {r : Except ErrorKind α} (hr : OnlyDivisionByZero r) {k : ErrorKind}
    (h : r = .error k) : OnlyDivisionByZero (α := β) (.error k) := by
  rw [hr k h]
  exact onlyDivisionByZero_error

theorem feInv_onlyDivisionByZero (a : Word) : OnlyDivisionByZero (feInv a) := by
  unfold feInv
  split_ifs
  exacts [onlyDivisionByZero_error, onlyDivisionByZero_ok _]

theorem feDiv_onlyDivisionByZero (a b : Word) : OnlyDivisionByZero (feDiv a b) := by
  unfold feDiv
  split
  · next h => exact onlyDivisionByZero_of_error (feInv_onlyDivisionByZero b) h
  · exact onlyDivisionByZero_ok _

theorem divLoop_onlyDivisionByZero (m : Poly) (n : Nat) (q r : Poly) : OnlyDivisionByZero (divLoop m n q r) := by
  induction n generalizing q r with
  | zero => exact onlyDivisionByZero_ok _
  | succ n ih =>
    unfold divLoop
    split_ifs
    · split
      · next h => exact onlyDivisionByZero_of_error (feDiv_onlyDivisionByZero _ _) h
      · exact ih _ _
    · exact onlyDivisionByZero_ok _

theorem pDivmod_onlyDivisionByZero (u v : Poly) : OnlyDivisionByZero (pDivmod u v) := by
  unfold pDivmod
  split_ifs
  exacts [onlyDivisionByZero_error, divLoop_onlyDivisionByZero _ _ _ _]

theorem rem_onlyDivisionByZero (u v : Poly) : OnlyDivisionByZero (rem u v) :=
  onlyDivisionByZero_bind (pDivmod_onlyDivisionByZero u v) fun x => onlyDivisionByZero_ok x.2

theorem quo_onlyDivisionByZero (u v : Poly) : OnlyDivisionByZero (quo u v) :=
  onlyDivisionByZero_bind (pDivmod_onlyDivisionByZero u v) fun x => onlyDivisionByZero_ok x.1

theorem pPowmodLoop_onlyDivisionByZero (m : Poly) (n : Nat) (r s : Poly) (e : Nat) :
    OnlyDivisionByZero (pPowmodLoop m n r s e) := by
  induction n generalizing r s e with
  | zero => exact onlyDivisionByZero_ok r
  | succ n ih =>
    have hrem : ∀ u, OnlyDivisionByZero (rem u m) := fun u => rem_onlyDivisionByZero u m
    unfold pPowmodLoop
    split_ifs
    · exact onlyDivisionByZero_ok r
    · exact onlyDivisionByZero_bind (hrem _) fun _ => onlyDivisionByZero_bind (hrem _) fun _ => ih _ _ _
    · exact onlyDivisionByZero_bind (hrem _) fun _ => ih _ _ _
    · exact onlyDivisionByZero_bind (hrem _) fun _ => ih _ _ _
    · exact ih _ _ _

theorem pPowmod_onlyDivisionByZero (p : Poly) (e : Nat) (m : Poly) : OnlyDivisionByZero (pPowmod p e m) := by
  unfold pPowmod
  split_ifs
  · exact onlyDivisionByZero_error
  · exact onlyDivisionByZero_bind (rem_onlyDivisionByZero _ _) fun _ =>
      onlyDivisionByZero_bind (rem_onlyDivisionByZero _ _) fun _ => pPowmodLoop_onlyDivisionByZero _ _ _ _ _

theorem pMonic_onlyDivisionByZero (p : Poly) : OnlyDivisionByZero (pMonic p) := by
  unfold pMonic
  split_ifs
  · exact onlyDivisionByZero_error
  · split
    · next h => exact onlyDivisionByZero_of_error (feInv_onlyDivisionByZero _) h
    · exact onlyDivisionByZero_ok _

theorem gcdLoop_onlyDivisionByZero (n : Nat) (u v : Poly) : OnlyDivisionByZero (gcdLoop n u v) := by
  induction n generalizing u v with
  | zero => exact onlyDivisionByZero_ok u
  | succ n ih =>
    unfold gcdLoop
    split_ifs
    · exact onlyDivisionByZero_ok u
    · split
      · next h => exact onlyDivisionByZero_of_error (rem_onlyDivisionByZero _ _) h
      · exact ih _ _

theorem pGcd_onlyDivisionByZero (u v : Poly) : OnlyDivisionByZero (pGcd u v) := by
  unfold pGcd
  dsimp only
  split
  · next h => exact onlyDivisionByZero_of_error (gcdLoop_onlyDivisionByZero _ _ _) h
  · exact pMonic_onlyDivisionByZero _

theorem edfSplit_onlyDivisionByZero (d : Nat) (g u : Poly) : OnlyDivisionByZero (edfSplit d g u) := by
  unfold edfSplit
  split_ifs
  · refine onlyDivisionByZero_bind (pGcd_onlyDivisionByZero u g) fun j => ?_
    split_ifs
    · exact onlyDivisionByZero_bind (quo_onlyDivisionByZero u j) fun q => onlyDivisionByZero_ok [j, q]
    · exact onlyDivisionByZero_ok [u]
  · exact onlyDivisionByZero_ok [u]

theorem edfPass_onlyDivisionByZero (d : Nat) (g : Poly) (z : List Poly) : OnlyDivisionByZero (edfPass d g z) := by
  induction z with
  | nil => exact onlyDivisionByZero_ok []
  | cons u z ih =>
    exact onlyDivisionByZero_bind (edfSplit_onlyDivisionByZero d g u) fun a =>
      onlyDivisionByZero_bind ih fun b => onlyDivisionByZero_ok (a ++ b)

theorem edfTrial_onlyDivisionByZero (f : Poly) (d : Nat) (h : Poly) (z : List Poly) :
    OnlyDivisionByZero (edfTrial f d h z) :=
  onlyDivisionByZero_bind (pPowmod_onlyDivisionByZero h _ f) fun y => edfPass_onlyDivisionByZero d (pAdd y polyOne) z

/-! ## The draws (R192, R194) -/

theorem edfLoop_draws (rand : Nat → Word) (f : Poly) (d t n : Nat) (z : List Poly) :
    ∃ k, k ≤ t ∧ (edfLoop rand f d t n z).2 = n + k * deg f ∧
      ((edfLoop rand f d t n z).1 = .error .retryBudgetExceeded → k = t) := by
  induction t generalizing n z with
  | zero =>
    cases hs : needsSplit d z with
    | false => exact ⟨0, le_rfl, by simp [edfLoop_done hs], fun _ => rfl⟩
    | true => exact ⟨0, le_rfl, by simp [edfLoop_spent hs], fun _ => rfl⟩
  | succ t ih =>
    cases hs : needsSplit d z with
    | false => exact ⟨0, Nat.zero_le _, by simp [edfLoop_done hs], by simp [edfLoop_done hs]⟩
    | true =>
      cases ht : edfTrial f d (edfDraw rand n (deg f)) z with
      | error k =>
        have hk : k = .divisionByZero := edfTrial_onlyDivisionByZero f d _ z k ht
        exact ⟨1, by omega, by simp [edfLoop_trial_error hs ht], by simp [edfLoop_trial_error hs ht, hk]⟩
      | ok y =>
        obtain ⟨k, hle, hdraws, hspent⟩ := ih (n + deg f) y
        rw [edfLoop_trial_ok hs ht]
        exact ⟨k + 1, by omega, by rw [hdraws]; ring, fun h => by rw [hspent h]⟩

theorem edf_draws (rand : Nat → Word) (budget n : Nat) (f : Poly) (d : Nat) :
    ∃ k, k ≤ budget ∧ (edf rand budget n f d).2 = n + k * deg f ∧
      ((edf rand budget n f d).1 = .error .retryBudgetExceeded → k = budget) := by
  by_cases h : edfAccepts f d
  · rw [edf_of_accepts h]
    exact edfLoop_draws rand f d budget n [f]
  · rw [edf_of_not_accepts h]
    exact ⟨0, Nat.zero_le _, by simp, nofun⟩

/-- A result of the trials has no candidate of degree above `d`. -/
theorem edfLoop_deg_le {rand : Nat → Word} {f : Poly} {d t n : Nat} {z y : List Poly}
    (h : (edfLoop rand f d t n z).1 = .ok y) : ∀ u ∈ y, deg u ≤ d := by
  induction t generalizing n z with
  | zero =>
    cases hs : needsSplit d z with
    | false => rw [edfLoop_done hs] at h; cases h; exact needsSplit_eq_false.mp hs
    | true => rw [edfLoop_spent hs] at h; cases h
  | succ t ih =>
    cases hs : needsSplit d z with
    | false => rw [edfLoop_done hs] at h; cases h; exact needsSplit_eq_false.mp hs
    | true =>
      cases ht : edfTrial f d (edfDraw rand n (deg f)) z with
      | error k => rw [edfLoop_trial_error hs ht] at h; cases h
      | ok z' => rw [edfLoop_trial_ok hs ht] at h; exact ih h

theorem edf_deg_le {rand : Nat → Word} {budget n : Nat} {f : Poly} {d : Nat} {y : List Poly}
    (h : (edf rand budget n f d).1 = .ok y) : ∀ u ∈ y, deg u ≤ d := by
  by_cases ha : edfAccepts f d
  · rw [edf_of_accepts ha] at h
    exact edfLoop_deg_le h
  · rw [edf_of_not_accepts ha] at h
    cases h

theorem coeffAt_edfDraw (rand : Nat → Word) (n k i : Nat) :
    coeffAt (edfDraw rand n k) i = if i < k then rand (n + i) else 0 := by
  rw [edfDraw, coeffAt_canon]
  split_ifs with h
  · simp [coeffAt, h]
  · exact coeffAt_of_length_le (by simpa using h)

/-! ## The command (R197) -/

section command
variable {s : State} {a : Reg} {imm : BitVec 8}

theorem violatesPrecondition_edf : violatesPrecondition s (.edf a imm) ↔ ¬ edfAccepts (s.getP a) imm.toNat := by
  unfold violatesPrecondition edfAccepts
  rw [← not_iff_not, not_not]
  push Not
  exact and_congr_right fun _ => and_congr_right fun _ => and_congr_left fun _ => Nat.pos_iff_ne_zero.symm

theorem execEdf_of_ok {z : List Poly} (h : (edfHere s (s.getP a) (immNat imm)).1 = .ok z) : execEdf a imm s =
    .next ((s.setDrawn (edfHere s (s.getP a) (immNat imm)).2).setResults (z.map fun u => (u, immNat imm))).advance := by
  rw [execEdf, h]
  rfl

theorem execEdf_of_error {k : ErrorKind} (h : (edfHere s (s.getP a) (immNat imm)).1 = .error k) :
    execEdf a imm s = .next (errorEntry k 0 (s.setDrawn (edfHere s (s.getP a) (immNat imm)).2)) := by
  rw [execEdf, h]
  rfl

end command

/-- Settles O44: the draws by induction on the trials; the command's ends from what its function can give. -/
theorem edfDrawsWithinItsBudget : Obligations.EdfDrawsWithinItsBudget := by
  refine ⟨fun rand budget n f d => ⟨edf_draws rand budget n f d, fun z => edf_deg_le, coeffAt_edfDraw rand n⟩, ?_⟩
  intro s a imm hi
  by_cases ha : edfAccepts (s.getP a) imm.toNat
  · rcases edf_parts (hi.polys a).1 ha Config.rand128 s.edfbudget.toNat s.drawn with ⟨z, hz, -⟩ | he
    · exact .inl ⟨z, hz, execEdf_of_ok hz⟩
    · exact .inr ⟨_, he, .inr ⟨rfl, not_not.mpr ha ∘ violatesPrecondition_edf.mp⟩, execEdf_of_error he⟩
  · have he := congrArg Prod.fst (edf_of_not_accepts ha Config.rand128 s.edfbudget.toNat s.drawn)
    exact .inr ⟨_, he, .inl ⟨rfl, violatesPrecondition_edf.mpr ha⟩, execEdf_of_error he⟩

end Sys2Proof.Machine
end

section
/-! The bounds of the result list (R23, R202): the polynomials a factorization stage emits share the degree of its input, so their number and their integers stay below its length. -/

namespace Sys2Proof.Machine

/-- A factor list whose polynomials are parts of degree `m` in sum and whose integers are at most `b`. -/
structure FactorParts (m b : Nat) (z : Factors) : Prop where
  parts : Parts m (z.map Prod.fst)
  ints : ∀ e ∈ z, e.2 ≤ b

theorem FactorParts.nil (m b : Nat) : FactorParts m b [] := ⟨.nil m, by simp⟩

theorem FactorParts.singleton {u : Poly} (hu : Canonical u) (hd : 1 ≤ deg u) {i b : Nat} (hi : i ≤ b) :
    FactorParts (deg u) b [(u, i)] := ⟨.singleton hu hd, by simpa using hi⟩

theorem FactorParts.append {m n b : Nat} {y z : Factors} (hy : FactorParts m b y) (hz : FactorParts n b z) :
    FactorParts (m + n) b (y ++ z) where
  parts := by rw [List.map_append]; exact hy.parts.append hz.parts
  ints e he := (List.mem_append.mp he).elim (hy.ints e) (hz.ints e)

theorem FactorParts.mono {m m' b b' : Nat} {z : Factors} (hz : FactorParts m b z) (hm : m ≤ m') (hb : b ≤ b') :
    FactorParts m' b' z := ⟨hz.parts.mono hm, fun e he => (hz.ints e he).trans hb⟩

/-- Parts that all carry one integer. -/
theorem Parts.withInt {m : Nat} {y : List Poly} (hy : Parts m y) (i : Nat) :
    FactorParts m i (y.map fun u => (u, i)) where
  parts := by simpa [Function.comp_def] using hy
  ints e he := by
    obtain ⟨u, -, rfl⟩ := List.mem_map.mp he
    exact le_rfl

theorem FactorParts.mapInts {m b : Nat} {z : Factors} (hz : FactorParts m b z) :
    FactorParts m (2 * b) (z.map fun e => (e.1, 2 * e.2)) where
  parts := by simpa [Function.comp_def] using hz.parts
  ints e he := by
    obtain ⟨x, hx, rfl⟩ := List.mem_map.mp he
    exact Nat.mul_le_mul_left 2 (hz.ints x hx)

theorem FactorParts.of_cons {m b : Nat} {x : Poly × Nat} {z : Factors} (h : FactorParts m b (x :: z)) :
    Canonical x.1 ∧ 1 ≤ deg x.1 ∧ x.2 ≤ b ∧ ∃ k, FactorParts k b z ∧ deg x.1 + k ≤ m := by
  obtain ⟨hc, hd⟩ := h.parts.part x.1 (by simp)
  refine ⟨hc, hd, h.ints x (by simp), (z.map (deg ∘ Prod.fst)).sum, ⟨⟨fun u hu => ?_, ?_⟩, fun e he => ?_⟩, ?_⟩
  · exact h.parts.part u (List.mem_cons_of_mem _ hu)
  · rw [List.map_map]
  · exact h.ints e (List.mem_cons_of_mem _ he)
  · simpa [Function.comp_def] using h.parts.sum_le

/-! ## The square-free stage (R190, R203) -/

theorem pDeriv_eq_zero_or_deg_lt (p : Poly) : pDeriv p = polyZero ∨ deg (pDeriv p) < deg p := by
  refine (pDeriv_canonical p).eq_zero_or_deg_lt fun i hi => ?_
  rw [coeffAt_pDeriv, coeffAt_of_deg_lt (p := p) (by omega), ite_self]

/-- A multiple by a field element of a polynomial whose derivative vanishes has a vanishing derivative. -/
theorem pDeriv_eq_zero_of_scaled {p r : Poly} {v : Word} (hr : ∀ i, coeffAt r i = feMul (coeffAt p i) v)
    (hp : pDeriv p = polyZero) : pDeriv r = polyZero := by
  refine (pDeriv_canonical r).eq_polyZero fun i => ?_
  have hpi : coeffAt (pDeriv p) i = 0 := hp ▸ coeffAt_polyZero i
  rw [coeffAt_pDeriv] at hpi ⊢
  split_ifs at hpi ⊢
  · rw [hr, hpi, zero_feMul]
  · rfl

/-- The greatest common divisor with the derivative: of lower degree, or, where the derivative vanishes, the monic form, whose derivative vanishes too. -/
theorem pGcd_pDeriv_spec {f : Poly} (hf : NonzeroPoly f) : ∃ c, pGcd f (pDeriv f) = .ok c ∧ MonicPoly c ∧
    (deg c < deg f ∨ deg c = deg f ∧ pMonic f = .ok c ∧ pDeriv c = polyZero) := by
  by_cases hd : pDeriv f = polyZero
  · obtain ⟨c, hc, hmonic, hdeg, v, hv⟩ := pMonic_spec hf
    exact ⟨c, by rw [hd, pGcd_polyZero, hc], hmonic, .inr ⟨hdeg, hc, pDeriv_eq_zero_of_scaled hv hd⟩⟩
  · obtain ⟨c, hc, hmonic, -, hle⟩ := pGcd_spec hf.canonical (pDeriv_canonical f) (.inl hf.ne_zero)
    exact ⟨c, hc, hmonic, .inl ((hle hd).trans_lt ((pDeriv_eq_zero_or_deg_lt f).resolve_left hd))⟩

/-- All a round of the square-free loop can do with a nonzero polynomial: stop; emit a part and go on with a monic polynomial of lower degree; or emit the leading coefficient of a polynomial that is not monic and whose derivative vanishes, and stop at its monic form. -/
inductive SffRound (n : Nat) (f : Poly) (e : Nat) (z : Factors) (x : Factors × Poly) : Prop where
  | stop (hf : MonicPoly f) (hx : x = (z, f))
  | part (c g : Poly) (hc : MonicPoly c) (hlt : deg c < deg f) (hg : Canonical g) (hd : deg g + deg c = deg f)
      (hx : sffLoop n c (e + 1) (z ++ [(g, e)]) = .ok x)
  | lead (c g : Poly) (hc : MonicPoly c) (hdc : deg c = deg f) (hf : ¬ MonicPoly f) (hdg : deg g = 0)
      (hx : x = (z ++ [(g, e)], c))

theorem sffLoop_monic_stop {c : Poly} (hc : MonicPoly c) (hd : pDeriv c = polyZero) (n e : Nat) (z : Factors) :
    sffLoop n c e z = .ok (z, c) := by
  cases n with
  | zero => rfl
  | succ n => exact sffLoop_stop n (by rw [hd, pGcd_polyZero, pMonic_of_monic hc])

theorem sffLoop_round_cases {n : Nat} {f : Poly} {e : Nat} {z : Factors} {x : Factors × Poly} (hf : NonzeroPoly f)
    (h : sffLoop (n + 1) f e z = .ok x) : SffRound n f e z x := by
  obtain ⟨c, hc, hmonic, hdeg⟩ := pGcd_pDeriv_spec hf
  by_cases hfc : f = c
  · subst hfc
    rw [sffLoop_stop n hc] at h
    cases h
    exact .stop hmonic rfl
  have hle : deg c ≤ deg f := hdeg.elim Nat.le_of_lt fun h => h.1.le
  obtain ⟨g, hg, hgn, hgd⟩ := quo_spec hf hmonic.nonzero hle
  rw [sffLoop_round n hc hfc hg] at h
  obtain hlt | ⟨heq, hm, hd⟩ := hdeg
  · exact .part c g hmonic hlt hgn.canonical (by omega) h
  · rw [sffLoop_monic_stop hmonic hd] at h
    cases h
    refine .lead c g hmonic heq (fun hfm => hfc ?_) (by omega) rfl
    rw [pMonic_of_monic hfm] at hm
    cases hm
    rfl

/-- The square-free loop on a monic polynomial: the parts it emits and the monic polynomial it leaves share the degree, and the exponents rise by one with each part. -/
theorem sffLoop_monic (n : Nat) {f : Poly} {e : Nat} {z z' : Factors} {c : Poly} (hf : MonicPoly f)
    (h : sffLoop n f e z = .ok (z', c)) : MonicPoly c ∧ deg c ≤ deg f ∧
      ∃ w, z' = z ++ w ∧ Parts (deg f - deg c) (w.map Prod.fst) ∧ ∀ x ∈ w, x.2 + deg c < e + deg f := by
  induction n generalizing f e z with
  | zero => cases h; exact ⟨hf, le_rfl, [], by simp, .nil _, by simp⟩
  | succ n ih =>
    cases sffLoop_round_cases hf.nonzero h with
    | stop _ hx => cases hx; exact ⟨hf, le_rfl, [], by simp, .nil _, by simp⟩
    | lead _ _ _ _ hn _ _ => exact absurd hf hn
    | part c₁ g hc₁ hlt hg hd hx =>
      obtain ⟨hc, hle, w, rfl, hw, hexp⟩ := ih hc₁ hx
      refine ⟨hc, hle.trans hlt.le, (g, e) :: w, by simp, ?_, fun x hxw => ?_⟩
      · exact ((Parts.singleton hg (by omega)).append hw).mono (by omega)
      · rcases List.mem_cons.mp hxw with rfl | hxw
        · show e + deg c < e + deg f
          omega
        · have := hexp x hxw
          omega

/-! The square root that leads from one level to the next. -/

theorem coeffAt_evenCoeffs : ∀ (p : List Word) (i : Nat), coeffAt (evenCoeffs p) i = coeffAt p (2 * i)
  | [], i => by simp [evenCoeffs, coeffAt]
  | [c], 0 => rfl
  | [c], i + 1 => by simp [evenCoeffs, coeffAt, Nat.mul_add]
  | c :: d :: p, 0 => rfl
  | c :: d :: p, i + 1 => by simpa [evenCoeffs, coeffAt, Nat.mul_add] using coeffAt_evenCoeffs p i

theorem coeffAt_oddCoeffs (p : List Word) (i : Nat) : coeffAt (oddCoeffs p) i = coeffAt p (2 * i + 1) := by
  rw [oddCoeffs, coeffAt_evenCoeffs]
  cases p <;> rfl

theorem feSqrt_zero : feSqrt 0 = 0 :=
  toField_eq_zero.mp (by rw [feSqrt, toField_fePow, toField_zero, zero_pow (by positivity)])

/-- All a square root of a monic polynomial can be: monic, of half the degree. -/
theorem pSqrt_monic {c r : Poly} (hc : MonicPoly c) (h : pSqrt c = .ok r) : MonicPoly r ∧ deg c = 2 * deg r := by
  unfold pSqrt at h
  split_ifs at h with hodd
  cases h
  have hodd0 : ∀ i, coeffAt c (2 * i + 1) = 0 := fun i => by
    rw [← coeffAt_oddCoeffs, coeffAt, List.getD_eq_getElem?_getD]
    cases hi : (oddCoeffs c)[i]? with
    | none => rfl
    | some d =>
      have hd : d = 0 := by simpa using fun hne => hodd (List.any_eq_true.mpr ⟨d, List.mem_of_getElem? hi, hne⟩)
      simpa using hd
  have hcoeff : ∀ i, coeffAt (canon ((evenCoeffs c).map feSqrt)) i = feSqrt (coeffAt c (2 * i)) := fun i => by
    rw [coeffAt_canon, coeffAt_map feSqrt_zero, coeffAt_evenCoeffs]
  have hlead : coeffAt c (deg c) = fieldOne := (lc_eq_coeffAt c).symm.trans hc.lc
  obtain ⟨k, hk | hk⟩ := Nat.even_or_odd' (deg c)
  · have hone : coeffAt (canon ((evenCoeffs c).map feSqrt)) k = fieldOne := by
      rw [hcoeff, ← hk, hlead, feSqrt, fePow_fieldOne]
    have hdeg : deg (canon ((evenCoeffs c).map feSqrt)) = k := by
      refine (canon_canonical _).deg_eq (hone ▸ by decide) fun i hi => ?_
      rw [hcoeff, coeffAt_of_deg_lt (by omega), feSqrt_zero]
    exact ⟨⟨canon_canonical _, by rw [lc_eq_coeffAt, hdeg, hone]⟩, by rw [hdeg, hk]⟩
  · rw [hk, hodd0 k] at hlead
    exact absurd hlead (by decide)

/-- All a level of the square-free stage can give: what its loop emits, and, unless the loop left one, the list of the square root of what it left, exponents doubled. -/
theorem sffLevels_cases {n : Nat} {f : Poly} {z : Factors} (h : sffLevels (n + 1) f = .ok z) :
    ∃ w c, sffLoop (f.length + 1) f 1 [] = .ok (w, c) ∧ (z = w ∨
      ∃ r t, pSqrt c = .ok r ∧ sffLevels n r = .ok t ∧ z = w ++ t.map fun e => (e.1, 2 * e.2)) := by
  unfold sffLevels at h
  split at h
  · cases h
  next w c hw =>
  refine ⟨w, c, hw, ?_⟩
  split_ifs at h
  · cases h; exact .inl rfl
  split at h
  · cases h
  next r hr =>
  split at h
  · cases h
  next t ht =>
  cases h
  exact .inr ⟨r, t, hr, ht, rfl⟩

/-- What a level appends to the list of its loop, which left the monic polynomial `c`. -/
theorem sffRest_parts {n : Nat} {c : Poly} {w z : Factors} (hc : MonicPoly c)
    (ih : ∀ {f z}, MonicPoly f → sffLevels n f = .ok z → FactorParts (deg f) (deg f) z)
    (h : z = w ∨ ∃ r t, pSqrt c = .ok r ∧ sffLevels n r = .ok t ∧ z = w ++ t.map fun e => (e.1, 2 * e.2)) :
    ∃ t, z = w ++ t ∧ FactorParts (deg c) (deg c) t := by
  obtain rfl | ⟨r, t, hr, ht, rfl⟩ := h
  · exact ⟨[], (List.append_nil z).symm, .nil _ _⟩
  · obtain ⟨hrm, hdeg⟩ := pSqrt_monic hc hr
    exact ⟨_, rfl, (ih hrm ht).mapInts.mono (by omega) (by omega)⟩

/-- The loop of a level on a monic polynomial, its exponents counted from 1. -/
theorem sffLoop_monic_parts {n : Nat} {f c : Poly} {w : Factors} (hf : MonicPoly f)
    (h : sffLoop n f 1 [] = .ok (w, c)) :
    MonicPoly c ∧ deg c ≤ deg f ∧ FactorParts (deg f - deg c) (deg f) w := by
  obtain ⟨hc, hle, _, rfl, hparts, hexp⟩ := sffLoop_monic n hf h
  exact ⟨hc, hle, hparts, fun x hx => by have := hexp x hx; omega⟩

theorem sffLevels_monic (n : Nat) {f : Poly} {z : Factors} (hf : MonicPoly f) (h : sffLevels n f = .ok z) :
    FactorParts (deg f) (deg f) z := by
  induction n generalizing f z with
  | zero => cases h; exact .nil _ _
  | succ n ih =>
    obtain ⟨w, c, hw, hz⟩ := sffLevels_cases h
    obtain ⟨hc, hle, hlevel⟩ := sffLoop_monic_parts hf hw
    obtain ⟨t, rfl, hrest⟩ := sffRest_parts hc ih hz
    exact (hlevel.append (hrest.mono le_rfl hle)).mono (by omega) le_rfl

/-- What a list must satisfy to be within the capacity `n` (R23, R202). -/
structure ListBounds (n : Nat) (z : Factors) : Prop where
  length_le : z.length ≤ n
  entry : ∀ e ∈ z, e.1.length ≤ n ∧ e.2 < n

theorem FactorParts.listBounds {m b n : Nat} {z : Factors} (hz : FactorParts m b z) (hm : m < n) (hb : b < n) :
    ListBounds n z where
  length_le := by
    have := hz.parts.length_le
    rw [List.length_map] at this
    omega
  entry e he := by
    have hmem : e.1 ∈ z.map Prod.fst := List.mem_map_of_mem he
    have hlen := (hz.parts.part e.1 hmem).1.length_eq
    have hdeg := hz.parts.deg_le hmem
    have hint := hz.ints e he
    omega

/-- R202: the list of the square-free stage is within the length of its input; the leading coefficient of an input that is not monic may be an entry more than its degree. -/
theorem sff_listBounds {f : Poly} {z : Factors} {n : Nat} (hf : NonzeroPoly f) (h2 : 2 ≤ n) (hn : f.length ≤ n)
    (h : sff f = .ok z) : ListBounds n z := by
  have hlen := hf.canonical.length_eq
  obtain ⟨w, c, hw, hz⟩ := sffLevels_cases h
  cases sffLoop_round_cases hf hw with
  | stop hm _ => exact (sffLevels_monic _ hm h).listBounds (by omega) (by omega)
  | part c₁ g hc₁ hlt hg hd hx =>
    obtain ⟨hc, hle, w', rfl, hparts, hexp⟩ := sffLoop_monic _ hc₁ hx
    obtain ⟨t, rfl, hrest⟩ := sffRest_parts hc (sffLevels_monic _) hz
    have hfirst : FactorParts (deg g) (deg f) [(g, 1)] := .singleton hg (by omega) (by omega)
    have hloop : FactorParts (deg c₁ - deg c) (deg f) w' := ⟨hparts, fun x hxw => by have := hexp x hxw; omega⟩
    have hall : FactorParts _ (deg f) ([(g, 1)] ++ w' ++ t) :=
      (hfirst.append hloop).append (hrest.mono le_rfl (by omega))
    exact (hall.mono (m' := deg f) (by omega) le_rfl).listBounds (by omega) (by omega)
  | lead c₁ g hc hdc hm hdg hx =>
    cases hx
    obtain ⟨t, rfl, hrest⟩ := sffRest_parts hc (sffLevels_monic _) hz
    have hcount := hrest.parts.length_le
    have hbounds := hrest.listBounds (n := n) (by omega) (by omega)
    have hglen : g.length ≤ 1 := by unfold deg at hdg; omega
    rw [List.length_map] at hcount
    refine ⟨by simp only [List.length_append, List.length_cons, List.nil_append, List.length_nil]; omega, fun e he => ?_⟩
    obtain rfl | ht : e = (g, 1) ∨ e ∈ t := by simpa using he
    · exact ⟨hglen.trans (by omega), h2⟩
    · exact hbounds.entry e ht

theorem sff_ne_polyZero {f : Poly} {z : Factors} (h : sff f = .ok z) : f ≠ polyZero := by
  rintro rfl
  have hzero : sff polyZero = .error .divisionByZero := rfl
  rw [hzero] at h
  cases h

/-! ## The distinct-degree stage (R191, R204) -/

/-- All a round of the distinct-degree loop can do with a nonzero rest: end; pass the degree; or emit a part and go on with the co-factor. -/
inductive DdfRound (n d : Nat) (fs : Poly) (z : Factors) (x : Factors × Poly) : Prop where
  | stop (hx : x = (z, fs))
  | skip (hd : 2 * d ≤ deg fs) (hx : ddfLoop n (d + 1) fs z = .ok x)
  | part (g rest : Poly) (hd : 2 * d ≤ deg fs) (hg : Canonical g) (hpos : 1 ≤ deg g) (hrest : NonzeroPoly rest)
      (hsum : deg g + deg rest = deg fs) (hx : ddfLoop n (d + 1) rest (z ++ [(g, d)]) = .ok x)

theorem ddfLoop_round_cases {n d : Nat} {fs : Poly} {z : Factors} {x : Factors × Poly} (hf : NonzeroPoly fs)
    (h : ddfLoop (n + 1) d fs z = .ok x) : DdfRound n d fs z x := by
  obtain ⟨a, ha, -⟩ := rem_spec canonical_polyX hf
  obtain ⟨y, hy⟩ := pPowmod_total hf canonical_polyX (2 ^ (128 * d))
  obtain ⟨g, hg, hmonic, -, hle⟩ := pGcd_spec (pAdd_canonical y a) hf.canonical (.inr hf.ne_zero)
  obtain ⟨rest, hrest, hrn, hrd⟩ := quo_spec hf hmonic.nonzero (hle hf.ne_zero)
  have hgd := hle hf.ne_zero
  by_cases hd : 2 * d ≤ deg fs
  · simp only [ddfLoop, if_pos hd, ha, hy, hg, hrest, bind, Except.bind] at h
    split_ifs at h with hone
    · exact .skip hd h
    · have hpos : 1 ≤ deg g := by
        by_contra hc
        exact hone (hmonic.eq_polyOne (by omega))
      exact .part g rest hd hmonic.canonical hpos hrn (by omega) h
  · rw [ddfLoop, if_neg hd] at h
    cases h
    exact .stop rfl

theorem ddfLoop_parts (n : Nat) {d k b : Nat} {fs left : Poly} {z z' : Factors} (hf : NonzeroPoly fs)
    (hb : deg fs ≤ b) (hz : FactorParts k b z) (h : ddfLoop n d fs z = .ok (z', left)) :
    NonzeroPoly left ∧ deg left ≤ deg fs ∧ FactorParts (k + (deg fs - deg left)) b z' := by
  induction n generalizing d k fs z with
  | zero => cases h; exact ⟨hf, le_rfl, hz.mono (by omega) le_rfl⟩
  | succ n ih =>
    cases ddfLoop_round_cases hf h with
    | stop hx => cases hx; exact ⟨hf, le_rfl, hz.mono (by omega) le_rfl⟩
    | skip _ hx => exact ih hf hb hz hx
    | part g rest hd hg hpos hrest hsum hx =>
      have hz' : FactorParts (k + deg g) b (z ++ [(g, d)]) := hz.append (.singleton hg hpos (by omega))
      obtain ⟨hl, hle, hparts⟩ := ih hrest (by omega) hz' hx
      exact ⟨hl, by omega, hparts.mono (by omega) le_rfl⟩

theorem ddf_parts {f : Poly} {z : Factors} (hf : Canonical f) (h : ddf f = .ok z) :
    FactorParts (deg f) (deg f) z := by
  unfold ddf at h
  split_ifs at h with h0
  split at h
  · cases h
  next w left hw =>
  obtain ⟨hl, hle, hparts⟩ := ddfLoop_parts _ ⟨hf, h0⟩ le_rfl (.nil 0 _) hw
  cases h
  split_ifs with hpos
  · exact (hparts.append (.singleton hl.canonical hpos hle)).mono (by omega) le_rfl
  · exact hparts.mono (by omega) le_rfl

/-! ## The pipeline (R193, R205) -/

theorem edf_ok_parts {rand : Nat → Word} {budget n d : Nat} {f : Poly} {y : List Poly} (hf : Canonical f)
    (h : (edf rand budget n f d).1 = .ok y) : Parts (deg f) y ∧ d ≤ deg f := by
  by_cases ha : edfAccepts f d
  · refine ⟨?_, Nat.le_of_dvd ha.2.1 (Nat.dvd_of_mod_eq_zero ha.2.2.2)⟩
    obtain ⟨y', hy, hparts⟩ | he := edf_parts hf ha rand budget n
    · rw [hy] at h
      cases h
      exact hparts
    · rw [he] at h
      cases h
  · rw [edf_of_not_accepts ha] at h
    cases h

theorem factorPart_parts {rand : Nat → Word} {budget n m d : Nat} {g : Poly} {y : List Poly} (hg : Canonical g)
    (hpos : 1 ≤ deg g) (h : factorPart rand budget n g d = (.ok y, m)) : Parts (deg g) y := by
  unfold factorPart at h
  split_ifs at h
  · exact (edf_ok_parts hg (congrArg Prod.fst h)).1
  · cases h
    exact .singleton hg hpos

theorem factorDegrees_parts {rand : Nat → Word} {budget e n m k b : Nat} {z y : Factors} (hz : FactorParts k b z)
    (h : factorDegrees rand budget e n z = (.ok y, m)) : FactorParts k e y := by
  induction z generalizing n k y m with
  | nil => cases h; exact .nil _ _
  | cons x rest ih =>
    obtain ⟨hc, hd, -, k', hrest, hk⟩ := hz.of_cons
    unfold factorDegrees at h
    split at h
    · cases h
    next parts m₁ hparts =>
    split at h
    · cases h
    next out m₂ hout =>
    cases h
    exact (((factorPart_parts hc hd hparts).withInt e).append (ih hrest hout)).mono hk le_rfl

theorem factorSquares_parts {rand : Nat → Word} {budget n m k b : Nat} {z y : Factors} (hz : FactorParts k b z)
    (h : factorSquares rand budget n z = (.ok y, m)) : FactorParts k b y := by
  induction z generalizing n k y m with
  | nil => cases h; exact .nil _ _
  | cons x rest ih =>
    obtain ⟨hc, hd, hint, k', hrest, hk⟩ := hz.of_cons
    unfold factorSquares at h
    split at h
    · cases h
    next w hw =>
    split at h
    · cases h
    next a m₁ ha =>
    split at h
    · cases h
    next out m₂ hout =>
    cases h
    have hfirst := (factorDegrees_parts (ddf_parts hc hw) ha).mono le_rfl hint
    exact (hfirst.append (ih hrest hout)).mono hk le_rfl

theorem factor_parts {rand : Nat → Word} {budget n m : Nat} {f : Poly} {y : Factors} (hf : Canonical f)
    (h : factor rand budget n f = (.ok y, m)) : FactorParts (deg f) (deg f) y := by
  unfold factor at h
  split at h
  · cases h
  next g hg =>
  split at h
  · cases h
  next z hz =>
  have h0 : f ≠ polyZero := by
    rintro rfl
    cases hg
  obtain ⟨g', hg', hmonic, hdeg, -⟩ := pMonic_spec ⟨hf, h0⟩
  obtain rfl : g' = g := Except.ok.inj (hg'.symm.trans hg)
  exact hdeg ▸ factorSquares_parts (sffLevels_monic _ hmonic hz) h

/-! ## The commands and the step -/

theorem listFits_setResults {s : State} {z : Factors} (h : ListBounds s.params.maxCoef z) :
    ListFits (s.setResults z) := by
  refine ⟨by simpa using h.length_le, fun e he => ?_⟩
  obtain ⟨x, hx, rfl⟩ := List.mem_map.mp he
  obtain ⟨hlen, hint⟩ := h.entry x hx
  exact ⟨hlen, (Nat.mod_le _ _).trans_lt hint⟩

theorem putList_listFits {s t : State} {r : Except ErrorKind Factors} (hs : ListFits s)
    (hr : ∀ z, r = .ok z → ListBounds s.params.maxCoef z) (ht : putList s r = .next t) : ListFits t := by
  obtain ⟨z, hz, rfl⟩ | ⟨k, -, rfl⟩ := putList_eq_next ht
  exacts [listFits_setResults (hr z hz), hs]

theorem Inv.deg_lt {s : State} (hi : Inv s) (a : Reg) : deg (s.getP a) < s.params.maxCoef := by
  obtain ⟨hc, hcap⟩ := hi.polys a
  have := hc.length_eq
  omega

theorem execEdf_listFits {s t : State} (hi : Inv s) (hs : ListFits s) {a : Reg} {imm : BitVec 8}
    (ht : execEdf a imm s = .next t) : ListFits t := by
  refine putList_listFits (s := s.setDrawn (edfHere s (s.getP a) (immNat imm)).2) hs (fun z hz => ?_) ht
  cases hy : (edfHere s (s.getP a) (immNat imm)).1 with
  | error k => rw [hy] at hz; cases hz
  | ok y =>
    rw [hy] at hz
    cases hz
    obtain ⟨hparts, hd⟩ := edf_ok_parts (hi.polys a).1 hy
    exact (hparts.withInt _).listBounds (hi.deg_lt a) (hd.trans_lt (hi.deg_lt a))

/-- The commands that replace the list. -/
theorem exec_listFits_of_writesList {i : Instr} {s t : State} (hi : Inv s) (hs : ListFits s)
    (hw : writesList i = true) (ht : exec i s = .next t) : ListFits t := by
  cases i with
  | sff a =>
    refine putList_listFits hs (fun z hz => ?_) ht
    exact sff_listBounds ⟨(hi.polys a).1, sff_ne_polyZero hz⟩ hi.params.1 (hi.polys a).2 hz
  | ddf a => exact putList_listFits hs (fun z hz => (ddf_parts (hi.polys a).1 hz).listBounds (hi.deg_lt a) (hi.deg_lt a)) ht
  | edf a imm => exact execEdf_listFits hi hs ht
  | factor a =>
    refine putList_listFits (s := s.setDrawn (factorHere s (s.getP a)).2) hs (fun z hz => ?_) ht
    exact (factor_parts (hi.polys a).1 (Prod.ext hz rfl)).listBounds (hi.deg_lt a) (hi.deg_lt a)
  | _ => cases hw

theorem listFits_of_eq {s t : State} (hs : ListFits s) (hr : t.results = s.results) (hp : t.params = s.params) :
    ListFits t := by
  unfold ListFits
  rw [hr, hp]
  exact hs

theorem exec_listFits {i : Instr} {s t : State} (hi : Inv s) (hs : ListFits s) (ht : exec i s = .next t) :
    ListFits t := by
  cases hw : writesList i with
  | true => exact exec_listFits_of_writesList hi hs hw ht
  | false =>
    cases exec_endsIn i s t ht with
    | error k info h _ => exact listFits_of_eq hs (h.results hw) h.params
    | halt _ => exact hs
    | done h => exact listFits_of_eq hs (h.results hw) h.params

/-- Settles O18: a stage's list is bounded by the degree of its input, and every other command keeps the list. -/
theorem stepKeepsListBounds : Obligations.StepKeepsListBounds := by
  intro s t hi hs ht
  obtain ⟨-, h⟩ | ⟨-, -, h⟩ | ⟨-, -, -, h⟩ | ⟨-, -, i, -, h⟩ := step_cases s <;> rw [h] at ht
  · cases ht; exact hs
  · cases ht; exact hs
  · cases ht; exact hs
  · exact exec_listFits hi hs ht

end Sys2Proof.Machine
end

section
/-! The converter (R53): the bits it reads, byte by byte and as GCM ordering's coefficients (R52). -/

namespace Sys2Proof.Machine

/-- The converter leaves byte `k` in place and reverses its bits. -/
theorem brev8_getLsbD_byte (w : Word) {k j : Nat} (hk : k ≤ 15) (hj : j ≤ 7) :
    (brev8 w).getLsbD (8 * k + j) = w.getLsbD (8 * k + 7 - j) := by
  have hindex : 8 * ((8 * k + j) / 8) + 7 - (8 * k + j) % 8 = 8 * k + 7 - j := by omega
  rw [brev8_getLsbD w (by omega), hindex]

/-- Settles O24: each bit of the converter is R53's formula, which byte by byte is the reversal, and twice the identity. -/
theorem converterReversesEachByte : Obligations.ConverterReversesEachByte := fun w =>
  ⟨fun _ _ hk hj => brev8_getLsbD_byte w hk hj, brev8_brev8 w, fun _ hi => brev8_getLsbD w (Nat.lt_succ_of_le hi)⟩

end Sys2Proof.Machine
end

section
/-! The codec (R73, R74): decoding and encoding undo each other, and the three ways in which a word is no command. -/

namespace Sys2Proof

/-! ## The fields of a word under a row's mask -/

/-- An immediate's bits are those of `re` and `rf` (R72), so a word of format I is one of the register formats. -/
theorem packImm_fieldImm (op : BitVec 8) (rd ra : Reg) (w : Word32) :
    packImm op rd ra (fieldImm w) = packRegs op rd ra 0 0 (fieldRe w) (fieldRf w) := by
  apply BitVec.eq_of_getLsbD_eq; intro i hi
  interval_cases i <;> simp [packImm, packRegs, fieldImm, fieldRe, fieldRf]

section masked
variable {m : Mnemonic} {w : Word32} (h : w &&& m.mask = m.matchWord)
include h

/-- Every mask holds the opcode bits whole, so a word that matches a row has the row's opcode (R72). -/
theorem fieldOp_of_matches : fieldOp w = m.opcode := by
  have hmask : fieldOp m.mask = BitVec.allOnes 8 := by cases m <;> decide
  have hmatch : fieldOp m.matchWord = m.opcode := by cases m <;> decide
  calc fieldOp w = fieldOp w &&& fieldOp m.mask := by rw [hmask, BitVec.and_allOnes]
    _ = fieldOp (w &&& m.mask) := BitVec.extractLsb'_and.symm
    _ = m.opcode := by rw [h, hmatch]

/-- Above the opcode a row's match word is zero, so a register field that the mask covers is zero in a word that matches. -/
theorem field_eq_zero_of_matches {k : Nat} (hk : 8 ≤ k) (hmask : m.mask.extractLsb' k 4 = BitVec.allOnes 4) :
    w.extractLsb' k 4 = 0 := by
  have hmatch : m.matchWord.extractLsb' k 4 = 0 := by
    apply BitVec.eq_of_getLsbD_eq; intro i _
    simp [Mnemonic.matchWord, BitVec.getLsbD_of_ge m.opcode (k + i) (by omega)]
  calc w.extractLsb' k 4 = w.extractLsb' k 4 &&& m.mask.extractLsb' k 4 := by rw [hmask, BitVec.and_allOnes]
    _ = (w &&& m.mask).extractLsb' k 4 := BitVec.extractLsb'_and.symm
    _ = 0 := by rw [h, hmatch]

/-- A word that matches a row is the encoding of the command read from its fields: each field is an operand of the row or, as the mask covers it, zero. -/
theorem encode_operandsOf : encode (operandsOf m w) = w := by
  have hop := (fieldOp_of_matches h).symm
  have hrd : fieldRd m.mask = BitVec.allOnes 4 → fieldRd w = 0 := field_eq_zero_of_matches h (by decide)
  have hra : fieldRa m.mask = BitVec.allOnes 4 → fieldRa w = 0 := field_eq_zero_of_matches h (by decide)
  have hrb : fieldRb m.mask = BitVec.allOnes 4 → fieldRb w = 0 := field_eq_zero_of_matches h (by decide)
  have hrc : fieldRc m.mask = BitVec.allOnes 4 → fieldRc w = 0 := field_eq_zero_of_matches h (by decide)
  have hre : fieldRe m.mask = BitVec.allOnes 4 → fieldRe w = 0 := field_eq_zero_of_matches h (by decide)
  have hrf : fieldRf m.mask = BitVec.allOnes 4 → fieldRf w = 0 := field_eq_zero_of_matches h (by decide)
  refine Eq.trans ?_ (packRegs_fields w)
  cases m with
  | csrr | csrw | fli | psetc | pgetc | edf | lgetp | lgetn =>
    simp (disch := decide) only [operandsOf, encode, Instr.mnemonic, hop, packImm_fieldImm, hrd, hra, hrb, hrc]
  | _ => simp (disch := decide) only [operandsOf, encode, Instr.mnemonic, hop, hrd, hra, hrb, hrc, hre, hrf]

end masked

/-! ## Decoding what was encoded -/

theorem fieldOp_encode (i : Instr) : fieldOp (encode i) = i.mnemonic.opcode := by
  cases i <;> simp [encode]

theorem operandsOf_encode (i : Instr) : operandsOf i.mnemonic (encode i) = i := by
  cases i <;> simp [encode, operandsOf, Instr.mnemonic]

/-- The word of an instruction matches the instruction's own row: the format of the row writes no bit that the row's mask covers. -/
theorem encode_matches (i : Instr) : encode i &&& i.mnemonic.mask = i.mnemonic.matchWord := by
  cases i with
  | nop | halt => exact packRegs_mask_none _
  | lcnt => exact packRegs_mask_rd _ _
  | sff | ddf | factor => exact packRegs_mask_ra _ _
  | fbrev | finv | fsqrt | fmov | pderiv | psqrt | pmonic | pmov => exact packRegs_mask_rd_ra _ _ _
  | fadd | fmul | fmuln | fdiv | fpow | padd | pmul | ppow | pgcd => exact packRegs_mask_rd_ra_rb _ _ _ _
  | pdivmod | ppowmod | recover => exact packRegs_mask_rd_ra_rb_rc _ _ _ _ _
  | ghash | forge => exact packRegs_mask_five _ _ _ _ _ _
  | gcmenc | gcmdec => exact packRegs_mask_six _ _ _ _ _ _ _
  | csrr | fli | lgetp | lgetn => exact packImm_mask_rd _ _ _
  | csrw | edf => exact packImm_mask_ra _ _ _
  | psetc | pgetc => exact packImm_mask_rd_ra _ _ _ _

theorem decode_encode {i : Instr} (hi : i.wf = true) : decode (encode i) = .ok i :=
  decode_eq_ok.mpr ⟨i.mnemonic, by rw [fieldOp_encode, mnemonicOf_opcode], encode_matches i, operandsOf_encode i, hi⟩

theorem encode_of_decode {w : Word32} {i : Instr} (h : decode w = .ok i) : encode i = w ∧ i.wf = true := by
  obtain ⟨m, -, hm, rfl, hwf⟩ := decode_eq_ok.mp h
  exact ⟨encode_operandsOf hm, hwf⟩

/-- Settles O1: a row's format and its mask are complementary, so the fields of a word that matches are the operands and no more. -/
theorem decodeAndEncodeAreInverse : Obligations.DecodeAndEncodeAreInverse :=
  ⟨fun _ => decode_encode, fun _ _ => encode_of_decode⟩

theorem decode_of_encode_eq {w : Word32} {i : Instr} (hw : encode i = w) (hi : i.wf = true) : decode w = .ok i :=
  hw ▸ decode_encode hi

/-- Settles O3: each word is the encoding of the well-formed command it stands for. -/
theorem exampleWordsDecode : Obligations.ExampleWordsDecode := by
  refine ⟨?_, ?_, ?_, ?_, ?_, ?_, ?_, ?_, ?_, ?_, ?_, ?_, ?_, ?_, ?_⟩ <;> exact decode_of_encode_eq rfl rfl

/-! ## The words that are no command (R74) -/

theorem mnemonicOf_eq_some {op : BitVec 8} {m : Mnemonic} : mnemonicOf op = some m ↔ m.opcode = op :=
  ⟨opcode_of_mnemonicOf, fun h => h ▸ mnemonicOf_opcode m⟩

/-- The opcodes of R73 differ. -/
theorem opcode_injective : Function.Injective Mnemonic.opcode := fun m n h => by
  have hn := mnemonicOf_opcode n
  rw [← h, mnemonicOf_opcode m] at hn
  exact Option.some.inj hn

/-- R74(a). -/
theorem decode_of_no_row {w : Word32} (h : ∀ m : Mnemonic, m.opcode ≠ fieldOp w) :
    decode w = .error .unknownOpcode := by
  have hnone : mnemonicOf (fieldOp w) = none :=
    Option.eq_none_iff_forall_ne_some.mpr fun m hm => h m (mnemonicOf_eq_some.mp hm)
  simp only [decode, hnone]

/-- The decoder on a word whose opcode has a row. -/
theorem decode_of_row {w : Word32} {m : Mnemonic} (h : m.opcode = fieldOp w) :
    decode w = if w &&& m.mask = m.matchWord then
        if (operandsOf m w).wf then .ok (operandsOf m w) else .error .sideCondition
      else .error .reservedField := by
  simp only [decode, mnemonicOf_eq_some.mpr h]

theorem row_or_none (w : Word32) : (∀ m : Mnemonic, m.opcode ≠ fieldOp w) ∨ ∃ m : Mnemonic, m.opcode = fieldOp w := by
  by_cases h : ∃ m : Mnemonic, m.opcode = fieldOp w
  exacts [.inr h, .inl (not_exists.mp h)]

theorem decode_eq_unknownOpcode {w : Word32} :
    decode w = .error .unknownOpcode ↔ ∀ m : Mnemonic, m.opcode ≠ fieldOp w := by
  refine ⟨fun h m hm => ?_, decode_of_no_row⟩
  rw [decode_of_row hm] at h
  split_ifs at h <;> cases h

theorem decode_eq_reservedField {w : Word32} :
    decode w = .error .reservedField ↔ ∃ m : Mnemonic, m.opcode = fieldOp w ∧ w &&& m.mask ≠ m.matchWord := by
  constructor
  · intro h
    obtain hno | ⟨m, hm⟩ := row_or_none w
    · rw [decode_of_no_row hno] at h; cases h
    · refine ⟨m, hm, fun hmatch => ?_⟩
      rw [decode_of_row hm, if_pos hmatch] at h
      split_ifs at h
      cases h
  · rintro ⟨m, hm, hmatch⟩
    rw [decode_of_row hm, if_neg hmatch]

theorem decode_eq_sideCondition {w : Word32} : decode w = .error .sideCondition ↔
    ∃ m : Mnemonic, w &&& m.mask = m.matchWord ∧ (operandsOf m w).wf = false := by
  constructor
  · intro h
    obtain hno | ⟨m, hm⟩ := row_or_none w
    · rw [decode_of_no_row hno] at h; cases h
    · rw [decode_of_row hm] at h
      split_ifs at h with hmatch hwf
      · exact ⟨m, hmatch, Bool.eq_false_iff.mpr hwf⟩
      · cases h
  · rintro ⟨m, hmatch, hwf⟩
    rw [decode_of_row (fieldOp_of_matches hmatch).symm, if_pos hmatch, hwf]
    rfl

/-- The side conditions of R73 that fail, read off the word (R74 case c): a control register that is not there or not writable, and one register for two destinations. -/
def BreaksSideCondition (w : Word32) : Prop :=
  fieldOp w = 0x02 ∧ 5 < (fieldImm w).toNat ∨ fieldOp w = 0x03 ∧ fieldImm w ≠ 4 ∨
    (fieldOp w = 0x22 ∨ fieldOp w = 0x40 ∨ fieldOp w = 0x50) ∧ fieldRd w = fieldRc w

/-- Row by row: five rows have a side condition, and their opcodes are those that `BreaksSideCondition` names. -/
theorem operandsOf_wf_eq_false {m : Mnemonic} {w : Word32} (h : fieldOp w = m.opcode) :
    (operandsOf m w).wf = false ↔ BreaksSideCondition w := by
  unfold BreaksSideCondition
  cases m <;> simp [h, operandsOf, Instr.wf, Mnemonic.opcode]

theorem decode_eq_sideCondition_iff_breaks {w : Word32} : decode w = .error .sideCondition ↔
    (∃ m : Mnemonic, w &&& m.mask = m.matchWord) ∧ BreaksSideCondition w := by
  rw [decode_eq_sideCondition, ← exists_and_right]
  exact exists_congr fun m => and_congr_right fun hm => operandsOf_wf_eq_false (fieldOp_of_matches hm)

theorem mnemonic_eq_of_matches {w : Word32} {m n : Mnemonic} (hm : w &&& m.mask = m.matchWord)
    (hn : w &&& n.mask = n.matchWord) : m = n :=
  opcode_injective ((fieldOp_of_matches hm).symm.trans (fieldOp_of_matches hn))

end Sys2Proof
end

section
/-! The step of the sequencer (R71, R74, R305, R319): what each kind of fetched word makes of the state, and how a command ends. -/

namespace Sys2Proof.Machine

/-! ## The step, by what is fetched -/

theorem step_of_not_running {s : State} (hr : s.running = false) : step s = .next s := by
  simp [step, hr]

theorem step_of_fetch_error {s : State} (hr : s.running = true) (hpc : s.params.cmSize ≤ s.pc.toNat) :
    step s = .next (errorEntry .fetchOutOfRange 0 s) := by
  simp [step, hr, fetch_eq_error.mpr ⟨hpc, rfl⟩]

theorem step_of_decode_error {s : State} {e : Reject} (hr : s.running = true) (hpc : s.pc.toNat < s.params.cmSize)
    (hd : decode (s.cmRead s.pc.toNat) = .error e) :
    step s = .next (errorEntry .illegalCommand (s.cmRead s.pc.toNat) s) := by
  simp [step, hr, fetch_eq_ok.mpr ⟨hpc, rfl⟩, hd, illegal]

theorem step_of_decode_ok {s : State} {i : Instr} (hr : s.running = true) (hpc : s.pc.toNat < s.params.cmSize)
    (hd : decode (s.cmRead s.pc.toNat) = .ok i) : step s = exec i s := by
  simp [step, hr, fetch_eq_ok.mpr ⟨hpc, rfl⟩, hd]

/-- Settles O2: the three errors of the decoder, that a word matches its own opcode's row only, and the step on a refused word. -/
theorem illegalWordsAreTheThreeCases : Obligations.IllegalWordsAreTheThreeCases := fun _ =>
  ⟨decode_eq_unknownOpcode, decode_eq_reservedField, decode_eq_sideCondition_iff_breaks,
    fun _ _ => mnemonic_eq_of_matches,
    fun _ he _ hr hpc hw => by subst hw; exact step_of_decode_error hr hpc he⟩

/-- Settles O4: an accepted word is well formed, and the step past the fetch and the decoding is its execution. -/
theorem stepRunsTheDecodedCommand : Obligations.StepRunsTheDecodedCommand := fun _ _ hr hpc hd =>
  ⟨(encode_of_decode hd).2, step_of_decode_ok hr hpc hd⟩

/-! ## How a well-formed command ends -/

/-- The outcome is that of `finish`, with the draws made consumed and with nothing written but the destinations of `i`. -/
def FinishesFramed (i : Instr) (s : State) (o : Outcome) : Prop :=
  ∃ (n : Nat) (r : Except ErrorKind State), o = finish (s.setDrawn n) r ∧ Framed i s r

section finishes
variable {i : Instr} {s : State}

theorem finishesFramed_finish {r : Except ErrorKind State} (h : Framed i s r) : FinishesFramed i s (finish s r) :=
  ⟨s.drawn, r, rfl, h⟩

/-- A command whose side condition holds. -/
theorem finishesFramed_guarded {c : Prop} [Decidable c] (hc : c) {o : Outcome} (w : Word32)
    (h : FinishesFramed i s o) : FinishesFramed i s (if c then o else illegal w s) := by
  rwa [if_pos hc]

theorem finishesFramed_putF {rd : Reg} (hr : rd ∈ destsF i) (r : Except ErrorKind Word) :
    FinishesFramed i s (putF s rd r) :=
  finishesFramed_finish (framed_map fun v _ => (WritesDests.refl i s).setF hr v)

theorem finishesFramed_putP {rd : Reg} (hr : rd ∈ destsP i) (r : Except ErrorKind Poly) :
    FinishesFramed i s (putP s rd r) :=
  finishesFramed_finish (framed_bind fun p _ => framed_writeP (.refl i s) hr p)

theorem finishesFramed_putList (hl : writesList i = true) {n : Nat} (hd : WritesDests i s (s.setDrawn n))
    (r : Except ErrorKind Factors) : FinishesFramed i s (putList (s.setDrawn n) r) :=
  ⟨n, _, rfl, framed_map fun z _ => hd.setResults hl z⟩

end finishes

theorem execPpow_finishesFramed (rd ra rb : Reg) (s : State) :
    FinishesFramed (.ppow rd ra rb) s (execPpow rd ra rb s) := by
  unfold execPpow
  split_ifs
  · exact finishesFramed_finish nofun
  · exact finishesFramed_putP (by simp [destsP]) _

/-- R71, R305: every well-formed command but `HALT` ends by `finish`, so an error of it is taken without a command word. (`exec_endsIn` speaks of ill-formed terms too and leaves that word open.) -/
theorem exec_finishesFramed {i : Instr} (hwf : i.wf = true) (hh : i ≠ .halt) (s : State) :
    FinishesFramed i s (exec i s) := by
  have h0 := WritesDests.refl i s
  cases i with
  | nop => exact finishesFramed_finish (framed_ok h0)
  | halt => exact absurd rfl hh
  | csrr rd csr => exact finishesFramed_guarded hwf _ (finishesFramed_putF (by simp [destsF]) (.ok _))
  | csrw => exact finishesFramed_guarded hwf _ (finishesFramed_finish (framed_ok (h0.setBudget rfl _)))
  | fadd rd | fmul rd | fmuln rd | fbrev rd | fpow rd | fsqrt rd | fmov rd | fli rd | pgetc rd | lcnt rd | forge rd =>
    exact finishesFramed_putF (rd := rd) (by simp [destsF]) (.ok _)
  | finv rd | fdiv rd => exact finishesFramed_putF (rd := rd) (by simp [destsF]) _
  | padd rd | pmul rd | ppowmod rd | pderiv rd | psqrt rd | pmonic rd | pgcd rd | pmov rd | psetc rd =>
    exact finishesFramed_putP (rd := rd) (by simp [destsP]) _
  | pdivmod rd rc =>
    exact finishesFramed_guarded hwf _ (finishesFramed_finish (framed_bind fun qr _ => framed_bind fun u hu =>
      framed_writeP (framed_writeP h0 (r := rd) (by simp [destsP]) qr.1 u hu) (by simp [destsP]) qr.2))
  | ppow rd ra rb => exact execPpow_finishesFramed rd ra rb s
  | sff | ddf => exact finishesFramed_putList (n := s.drawn) rfl h0 _
  | edf => exact finishesFramed_putList rfl (h0.setDrawn rfl (edf_drawn_le _ _ _ _ _)) _
  | factor => exact finishesFramed_putList rfl (h0.setDrawn rfl (factor_drawn_le _ _ _ _)) _
  | lgetp => exact finishesFramed_finish (framed_bind fun e _ => framed_writeP h0 (by simp [destsP]) _)
  | lgetn => exact finishesFramed_finish (framed_map fun e _ => h0.setF (by simp [destsF]) _)
  | ghash rd rc =>
    exact finishesFramed_guarded hwf _ (finishesFramed_finish (framed_ok
      ((h0.setF (r := rd) (by simp [destsF]) _).setF (r := rc) (by simp [destsF]) _)))
  | gcmenc =>
    exact finishesFramed_finish (framed_map fun u hu => (framed_writeB (by simp [destsB]) _ u hu).setF (by simp [destsF]) _)
  | gcmdec =>
    exact finishesFramed_finish (framed_map fun u hu => (framed_writeB (by simp [destsB]) _ u hu).setAuth rfl _)
  | recover rd rc ra rb =>
    have hd := h0.setDrawn rfl (recover_drawn_le Config.rand128 s.edfbudget.toNat s.drawn (messageAt s ra rb 0)
      (messageAt s ra rb 1) (messageAt s ra rb 2))
    exact finishesFramed_guarded hwf _ ⟨_, _, rfl,
      framed_map fun hm _ => (hd.setF (r := rd) (by simp [destsF]) _).setF (r := rc) (by simp [destsF]) _⟩

/-- R306: a term that no word stands for takes IllegalCommand with its own encoding (log entry 11). -/
theorem exec_of_not_wf {i : Instr} (hwf : i.wf = false) (s : State) : exec i s = illegal (encode i) s := by
  have hn : ¬ i.wf = true := Bool.eq_false_iff.mp hwf
  cases i with
  | csrr | csrw | pdivmod | ghash | recover => exact if_neg hn
  | _ => cases hwf

/-- How a well-formed command ends (R71, R305): in an error, its draws consumed; in `HALT`; or with `pc` advanced by one and the sequencer still in its state. -/
theorem exec_ends_of_wf {i : Instr} (hwf : i.wf = true) (s : State) : ∃ t : State, exec i s = .next t ∧
    ((∃ (k : ErrorKind) (n : Nat), t = errorEntry k 0 (s.setDrawn n)) ∨
      (i = .halt ∧ t = s.setState stHalted) ∨
      (i ≠ .halt ∧ t.pc = s.pc + 1 ∧ t.running = s.running)) := by
  by_cases hh : i = .halt
  · subst hh
    exact ⟨_, rfl, .inr (.inl ⟨rfl, rfl⟩)⟩
  · obtain ⟨n, r, ho, hf⟩ := exec_finishesFramed hwf hh s
    rw [ho]
    cases r with
    | error k => exact ⟨_, rfl, .inl ⟨k, n, rfl⟩⟩
    | ok u =>
      have hu := hf u rfl
      have hpc : u.advance.pc = s.pc + 1 := by rw [advance_pc, hu.pc]
      have hrun : u.advance.running = s.running := congrArg (· == stRunning) hu.state
      exact ⟨_, rfl, .inr (.inr ⟨hh, hpc, hrun⟩)⟩

/-- R305: an error is taken, so every command has a next state in every state. -/
theorem exec_next (i : Instr) (s : State) : ∃ t : State, exec i s = .next t := by
  cases hwf : i.wf with
  | false => exact ⟨_, exec_of_not_wf hwf s⟩
  | true =>
    obtain ⟨t, ht, -⟩ := exec_ends_of_wf hwf s
    exact ⟨t, ht⟩

theorem step_next (s : State) : ∃ t : State, step s = .next t := by
  obtain ⟨-, h⟩ | ⟨-, -, h⟩ | ⟨-, -, -, h⟩ | ⟨-, -, i, -, h⟩ := step_cases s <;> rw [h]
  · exact ⟨_, rfl⟩
  · exact ⟨_, rfl⟩
  · exact ⟨_, rfl⟩
  · exact exec_next i s

/-- Settles O6: a step keeps the state, takes an error or executes a command, and every command ends in a next state. -/
theorem everyStepHasANextState : Obligations.EveryStepHasANextState := ⟨step_next, exec_next⟩

theorem not_running_of_state_ne_one {s : State} (h : statusState s.status ≠ 1) : s.running = false :=
  beq_false_of_ne h

/-- Settles O5: the step by what is fetched, and the ways a decoded command, which is well formed, ends. -/
theorem sequencerStep : Obligations.SequencerStep := by
  refine fun s => ⟨fun h => step_of_not_running (not_running_of_state_ne_one h), step_of_fetch_error,
    fun hr hpc _ => step_of_decode_error hr hpc, fun hr hpc i hd => ?_⟩
  obtain ⟨t, ht, hend⟩ := exec_ends_of_wf (encode_of_decode hd).2 s
  rw [hr] at hend
  exact ⟨t, (step_of_decode_ok hr hpc hd).trans ht, ht, hend⟩

end Sys2Proof.Machine
end

section
/-! The field arithmetic against its rules (R101 to R106): the raw multiplier by its residue, the square root as the inverse of squaring, the power as a repeated product, and the quotient by the inverse. -/

namespace Sys2Proof.Machine

/-! ## The raw multiplier (R101) -/

/-- A word is the raw product exactly when its polynomial is the product up to a multiple of the modulus: residues multiply, and a word is its residue. -/
theorem eq_feMuln_iff {a b r : Word} : r = feMuln a b ↔ fieldModulus ∣ gf2Poly r - gf2Poly a * gf2Poly b :=
  calc r = feMuln a b
    _ ↔ residue r = residue a * residue b := by rw [← residue_feMuln, residue_injective.eq_iff]
    _ ↔ AdjoinRoot.mk fieldModulus (gf2Poly r) = AdjoinRoot.mk fieldModulus (gf2Poly a * gf2Poly b) := by
      rw [map_mul]; rfl
    _ ↔ fieldModulus ∣ gf2Poly r - gf2Poly a * gf2Poly b := AdjoinRoot.mk_eq_mk

/-- Settles O25: the criterion by residues, with the modulus and the words' polynomials written out. -/
theorem rawMultiplierIsThePolynomialProduct : Obligations.RawMultiplierIsThePolynomialProduct := fun a b r => by
  have h := eq_feMuln_iff (a := a) (b := b) (r := r)
  unfold fieldModulus at h
  exact h

/-! ## The multiplication laws (R102) -/

/-- Settles O26: the laws hold of field elements, and a word in GCM ordering is one. -/
theorem fieldMultiplicationLaws : Obligations.FieldMultiplicationLaws := fun a b c =>
  ⟨rfl, feMul_comm a b, feMul_assoc a b c, feMul_feAdd a b c, feMul_fieldOne a, feMul_zero a⟩

/-! ## Powers and the square root (R103, R106) -/

/-- R103: the square-and-multiply loop is the repeated product. -/
theorem fePow_eq_iterate (a : Word) (e : Nat) : fePow a e = (fun x => feMul x a)^[e] fieldOne := by
  refine toField_injective ((toField_fePow a e).trans ?_)
  induction e with
  | zero => rw [pow_zero, Function.iterate_zero_apply, toField_one]
  | succ e ih => rw [pow_succ, Function.iterate_succ_apply', toField_feMul, ih]

/-- The field has 2^128 elements, so the power of that exponent is the identity. -/
theorem pow_card (x : AdjoinRoot fieldModulus) : x ^ 2 ^ 128 = x := by
  by_cases hx : x = 0
  · rw [hx, zero_pow (by positivity)]
  · have hexp : 2 ^ 128 = 2 ^ 128 - 1 + 1 := by norm_num
    rw [hexp, pow_succ, pow_card_sub_one hx, one_mul]

theorem toField_feSqrt (a : Word) : toField (feSqrt a) = toField a ^ 2 ^ 127 := toField_fePow a _

/-- R106: the square of the root. -/
theorem feMul_feSqrt_self (a : Word) : feMul (feSqrt a) (feSqrt a) = a :=
  toField_injective (by rw [toField_feMul, toField_feSqrt, ← pow_two, ← pow_mul, ← pow_succ, pow_card])

/-- R106: the root of the square. -/
theorem feSqrt_feMul_self (a : Word) : feSqrt (feMul a a) = a :=
  toField_injective (by rw [toField_feSqrt, toField_feMul, ← pow_two, ← pow_mul, ← pow_succ', pow_card])

/-- Squaring is injective, and its one inverse is the root. -/
theorem feMul_self_eq_iff {a u : Word} : feMul u u = a ↔ u = feSqrt a :=
  ⟨fun h => by rw [← h, feSqrt_feMul_self], fun h => by rw [h, feMul_feSqrt_self]⟩

/-- Settles O27: the inverse of a nonzero element, addition as xor, and the root of a square. -/
theorem fieldTestableProperties : Obligations.FieldTestableProperties := fun a =>
  ⟨feInv_of_ne_zero, feAdd_self a, feSqrt_feMul_self a⟩

/-! ## Inversion and division (R104, R105) -/

theorem feInv_zero : feInv 0 = .error .divisionByZero := if_pos rfl

theorem feDiv_of_feInv_ok (a : Word) {b v : Word} (h : feInv b = .ok v) : feDiv a b = .ok (feMul a v) := by
  simp only [feDiv, h]

theorem feDiv_zero (a : Word) : feDiv a 0 = .error .divisionByZero := by
  simp only [feDiv, feInv_zero]

end Sys2Proof.Machine
end

section
/-! The field commands (R108 to R117): the word each stands for and its next state, in every state. -/

namespace Sys2Proof.Machine

/-- A well-formed command stands for the one word that encodes it (R73, R78). -/
theorem standsFor_of_encode_eq {w : Word32} {i : Instr} (hw : encode i = w) (hi : i.wf = true) : StandsFor w i :=
  fun _ => ⟨fun hd => (encode_of_decode hd).1.symm.trans hw, fun hv => decode_of_encode_eq (hw.trans hv.symm) hi⟩

section result
variable {s : State} {rd : Reg} {r : Except ErrorKind Word}

/-- R71, R107: a field result is written and `pc` advances. -/
theorem putF_of_ok {v : Word} (h : r = .ok v) : putF s rd r = .next (s.setF rd v).advance := by subst h; rfl

/-- R305: an error of the field function is taken and nothing is written. -/
theorem putF_of_error {k : ErrorKind} (h : r = .error k) : putF s rd r = .next (errorEntry k 0 s) := by subst h; rfl

end result

/-- Settles O29: a nonzero divisor has an inverse, which is the result or its factor; a zero divisor has none, whatever the dividend. -/
theorem inverseAndDivisionComplete : Obligations.InverseAndDivisionComplete := by
  refine fun s d a b => ⟨standsFor_of_encode_eq rfl rfl, standsFor_of_encode_eq rfl rfl, fun ha => ?_, fun ha => ?_,
    fun hb => ?_, fun hb => ?_⟩
  · obtain ⟨v, hv, hone⟩ := feInv_of_ne_zero ha
    exact ⟨v, hone, putF_of_ok hv⟩
  · exact putF_of_error (ha ▸ feInv_zero)
  · obtain ⟨v, hv, hone⟩ := feInv_of_ne_zero hb
    exact ⟨v, hone, putF_of_ok (feDiv_of_feInv_ok _ hv)⟩
  · exact putF_of_error (hb ▸ feDiv_zero _)

/-- Settles O30: the loop of the power is the repeated product, and `feSqrt` is the one inverse of squaring. -/
theorem powerAndRootComplete : Obligations.PowerAndRootComplete := fun s _ a b =>
  ⟨standsFor_of_encode_eq rfl rfl, putF_of_ok (congrArg Except.ok (fePow_eq_iterate (s.getF a) (s.getF b).toNat)),
    standsFor_of_encode_eq rfl rfl,
    feSqrt (s.getF a), feMul_feSqrt_self _, fun _ => feMul_self_eq_iff.mp, putF_of_ok rfl⟩

/-- A command whose result is a word in every state completes in every state, under its encoding. -/
theorem standsFor_and_exec_of_word {w : Word32} {i : Instr} {s : State} {rd : Reg} {v : Word} (hw : encode i = w)
    (hi : i.wf = true) (hx : exec i s = putF s rd (.ok v)) :
    StandsFor w i ∧ exec i s = .next (s.setF rd v).advance :=
  ⟨standsFor_of_encode_eq hw hi, hx.trans (putF_of_ok rfl)⟩

/-- Settles O28: the six commands in turn, each with its encoding, its side condition and its result. -/
theorem plainFieldCommandsComplete : Obligations.PlainFieldCommandsComplete := fun _ _ _ _ _ =>
  ⟨standsFor_and_exec_of_word rfl rfl rfl, standsFor_and_exec_of_word rfl rfl rfl,
    standsFor_and_exec_of_word rfl rfl rfl, standsFor_and_exec_of_word rfl rfl rfl,
    standsFor_and_exec_of_word rfl rfl rfl, standsFor_and_exec_of_word rfl rfl rfl⟩

end Sys2Proof.Machine
end

section
/-! Coefficient sequences as polynomials over the field GF(2^128) (R142 to R151): every function of the ring is the operation of its name, a canonical sequence is its polynomial, and degrees agree. -/

namespace Sys2Proof.Machine

/-! ## Sequences (R142) -/

theorem coeffAt_of_lt {p : Poly} {i : Nat} (h : i < p.length) : coeffAt p i = p[i] := by
  simp [coeffAt, h]

theorem eq_of_length_of_coeffAt {p q : Poly} (hl : p.length = q.length) (h : ∀ i, coeffAt p i = coeffAt q i) :
    p = q :=
  List.ext_getElem hl fun i hp hq => by rw [← coeffAt_of_lt hp, ← coeffAt_of_lt hq, h i]

/-- A canonical polynomial is known by its coefficients. -/
theorem Canonical.eq_of_coeffAt {p q : Poly} (hp : Canonical p) (hq : Canonical q)
    (h : ∀ i, coeffAt p i = coeffAt q i) : p = q := by
  by_cases hp0 : p = polyZero
  · subst hp0
    exact (hq.eq_polyZero fun i => by rw [← h, coeffAt_polyZero]).symm
  · have hlead : coeffAt q (deg p) ≠ 0 := by
      rw [← h, ← lc_eq_coeffAt]
      exact NonzeroPoly.lc_ne_zero ⟨hp, hp0⟩
    have hdeg : deg q = deg p := hq.deg_eq hlead fun i hi => by rw [← h, coeffAt_of_deg_lt hi]
    exact eq_of_length_of_coeffAt (by rw [hp.length_eq, hq.length_eq, hdeg]) h

/-! ## The polynomial a sequence stands for -/

/-- The polynomial over the field whose coefficient of X^i is element `i` of the sequence. -/
noncomputable def toPolynomial : List Word → Polynomial (AdjoinRoot fieldModulus)
  | [] => 0
  | c :: p => Polynomial.C (toField c) + Polynomial.X * toPolynomial p

theorem toPolynomial_coeff (p : List Word) (i : Nat) : (toPolynomial p).coeff i = toField (coeffAt p i) := by
  induction p generalizing i with
  | nil => exact toField_zero.symm
  | cons c p ih =>
    cases i with
    | zero => simp [toPolynomial, coeffAt]
    | succ i => simpa [toPolynomial, coeffAt, Polynomial.coeff_C] using ih i

theorem toPolynomial_eq_iff {p q : List Word} :
    toPolynomial p = toPolynomial q ↔ ∀ i, coeffAt p i = coeffAt q i := by
  simp only [Polynomial.ext_iff, toPolynomial_coeff, toField_injective.eq_iff]

@[simp] theorem toPolynomial_canon (p : List Word) : toPolynomial (canon p) = toPolynomial p :=
  toPolynomial_eq_iff.mpr (coeffAt_canon p)

theorem Canonical.eq_of_toPolynomial {p q : Poly} (hp : Canonical p) (hq : Canonical q)
    (h : toPolynomial p = toPolynomial q) : p = q :=
  hp.eq_of_coeffAt hq (toPolynomial_eq_iff.mp h)

@[simp] theorem toPolynomial_polyZero : toPolynomial polyZero = 0 := by
  rw [polyZero, fieldZero, toPolynomial, toPolynomial, toField_zero, map_zero, mul_zero, add_zero]

@[simp] theorem toPolynomial_polyOne : toPolynomial polyOne = 1 := by
  simp [toPolynomial, polyOne, toField_one]

theorem Canonical.toPolynomial_eq_zero {p : Poly} (hp : Canonical p) : toPolynomial p = 0 ↔ p = polyZero :=
  ⟨fun h => hp.eq_of_toPolynomial canonical_polyZero (h.trans toPolynomial_polyZero.symm),
    fun h => h ▸ toPolynomial_polyZero⟩

theorem NonzeroPoly.toPolynomial_ne_zero {p : Poly} (hp : NonzeroPoly p) : toPolynomial p ≠ 0 :=
  mt hp.canonical.toPolynomial_eq_zero.mp hp.ne_zero

theorem toPolynomial_natDegree_le (p : Poly) : (toPolynomial p).natDegree ≤ deg p :=
  Polynomial.natDegree_le_iff_coeff_eq_zero.mpr fun i hi => by
    rw [toPolynomial_coeff, coeffAt_of_deg_lt hi, toField_zero]

/-- R143: the degree of a nonzero polynomial. -/
theorem NonzeroPoly.natDegree_eq {p : Poly} (hp : NonzeroPoly p) : (toPolynomial p).natDegree = deg p := by
  refine (toPolynomial_natDegree_le p).antisymm (Polynomial.le_natDegree_of_ne_zero ?_)
  rw [toPolynomial_coeff, ← lc_eq_coeffAt]
  exact mt toField_eq_zero.mp hp.lc_ne_zero

theorem NonzeroPoly.degree_eq {p : Poly} (hp : NonzeroPoly p) : (toPolynomial p).degree = deg p := by
  rw [Polynomial.degree_eq_natDegree hp.toPolynomial_ne_zero, hp.natDegree_eq]

/-- R144: the leading coefficient of a nonzero polynomial. -/
theorem NonzeroPoly.leadingCoeff_eq {p : Poly} (hp : NonzeroPoly p) :
    (toPolynomial p).leadingCoeff = toField (lc p) := by
  rw [Polynomial.leadingCoeff, hp.natDegree_eq, toPolynomial_coeff, lc_eq_coeffAt]

theorem MonicPoly.toPolynomial_monic {p : Poly} (hp : MonicPoly p) : (toPolynomial p).Monic := by
  rw [Polynomial.Monic, hp.nonzero.leadingCoeff_eq, hp.lc, toField_one]

/-- A remainder has a lower degree than the divisor, the zero remainder included (R148). -/
theorem toPolynomial_degree_lt {r m : Poly} (hr : Canonical r) (hm : NonzeroPoly m)
    (h : r = polyZero ∨ deg r < deg m) : (toPolynomial r).degree < (toPolynomial m).degree := by
  rw [hm.degree_eq]
  by_cases hr0 : r = polyZero
  · rw [hr0, toPolynomial_polyZero, Polynomial.degree_zero]
    exact WithBot.bot_lt_coe _
  · rw [NonzeroPoly.degree_eq ⟨hr, hr0⟩]
    exact_mod_cast h.resolve_left hr0

/-! ## The operations -/

theorem field_isDomain : IsDomain (AdjoinRoot fieldModulus) :=
  AdjoinRoot.isDomain_of_prime fieldModulus_irreducible.prime

theorem field_charTwo : CharP (AdjoinRoot fieldModulus) 2 := by
  have := field_isDomain
  exact charP_of_injective_algebraMap (algebraMap (ZMod 2) (AdjoinRoot fieldModulus)).injective 2

theorem toPolynomial_addCoeffs (p q : List Word) :
    toPolynomial (addCoeffs p q) = toPolynomial p + toPolynomial q := by
  ext i
  rw [Polynomial.coeff_add, toPolynomial_coeff, toPolynomial_coeff, toPolynomial_coeff, coeffAt_addCoeffs,
    toField_feAdd]

/-- R146: the sum. -/
@[simp] theorem toPolynomial_pAdd (p q : Poly) : toPolynomial (pAdd p q) = toPolynomial p + toPolynomial q := by
  rw [pAdd, toPolynomial_canon, toPolynomial_addCoeffs]

theorem toPolynomial_scale (c : Word) (p : List Word) :
    toPolynomial (scale c p) = Polynomial.C (toField c) * toPolynomial p := by
  ext i
  rw [Polynomial.coeff_C_mul, toPolynomial_coeff, toPolynomial_coeff, coeffAt_scale, toField_feMul]

theorem toPolynomial_shiftBy (k : Nat) (p : List Word) :
    toPolynomial (shiftBy k p) = Polynomial.X ^ k * toPolynomial p := by
  ext i
  rw [toPolynomial_coeff, coeffAt_shiftBy, Polynomial.coeff_X_pow_mul']
  split_ifs with hlow hhigh hhigh
  · omega
  · exact toField_zero
  · rw [toPolynomial_coeff]
  · omega

theorem toPolynomial_mulCoeffs (p q : List Word) :
    toPolynomial (mulCoeffs p q) = toPolynomial p * toPolynomial q := by
  induction p with
  | nil => rw [mulCoeffs, toPolynomial, zero_mul]
  | cons c p ih =>
    rw [mulCoeffs, toPolynomial_addCoeffs, toPolynomial_scale, toPolynomial, toPolynomial, ih, fieldZero, toField_zero,
      map_zero, zero_add, add_mul, mul_assoc Polynomial.X]

/-- R147: the product. -/
@[simp] theorem toPolynomial_pMul (p q : Poly) : toPolynomial (pMul p q) = toPolynomial p * toPolynomial q := by
  rw [pMul, toPolynomial_canon, toPolynomial_mulCoeffs]

theorem toPolynomial_pPowLoop (n : Nat) (r s : Poly) {e : Nat} (he : e < 2 ^ n) :
    toPolynomial (pPowLoop n r s e) = toPolynomial r * toPolynomial s ^ e := by
  induction n generalizing r s e with
  | zero =>
    obtain rfl : e = 0 := by omega
    rw [pPowLoop, pow_zero, mul_one]
  | succ n ih =>
    have hsquare : toPolynomial (if e / 2 > 0 then pMul s s else s) ^ (e / 2) = toPolynomial s ^ (2 * (e / 2)) := by
      split_ifs with hmore
      · rw [toPolynomial_pMul, ← pow_two, ← pow_mul]
      · have h0 : e / 2 = 0 := by omega
        rw [h0, Nat.mul_zero]
    unfold pPowLoop
    by_cases h0 : e = 0
    · rw [if_pos h0, h0, pow_zero, mul_one]
    rw [if_neg h0, ih _ _ (by omega), hsquare]
    split_ifs with hodd
    · rw [toPolynomial_pMul, mul_assoc, ← pow_succ']
      congr 2; omega
    · congr 2; omega

/-- R149: the power. -/
@[simp] theorem toPolynomial_pPow (p : Poly) (e : Nat) : toPolynomial (pPow p e) = toPolynomial p ^ e := by
  rw [pPow, toPolynomial_pPowLoop _ _ _ Nat.lt_log2_self, toPolynomial_polyOne, one_mul]

/-! ## Degrees of products and powers (R147, R149) -/

/-- The product of nonzero polynomials is nonzero, and degrees add: the field has no zero divisors. -/
theorem pMul_nonzero {p q : Poly} (hp : NonzeroPoly p) (hq : NonzeroPoly q) :
    NonzeroPoly (pMul p q) ∧ deg (pMul p q) = deg p + deg q := by
  have := field_isDomain
  have hpq : NonzeroPoly (pMul p q) := by
    refine ⟨pMul_canonical p q, mt (pMul_canonical p q).toPolynomial_eq_zero.mpr ?_⟩
    rw [toPolynomial_pMul]
    exact mul_ne_zero hp.toPolynomial_ne_zero hq.toPolynomial_ne_zero
  refine ⟨hpq, ?_⟩
  rw [← hpq.natDegree_eq, toPolynomial_pMul,
    Polynomial.natDegree_mul hp.toPolynomial_ne_zero hq.toPolynomial_ne_zero, hp.natDegree_eq, hq.natDegree_eq]

theorem pPow_nonzero {p : Poly} (hp : NonzeroPoly p) (e : Nat) :
    NonzeroPoly (pPow p e) ∧ deg (pPow p e) = e * deg p := by
  have := field_isDomain
  have hpe : NonzeroPoly (pPow p e) := by
    refine ⟨pPow_canonical p e, mt (pPow_canonical p e).toPolynomial_eq_zero.mpr ?_⟩
    rw [toPolynomial_pPow]
    exact pow_ne_zero e hp.toPolynomial_ne_zero
  refine ⟨hpe, ?_⟩
  rw [← hpe.natDegree_eq, toPolynomial_pPow, Polynomial.natDegree_pow, hp.natDegree_eq]

theorem polyZero_pMul (q : Poly) : pMul polyZero q = polyZero :=
  (pMul_canonical _ _).toPolynomial_eq_zero.mp (by rw [toPolynomial_pMul, toPolynomial_polyZero, zero_mul])

theorem pMul_polyZero (p : Poly) : pMul p polyZero = polyZero :=
  (pMul_canonical _ _).toPolynomial_eq_zero.mp (by rw [toPolynomial_pMul, toPolynomial_polyZero, mul_zero])

theorem pMul_length {p q : Poly} (hp : NonzeroPoly p) (hq : NonzeroPoly q) :
    (pMul p q).length = p.length + q.length - 1 := by
  obtain ⟨hpq, hdeg⟩ := pMul_nonzero hp hq
  rw [hpq.canonical.length_eq, hp.canonical.length_eq, hq.canonical.length_eq, hdeg]
  omega

theorem pPow_length {p : Poly} (hp : NonzeroPoly p) (e : Nat) : (pPow p e).length = e * deg p + 1 := by
  obtain ⟨hpe, hdeg⟩ := pPow_nonzero hp e
  rw [hpe.canonical.length_eq, hdeg]

/-! ## The statements about sums, products and derivatives -/

/-- A sum accumulated by xor is the sum of the field elements. -/
theorem toField_foldl_xor (f : Nat → Word) (n : Nat) :
    toField ((List.range n).foldl (fun acc i => acc ^^^ f i) 0) = ∑ i ∈ Finset.range n, toField (f i) := by
  induction n with
  | zero => exact toField_zero
  | succ n ih =>
    rw [List.range_succ, List.foldl_append, Finset.sum_range_succ, ← ih]
    exact toField_feAdd _ _

/-- R147: the coefficients of the product are the convolution. -/
theorem coeffAt_pMul (p q : Poly) (n : Nat) : coeffAt (pMul p q) n =
    (List.range (n + 1)).foldl (fun acc i => acc ^^^ feMul (coeffAt p i) (coeffAt q (n - i))) 0 := by
  refine toField_injective ?_
  rw [toField_foldl_xor, ← toPolynomial_coeff, toPolynomial_pMul, Polynomial.coeff_mul,
    Finset.Nat.sum_antidiagonal_eq_sum_range_succ fun i j => (toPolynomial p).coeff i * (toPolynomial q).coeff j]
  refine Finset.sum_congr rfl fun i _ => ?_
  rw [toPolynomial_coeff, toPolynomial_coeff, toField_feMul]

/-- Settles O32: the product of polynomials over the field, whose degrees add. -/
theorem productIsTheConvolution : Obligations.ProductIsTheConvolution := fun p q =>
  ⟨coeffAt_pMul p q, pMul_canonical p q, polyZero_pMul q, pMul_polyZero p,
    fun hp hq hp0 hq0 => pMul_length ⟨hp, hp0⟩ ⟨hq, hq0⟩⟩

theorem trimZeros_append_zeros (s : List Word) : ∃ k, s = trimZeros s ++ List.replicate k 0 := by
  induction s with
  | nil => exact ⟨0, rfl⟩
  | cons c s ih =>
    obtain ⟨k, hk⟩ := ih
    unfold trimZeros
    split
    · next h =>
      rw [h, List.nil_append] at hk
      split_ifs with hc
      · exact ⟨k + 1, by rw [hc, hk]; rfl⟩
      · exact ⟨k, congrArg (c :: ·) hk⟩
    · next h =>
      rw [h] at hk
      exact ⟨k, congrArg (c :: ·) hk⟩

/-- R142: what the canonical form drops is zeros at the high-index end; the empty sequence becomes `[0]`. -/
theorem eq_canon_append_zeros (s : List Word) :
    (∃ k : Nat, s = canon s ++ List.replicate k 0) ∨ s = [] ∧ canon s = [0] := by
  obtain ⟨k, hk⟩ := trimZeros_append_zeros s
  unfold canon
  split
  · next h =>
    rw [h, List.nil_append] at hk
    cases k with
    | zero => exact .inr ⟨hk, rfl⟩
    | succ k => exact .inl ⟨k, hk⟩
  · next h => exact .inl ⟨k, h ▸ hk⟩

theorem canon_length_or_last (s : List Word) : (canon s).length = 1 ∨ (canon s).getLastD 0 ≠ 0 := by
  by_cases h : canon s = polyZero
  · exact .inl (congrArg List.length h)
  · exact .inr (NonzeroPoly.lc_ne_zero ⟨canon_canonical s, h⟩)

theorem pAdd_self (p : Poly) : pAdd p p = polyZero :=
  (pAdd_canonical p p).eq_polyZero fun i => by rw [coeffAt_pAdd, feAdd_self]

/-- Settles O31: the canonical form drops the trailing zeros, and the sum is its form of the coefficientwise xor. -/
theorem canonicalFormsAndSums : Obligations.CanonicalFormsAndSums :=
  ⟨fun s => ⟨eq_canon_append_zeros s, canon_length_pos s, canon_length_or_last s⟩, rfl, rfl, rfl,
    fun p q => ⟨coeffAt_pAdd p q, pAdd_canonical p q, pAdd_self p⟩⟩

/-- R151: the derivative vanishes exactly when every odd-position coefficient is zero. -/
theorem pDeriv_eq_polyZero_iff (p : Poly) : pDeriv p = polyZero ↔ ∀ i, i % 2 = 1 → coeffAt p i = 0 := by
  constructor
  · intro h i hi
    obtain ⟨j, rfl⟩ : ∃ j, i = j + 1 := ⟨i - 1, by omega⟩
    have hj := coeffAt_pDeriv p j
    rwa [h, coeffAt_polyZero, if_pos (by omega), eq_comm] at hj
  · refine fun h => (pDeriv_canonical p).eq_polyZero fun i => ?_
    rw [coeffAt_pDeriv]
    split_ifs with heven
    · exact h _ (by omega)
    · rfl

/-- Settles O35: the derivative coefficient by coefficient. -/
theorem derivativeKeepsOddCoefficients : Obligations.DerivativeKeepsOddCoefficients := fun p =>
  ⟨fun i => (coeffAt_pDeriv p i).trans (if_congr (by omega) rfl rfl), pDeriv_canonical p, pDeriv_eq_polyZero_iff p⟩

end Sys2Proof.Machine
end

section
/-! Division and greatest common divisors (R148, R150, R153, R154) as those of polynomials over the field: the division identity, remainders as representatives of residues, and divisibility. -/

namespace Sys2Proof.Machine

/-! ## The division identity (R148) -/

/-- Every round of the long division adds to the quotient what it takes from the running dividend. -/
theorem toPolynomial_divRound (m q r : Poly) (k : Nat) (fac : Word) :
    toPolynomial (pAdd q (shiftBy k [fac])) * toPolynomial m + toPolynomial (pAdd r (shiftBy k (scale fac m))) =
      toPolynomial q * toPolynomial m + toPolynomial r := by
  have := field_charTwo
  have hfac : toPolynomial [fac] = Polynomial.C (toField fac) := by
    rw [toPolynomial, toPolynomial, mul_zero, add_zero]
  have htwice := CharTwo.add_self_eq_zero (Polynomial.X ^ k * (Polynomial.C (toField fac) * toPolynomial m))
  rw [toPolynomial_pAdd, toPolynomial_pAdd, toPolynomial_shiftBy, toPolynomial_shiftBy, toPolynomial_scale, hfac]
  linear_combination htwice

theorem divLoop_identity (m : Poly) (n : Nat) {q r : Poly} {x : Poly × Poly} (h : divLoop m n q r = .ok x) :
    toPolynomial x.1 * toPolynomial m + toPolynomial x.2 = toPolynomial q * toPolynomial m + toPolynomial r := by
  induction n generalizing q r with
  | zero => cases h; rfl
  | succ n ih =>
    unfold divLoop at h
    split_ifs at h
    · split at h
      · cases h
      · rw [ih h, toPolynomial_divRound]
    · cases h; rfl

theorem pDivmod_identity {u v : Poly} {x : Poly × Poly} (h : pDivmod u v = .ok x) :
    toPolynomial x.1 * toPolynomial v + toPolynomial x.2 = toPolynomial u := by
  unfold pDivmod at h
  split_ifs at h
  rw [divLoop_identity v _ h, toPolynomial_polyZero, zero_mul, zero_add]

theorem pDivmod_polyZero (u : Poly) : pDivmod u polyZero = .error .divisionByZero := if_pos rfl

/-- A quotient is no longer than the dividend. -/
theorem pDivmod_quotient_length_le {u v q r : Poly} (hu : Canonical u) (hv : NonzeroPoly v)
    (h : pDivmod u v = .ok (q, r)) : q.length ≤ u.length := by
  by_cases hstop : deg u < deg v ∨ u = polyZero
  · rw [pDivmod, if_neg hv.ne_zero, divLoop_stop _ hstop] at h
    cases h
    exact hu.length_pos
  · push Not at hstop
    obtain ⟨hd, hu0⟩ := hstop
    obtain ⟨q', r', h', -, hdeg⟩ := pDivmod_spec hu hv
    obtain ⟨rfl, rfl⟩ : q = q' ∧ r = r' := by simpa using h.symm.trans h'
    have hq : q.length = deg q + 1 := (pDivmod_canonical hu h).1.length_eq
    rw [hq, (hdeg hu0 hd).2, hu.length_eq]
    omega

/-- Over a domain, a quotient and a remainder of lower degree than the divisor are the only ones. -/
theorem quotient_remainder_unique {R : Type*} [CommRing R] [IsDomain R] {m q q' r r' : Polynomial R}
    (h : q * m + r = q' * m + r') (hr : r.degree < m.degree) (hr' : r'.degree < m.degree) : q = q' ∧ r = r' := by
  have hdvd : m ∣ r - r' := ⟨q' - q, by linear_combination h⟩
  have hrr : r = r' := sub_eq_zero.mp
    (Polynomial.eq_zero_of_dvd_of_degree_lt hdvd ((Polynomial.degree_sub_le r r').trans_lt (max_lt hr hr')))
  have hm : m ≠ 0 := by
    rintro rfl
    exact not_lt_bot (Polynomial.degree_zero (R := R) ▸ hr)
  exact ⟨mul_right_cancel₀ hm (add_right_cancel (hrr ▸ h)), hrr⟩

/-- R148: what a division by a nonzero polynomial gives. -/
structure QuotRem (u v q r : Poly) : Prop where
  quot : Canonical q
  rem : Canonical r
  identity : pAdd (pMul q v) r = u
  small : r = polyZero ∨ deg r < deg v

theorem QuotRem.toPolynomial_eq {u v q r : Poly} (h : QuotRem u v q r) :
    toPolynomial q * toPolynomial v + toPolynomial r = toPolynomial u := by
  rw [← h.identity, toPolynomial_pAdd, toPolynomial_pMul]

theorem QuotRem.unique {u v q r q' r' : Poly} (hv : NonzeroPoly v) (h : QuotRem u v q r) (h' : QuotRem u v q' r') :
    q' = q ∧ r' = r := by
  have := field_isDomain
  obtain ⟨hq, hr⟩ := quotient_remainder_unique (h'.toPolynomial_eq.trans h.toPolynomial_eq.symm)
    (toPolynomial_degree_lt h'.rem hv h'.small) (toPolynomial_degree_lt h.rem hv h.small)
  exact ⟨h'.quot.eq_of_toPolynomial h.quot hq, h'.rem.eq_of_toPolynomial h.rem hr⟩

theorem pDivmod_quotRem {u v : Poly} (hu : Canonical u) (hv : NonzeroPoly v) :
    ∃ q r, pDivmod u v = .ok (q, r) ∧ q.length ≤ u.length ∧ QuotRem u v q r := by
  obtain ⟨q, r, hdiv, hsmall, -⟩ := pDivmod_spec hu hv
  obtain ⟨hq, hr⟩ := pDivmod_canonical hu hdiv
  have hid : toPolynomial (pAdd (pMul q v) r) = toPolynomial u := by
    rw [toPolynomial_pAdd, toPolynomial_pMul, pDivmod_identity hdiv]
  exact ⟨q, r, hdiv, pDivmod_quotient_length_le hu hv hdiv, hq, hr,
    (pAdd_canonical _ _).eq_of_toPolynomial hu hid, hsmall⟩

/-- Settles O33: the long division keeps the division identity, and over a field the pair is unique. -/
theorem divisionAlgorithm : Obligations.DivisionAlgorithm := by
  refine fun n _ hn hm => ⟨fun hm0 => hm0 ▸ pDivmod_polyZero n, fun hm0 => ?_⟩
  obtain ⟨q, r, hdiv, hlen, h⟩ := pDivmod_quotRem hn ⟨hm, hm0⟩
  exact ⟨q, r, hdiv, h.quot, h.rem, hlen, h.identity, h.small,
    fun q' r' hq hr hid hsmall => h.unique ⟨hm, hm0⟩ ⟨hq, hr, hid, hsmall⟩⟩

/-! ## Remainders as representatives (R150) -/

/-- `r` is the canonical representative modulo `m` of the residue `x`. -/
structure Represents (m r : Poly) (x : AdjoinRoot (toPolynomial m)) : Prop where
  canonical : Canonical r
  small : r = polyZero ∨ deg r < deg m
  mk_eq : AdjoinRoot.mk (toPolynomial m) (toPolynomial r) = x

theorem Represents.unique {m r r' : Poly} {x : AdjoinRoot (toPolynomial m)} (hm : NonzeroPoly m)
    (h : Represents m r x) (h' : Represents m r' x) : r = r' := by
  have := field_isDomain
  have hdvd := AdjoinRoot.mk_eq_mk.mp (h.mk_eq.trans h'.mk_eq.symm)
  have hlt := (Polynomial.degree_sub_le (toPolynomial r) (toPolynomial r')).trans_lt
    (max_lt (toPolynomial_degree_lt h.canonical hm h.small) (toPolynomial_degree_lt h'.canonical hm h'.small))
  exact h.canonical.eq_of_toPolynomial h'.canonical
    (sub_eq_zero.mp (Polynomial.eq_zero_of_dvd_of_degree_lt hdvd hlt))

/-- The remainder represents the residue of the dividend. -/
theorem rem_represents {u m : Poly} (hu : Canonical u) (hm : NonzeroPoly m) :
    ∃ r, rem u m = .ok r ∧ Represents m r (AdjoinRoot.mk (toPolynomial m) (toPolynomial u)) := by
  obtain ⟨q, r, hdiv, -, h⟩ := pDivmod_quotRem hu hm
  refine ⟨r, by rw [rem, hdiv]; rfl, h.rem, h.small, ?_⟩
  rw [← h.toPolynomial_eq, map_add, map_mul, AdjoinRoot.mk_self, mul_zero, zero_add]

/-- A round's product, reduced: the product of the residues. -/
theorem rem_pMul_represents {m r s : Poly} {x y : AdjoinRoot (toPolynomial m)} (hm : NonzeroPoly m)
    (hr : Represents m r x) (hs : Represents m s y) : ∃ t, rem (pMul r s) m = .ok t ∧ Represents m t (x * y) := by
  obtain ⟨t, ht, hrep⟩ := rem_represents (pMul_canonical r s) hm
  rw [toPolynomial_pMul, map_mul, hr.mk_eq, hs.mk_eq] at hrep
  exact ⟨t, ht, hrep⟩

/-- A round of R150's loop, the two reduced products given. -/
theorem pPowmodLoop_round {m r s r' s' : Poly} {e : Nat} (n : Nat) (h0 : e ≠ 0)
    (hr : (if e % 2 = 1 then rem (pMul r s) m else .ok r) = .ok r')
    (hs : (if e / 2 > 0 then rem (pMul s s) m else .ok s) = .ok s') :
    pPowmodLoop m (n + 1) r s e = pPowmodLoop m n r' s' (e / 2) := by
  have hbind : pPowmodLoop m (n + 1) r s e =
      (if e % 2 = 1 then rem (pMul r s) m else .ok r).bind fun r' =>
        (if e / 2 > 0 then rem (pMul s s) m else .ok s).bind fun s' => pPowmodLoop m n r' s' (e / 2) := by
    rw [pPowmodLoop, if_neg h0]
    split_ifs <;> rfl
  rw [hbind, hr, hs]
  rfl

/-- The loop of R150 is a power in the ring of residues. -/
theorem pPowmodLoop_represents {m : Poly} (hm : NonzeroPoly m) (n : Nat) {r s : Poly} {e : Nat}
    {x y : AdjoinRoot (toPolynomial m)} (hr : Represents m r x) (hs : Represents m s y) (he : e < 2 ^ n) :
    ∃ t, pPowmodLoop m n r s e = .ok t ∧ Represents m t (x * y ^ e) := by
  induction n generalizing r s e x y with
  | zero =>
    obtain rfl : e = 0 := by omega
    exact ⟨r, rfl, by rwa [pow_zero, mul_one]⟩
  | succ n ih =>
    by_cases h0 : e = 0
    · subst h0
      exact ⟨r, if_pos rfl, by rwa [pow_zero, mul_one]⟩
    obtain ⟨r', hr', hrep⟩ : ∃ r', (if e % 2 = 1 then rem (pMul r s) m else .ok r) = .ok r' ∧
        Represents m r' (x * y ^ (e % 2)) := by
      split_ifs with hodd
      · rw [hodd, pow_one]
        exact rem_pMul_represents hm hr hs
      · rw [show e % 2 = 0 by omega, pow_zero, mul_one]
        exact ⟨r, rfl, hr⟩
    obtain ⟨s', z, hs', hsq, hz⟩ : ∃ s' z, (if e / 2 > 0 then rem (pMul s s) m else .ok s) = .ok s' ∧
        Represents m s' z ∧ z ^ (e / 2) = (y * y) ^ (e / 2) := by
      split_ifs with hmore
      · obtain ⟨s', hs', hsq⟩ := rem_pMul_represents hm hs hs
        exact ⟨s', y * y, hs', hsq, rfl⟩
      · exact ⟨s, y, rfl, hs, by rw [show e / 2 = 0 by omega, pow_zero, pow_zero]⟩
    obtain ⟨t, ht, htr⟩ := ih hrep hsq (e := e / 2) (by omega)
    refine ⟨t, (pPowmodLoop_round n h0 hr' hs').trans ht, ?_⟩
    rwa [hz, ← pow_two, ← pow_mul, mul_assoc, ← pow_add, Nat.mod_add_div] at htr

/-- R150: the modular power is the remainder of the power. -/
theorem pPowmod_eq_rem {p m : Poly} (hp : Canonical p) (hm : NonzeroPoly m) (e : Nat) :
    pPowmod p e m = rem (pPow p e) m := by
  obtain ⟨r, hr, hrr⟩ := rem_represents canonical_polyOne hm
  obtain ⟨s, hs, hsr⟩ := rem_represents hp hm
  obtain ⟨t, ht, htr⟩ := pPowmodLoop_represents hm (e.log2 + 1) hrr hsr Nat.lt_log2_self
  obtain ⟨t', ht', htr'⟩ := rem_represents (pPow_canonical p e) hm
  rw [toPolynomial_pPow, map_pow] at htr'
  rw [toPolynomial_polyOne, map_one, one_mul] at htr
  rw [ht', htr'.unique hm htr, pPowmod, if_neg hm.ne_zero, hr, hs]
  exact ht

theorem pPowmod_polyZero (p : Poly) (e : Nat) : pPowmod p e polyZero = .error .divisionByZero := if_pos rfl

/-- R149: the power is the repeated product. -/
theorem pPow_eq_iterate (p : Poly) (e : Nat) : pPow p e = (fun x => pMul x p)^[e] polyOne := by
  induction e with
  | zero => rfl
  | succ e ih =>
    rw [Function.iterate_succ_apply', ← ih]
    refine (pPow_canonical _ _).eq_of_toPolynomial (pMul_canonical _ _) ?_
    rw [toPolynomial_pPow, toPolynomial_pMul, toPolynomial_pPow, pow_succ]

/-- Settles O34: the power over the field, and the power of the residue modulo `m`. -/
theorem modularPowerIsTheRemainderOfThePower : Obligations.ModularPowerIsTheRemainderOfThePower :=
  fun p _ e hp hm => ⟨pPow_eq_iterate p e, fun hp0 => (pPow_nonzero ⟨hp, hp0⟩ e).2,
    fun hm0 => hm0 ▸ pPowmod_polyZero p e, fun hm0 => pPowmod_eq_rem hp ⟨hm, hm0⟩ e⟩

/-! ## Divisibility and the greatest common divisor (R153, R154) -/

theorem rem_eq_zero_iff {u v : Poly} (hu : Canonical u) (hv : NonzeroPoly v) :
    rem u v = .ok polyZero ↔ toPolynomial v ∣ toPolynomial u := by
  obtain ⟨r, hrem, hr⟩ := rem_represents hu hv
  have hzero : Represents v polyZero 0 := ⟨canonical_polyZero, .inl rfl, by rw [toPolynomial_polyZero, map_zero]⟩
  rw [hrem, ← AdjoinRoot.mk_eq_zero]
  constructor
  · intro h
    cases h
    rw [← hr.mk_eq, toPolynomial_polyZero, map_zero]
  · intro h
    rw [h] at hr
    rw [hr.unique hv hzero]

/-- A remainder changes no common divisor. -/
theorem dvd_rem_iff {u v r : Poly} (h : rem u v = .ok r) (hu : Canonical u) (hv : NonzeroPoly v)
    {d : Polynomial (AdjoinRoot fieldModulus)} (hd : d ∣ toPolynomial v) :
    d ∣ toPolynomial r ↔ d ∣ toPolynomial u := by
  obtain ⟨r', hrem, hr⟩ := rem_represents hu hv
  obtain rfl : r = r' := by simpa using h.symm.trans hrem
  exact dvd_iff_dvd_of_dvd_sub (hd.trans (AdjoinRoot.mk_eq_mk.mp hr.mk_eq))

/-- Euclid's loop, with rounds enough, gives a polynomial whose divisors are the common ones of its operands. -/
theorem gcdLoop_divisors (n : Nat) {u v g : Poly} (hu : Canonical u) (hv : Canonical v)
    (hn : v = polyZero ∨ deg v + 1 < n) (h : gcdLoop n u v = .ok g) (d : Polynomial (AdjoinRoot fieldModulus)) :
    d ∣ toPolynomial g ↔ d ∣ toPolynomial u ∧ d ∣ toPolynomial v := by
  induction n generalizing u v with
  | zero =>
    obtain rfl := hn.resolve_right (by omega)
    cases h
    simp
  | succ n ih =>
    by_cases hv0 : v = polyZero
    · rw [hv0, gcdLoop_zero] at h
      cases h
      simp [hv0]
    · obtain ⟨r, hrem, hr, hsmall⟩ := rem_spec hu ⟨hv, hv0⟩
      rw [gcdLoop_round n hv0 hrem] at h
      have hlt := hn.resolve_left hv0
      rw [ih hv hr (hsmall.imp_right fun hr => by omega) h, and_comm]
      exact and_congr_left fun hd => dvd_rem_iff hrem hu ⟨hv, hv0⟩ hd

theorem pMonic_polyZero : pMonic polyZero = .error .divisionByZero := if_pos rfl

/-- The monic form has the divisors of the polynomial: it is a multiple by a unit. -/
theorem pMonic_divisors {p r : Poly} (hp : NonzeroPoly p) (h : pMonic p = .ok r)
    (d : Polynomial (AdjoinRoot fieldModulus)) : d ∣ toPolynomial r ↔ d ∣ toPolynomial p := by
  obtain ⟨r', hr', hmonic, hdeg, v, hv⟩ := pMonic_spec hp
  obtain rfl : r = r' := by simpa using h.symm.trans hr'
  have hscaled : toPolynomial r = toPolynomial p * Polynomial.C (toField v) := by
    ext i
    rw [Polynomial.coeff_mul_C, toPolynomial_coeff, toPolynomial_coeff, hv, toField_feMul]
  have hunit : IsUnit (toField v) := by
    refine IsUnit.of_mul_eq_one_right (toField (lc p)) ?_
    rw [← toField_feMul, lc_eq_coeffAt, ← hv, ← hdeg, ← lc_eq_coeffAt, hmonic.lc, toField_one]
  rw [hscaled]
  exact (Polynomial.isUnit_C.mpr hunit).dvd_mul_right

/-- R154: the divisors of the greatest common divisor are the common divisors. -/
theorem pGcd_divisors {u v : Poly} (hu : Canonical u) (hv : Canonical v) (hne : u ≠ polyZero ∨ v ≠ polyZero) :
    ∃ g, pGcd u v = .ok g ∧ MonicPoly g ∧
      ∀ d, d ∣ toPolynomial g ↔ d ∣ toPolynomial u ∧ d ∣ toPolynomial v := by
  have hlu := hu.length_eq
  have hlv := hv.length_eq
  obtain ⟨w, hw, hwn, hdvd⟩ : ∃ w, gcdLoop (u.length + v.length + 1) (if deg u < deg v then v else u)
      (if deg u < deg v then u else v) = .ok w ∧ NonzeroPoly w ∧
      ∀ d, d ∣ toPolynomial w ↔ d ∣ toPolynomial u ∧ d ∣ toPolynomial v := by
    split_ifs with hlt
    · obtain ⟨w, hw, hwn, -, -⟩ := gcdLoop_ordered_spec (u.length + v.length) hv hu hlt.le hne.symm
      exact ⟨w, hw, hwn, fun d => (gcdLoop_divisors _ hv hu (.inr (by omega)) hw d).trans and_comm⟩
    · obtain ⟨w, hw, hwn, -, -⟩ := gcdLoop_ordered_spec (u.length + v.length) hu hv (not_lt.mp hlt) hne
      exact ⟨w, hw, hwn, gcdLoop_divisors _ hu hv (.inr (by omega)) hw⟩
  obtain ⟨g, hg, hmonic, -, -⟩ := pMonic_spec hwn
  exact ⟨g, (pGcd_of_loop hw).trans hg, hmonic, fun d => (pMonic_divisors hwn hg d).trans (hdvd d)⟩

/-- Monic polynomials with the same divisors are the same. -/
theorem MonicPoly.eq_of_divisors {f g : Poly} (hf : MonicPoly f) (hg : MonicPoly g)
    (h : ∀ d, d ∣ toPolynomial f ↔ d ∣ toPolynomial g) : f = g := by
  have := field_isDomain
  refine hf.canonical.eq_of_toPolynomial hg.canonical ?_
  exact Polynomial.eq_of_monic_of_associated hf.toPolynomial_monic hg.toPolynomial_monic
    (associated_of_dvd_dvd ((h _).mp dvd_rfl) ((h _).mpr dvd_rfl))

theorem pGcd_comm {u v : Poly} (hu : Canonical u) (hv : Canonical v) (hne : u ≠ polyZero ∨ v ≠ polyZero) :
    pGcd v u = pGcd u v := by
  obtain ⟨f, hf, hfm, hfd⟩ := pGcd_divisors hv hu hne.symm
  obtain ⟨g, hg, hgm, hgd⟩ := pGcd_divisors hu hv hne
  rw [hf, hg, hfm.eq_of_divisors hgm fun d => by rw [hfd, hgd, and_comm]]

theorem pGcd_polyZero_polyZero : pGcd polyZero polyZero = .error .divisionByZero :=
  (pGcd_polyZero polyZero).trans pMonic_polyZero

theorem isMonic_iff (p : Poly) : isMonic p = true ↔ lc p = fieldOne := beq_iff_eq

/-- Settles O36: the common divisors are the divisors of the result, and a monic polynomial is known by its divisors. -/
theorem gcdIsTheMonicGreatestDivisor : Obligations.GcdIsTheMonicGreatestDivisor := by
  refine ⟨pGcd_polyZero_polyZero, fun u v hu hv hne => ?_⟩
  obtain ⟨g, hg, hmonic, hdvd⟩ := pGcd_divisors hu hv hne
  obtain ⟨hgu, hgv⟩ := (hdvd _).mp dvd_rfl
  refine ⟨g, hg, (pGcd_comm hu hv hne).trans hg, hmonic.canonical, (isMonic_iff g).mpr hmonic.lc,
    (rem_eq_zero_iff hu hmonic.nonzero).mpr hgu, (rem_eq_zero_iff hv hmonic.nonzero).mpr hgv,
    fun w hw hw0 hwu hwv => ?_⟩
  have hwn : NonzeroPoly w := ⟨hw, hw0⟩
  exact (rem_eq_zero_iff hmonic.canonical hwn).mpr
    ((hdvd _).mpr ⟨(rem_eq_zero_iff hu hwn).mp hwu, (rem_eq_zero_iff hv hwn).mp hwv⟩)

end Sys2Proof.Machine
end

section
/-! The polynomial commands (R155 to R166): the word each stands for, and its next state by whether the result exists and fits. -/

namespace Sys2Proof.Machine

/-! ## How a polynomial result ends the command (R140, R141, R305) -/

section result
variable {s : State} {rd : Reg} {r : Except ErrorKind Poly}

/-- A result that fits is written, in canonical form, and `pc` advances. -/
theorem putP_of_fits {p : Poly} (h : r = .ok p) (hfit : (canon p).length ≤ s.params.maxCoef) :
    putP s rd r = .next (s.setP rd (canon p)).advance := by
  subst h
  exact congrArg (finish s) (writeP_eq_ok.mpr ⟨hfit, rfl⟩)

theorem putP_of_canonical {p : Poly} (h : r = .ok p) (hfit : FitsPolyReg s.params p) :
    putP s rd r = .next (s.setP rd p).advance := by
  obtain ⟨hp, hl⟩ := hfit
  rw [putP_of_fits h (hp.symm ▸ hl), hp]

/-- A result that exceeds the capacity is an error and nothing is written. -/
theorem putP_of_exceeds {p : Poly} (h : r = .ok p) (hover : s.params.maxCoef < (canon p).length) :
    putP s rd r = .next (errorEntry .capacityExceeded 0 s) := by
  subst h
  exact congrArg (finish s) (writeP_eq_error.mpr ⟨hover, rfl⟩)

theorem putP_of_error {k : ErrorKind} (h : r = .error k) : putP s rd r = .next (errorEntry k 0 s) := by subst h; rfl

end result

/-! ## What fits a register (R21, R141) -/

section fits
variable {s : State} (hi : Inv s)
include hi

theorem Inv.canonical (r : Reg) : Canonical (s.getP r) := (hi.polys r).1

theorem Inv.length_le (r : Reg) : (s.getP r).length ≤ s.params.maxCoef := (hi.polys r).2

theorem Inv.maxCoef_ge : 2 ≤ s.params.maxCoef := hi.params.1

/-- A canonical polynomial that is no longer than a register's fits. -/
theorem Inv.fits_of_length_le {p : Poly} (hp : Canonical p) {r : Reg} (h : p.length ≤ max 1 (s.getP r).length) :
    FitsPolyReg s.params p := by
  have h1 := hi.length_le r
  have h2 := hi.maxCoef_ge
  exact ⟨hp, by omega⟩

theorem Inv.fits_polyZero : FitsPolyReg s.params polyZero :=
  ⟨canonical_polyZero, (by decide : polyZero.length ≤ 2).trans hi.maxCoef_ge⟩

/-- A remainder fits where its divisor does. -/
theorem Inv.fits_remainder {p : Poly} (hp : Canonical p) {r : Reg} (h : p = polyZero ∨ deg p < deg (s.getP r)) :
    FitsPolyReg s.params p := by
  obtain rfl | hlt := h
  · exact hi.fits_polyZero
  · refine hi.fits_of_length_le hp (r := r) ?_
    have := hp.length_eq
    have := (hi.canonical r).length_eq
    omega

end fits

/-! ## Coefficients set and read (R165, R166) -/

theorem coeffAt_append_zeros (p : Poly) (k i : Nat) : coeffAt (p ++ List.replicate k fieldZero) i = coeffAt p i := by
  simp only [coeffAt, List.getD_eq_getElem?_getD]
  by_cases hi : i < p.length
  · rw [List.getElem?_append_left hi]
  · rw [List.getElem?_append_right (not_lt.mp hi), List.getElem?_eq_none (not_lt.mp hi), List.getElem?_replicate]
    split_ifs <;> rfl

/-- R165: one coefficient is set and every other keeps its value. -/
theorem coeffAt_setCoeff (p : Poly) (i : Nat) (v : Word) (j : Nat) :
    coeffAt (setCoeff p i v) j = if j = i then v else coeffAt p j := by
  have hlen : i < (p ++ List.replicate (i + 1 - p.length) fieldZero).length := by simp; omega
  split_ifs with h
  · subst h
    rw [setCoeff, coeffAt, List.getD_eq_getElem?_getD, List.getElem?_set_self hlen]
    rfl
  · rw [← coeffAt_append_zeros p (i + 1 - p.length) j, setCoeff, coeffAt, coeffAt, List.getD_eq_getElem?_getD,
      List.getElem?_set_ne (Ne.symm h), List.getD_eq_getElem?_getD]

/-- A coefficient set within the capacity, or to zero, keeps within it. -/
theorem setCoeff_fits {p : Poly} {m n : Nat} {v : Word} (hp : p.length ≤ m) (hm : 1 ≤ m) (h : n < m ∨ v = 0) :
    (canon (setCoeff p n v)).length ≤ m := by
  have hcanon := canon_canonical (setCoeff p n v)
  have hhigh : ∀ i, m ≤ i → coeffAt (canon (setCoeff p n v)) i = 0 := fun i hle => by
    rw [coeffAt_canon, coeffAt_setCoeff]
    split_ifs with hin
    · exact h.resolve_left (by omega)
    · exact coeffAt_of_length_le (hp.trans hle)
  obtain h0 | hlt := hcanon.eq_zero_or_deg_lt hhigh
  · rw [h0]
    exact hm
  · rwa [hcanon.length_eq]

/-- A nonzero coefficient set beyond the capacity exceeds it. -/
theorem setCoeff_exceeds (p : Poly) {m n : Nat} {v : Word} (hn : m ≤ n) (hv : v ≠ 0) :
    m < (canon (setCoeff p n v)).length := by
  have hset : coeffAt (canon (setCoeff p n v)) n ≠ 0 := by
    rwa [coeffAt_canon, coeffAt_setCoeff, if_pos rfl]
  have hle := le_deg_of_coeffAt_ne hset
  rw [(canon_canonical _).length_eq]
  omega

/-- Settles O37: the results are canonical and no longer than an operand, but for a coefficient set beyond the capacity. -/
theorem coefficientCommandsComplete : Obligations.CoefficientCommandsComplete := by
  refine fun s d a b n hi => ⟨⟨standsFor_of_encode_eq rfl rfl, ?_⟩, ⟨standsFor_of_encode_eq rfl rfl, ?_⟩,
    ⟨standsFor_of_encode_eq rfl rfl, ?_⟩, ⟨standsFor_of_encode_eq rfl rfl, rfl⟩, standsFor_of_encode_eq rfl rfl,
    fun hfit => ?_, fun ⟨hn, hv⟩ => ?_⟩
  · have hsum := pAdd_length_le (s.getP a) (s.getP b)
    have ha := hi.length_le a
    have hb := hi.length_le b
    have hmax := hi.maxCoef_ge
    exact putP_of_canonical rfl ⟨pAdd_canonical _ _, by omega⟩
  · have hderiv := pDeriv_length_le (s.getP a)
    exact putP_of_canonical rfl (hi.fits_of_length_le (pDeriv_canonical _) (r := a) (by omega))
  · exact putP_of_canonical rfl (hi.polys a)
  · have hlen := setCoeff_fits (hi.length_le d) (one_le_two.trans hi.maxCoef_ge) hfit
    refine ⟨_, ⟨canon_canonical _, hlen⟩, fun j => ?_, putP_of_fits rfl hlen⟩
    rw [coeffAt_canon, coeffAt_setCoeff]
  · exact putP_of_exceeds rfl (setCoeff_exceeds (s.getP d) hn hv)

/-! ## Products and powers (R156, R158) -/

theorem pPow_polyZero_length (e : Nat) : (pPow polyZero e).length = 1 := by
  cases e with
  | zero => rfl
  | succ e =>
    have h : toPolynomial (pPow polyZero (e + 1)) = 0 := by
      rw [toPolynomial_pPow, toPolynomial_polyZero, zero_pow e.succ_ne_zero]
    rw [(pPow_canonical _ _).toPolynomial_eq_zero.mp h]
    rfl

theorem execPpow_of_overflow {s : State} {d a b : Reg} (h : powOverflows s (s.getP a) (s.getF b).toNat = true) :
    execPpow d a b s = .next (errorEntry .capacityExceeded 0 s) := if_pos h

theorem execPpow_of_fits {s : State} {d a b : Reg} (h : ¬ powOverflows s (s.getP a) (s.getF b).toNat = true) :
    execPpow d a b s = putP s d (.ok (pPow (s.getP a) (s.getF b).toNat)) := if_neg h

theorem powOverflows_iff {s : State} {p : Poly} {e : Nat} :
    powOverflows s p e = true ↔ p ≠ polyZero ∧ s.params.maxCoef < e * deg p + 1 := by
  rw [powOverflows, Bool.and_eq_true, decide_eq_true_iff, decide_eq_true_iff]

/-- Settles O38: the length of a product or power of nonzero polynomials is the stated one, and with a zero operand it is 1. -/
theorem productCommandsComplete : Obligations.ProductCommandsComplete := by
  refine fun s d a b hi => ⟨standsFor_of_encode_eq rfl rfl, standsFor_of_encode_eq rfl rfl, fun h => ?_,
    fun ha hb hover => ?_, fun h => ?_, fun ha hover => execPpow_of_overflow (powOverflows_iff.mpr ⟨ha, hover⟩)⟩
  · refine putP_of_canonical rfl ⟨pMul_canonical _ _, ?_⟩
    obtain h0 | h0 | hlen := h
    · rw [h0, polyZero_pMul]
      exact hi.fits_polyZero.2
    · rw [h0, pMul_polyZero]
      exact hi.fits_polyZero.2
    · exact (pMul_length_le (hi.canonical a).ne_nil (hi.canonical b).ne_nil).trans hlen
  · refine putP_of_exceeds rfl ?_
    rw [pMul_canonical, pMul_length ⟨hi.canonical a, ha⟩ ⟨hi.canonical b, hb⟩]
    exact hover
  · have hfit : ¬ powOverflows s (s.getP a) (s.getF b).toNat = true := fun hover => by
      obtain ⟨ha, hover⟩ := powOverflows_iff.mp hover
      exact (h.resolve_left ha).not_gt hover
    refine (execPpow_of_fits hfit).trans (putP_of_canonical rfl ⟨pPow_canonical _ _, ?_⟩)
    by_cases ha : s.getP a = polyZero
    · rw [ha, pPow_polyZero_length]
      exact one_le_two.trans hi.maxCoef_ge
    · rw [pPow_length ⟨hi.canonical a, ha⟩]
      exact h.resolve_left ha

/-! ## Division and the modular power (R157, R159) -/

theorem wf_pdivmod_iff {d c a b : Reg} : (Instr.pdivmod d c a b).wf = true ↔ d ≠ c := by
  simp [Instr.wf]

theorem execPdivmod_of_ne {s : State} {d c a b : Reg} (h : d ≠ c) : execPdivmod d c a b s =
    finish s ((pDivmod (s.getP a) (s.getP b)).bind (writeQuotRem s d c)) := if_pos (wf_pdivmod_iff.mpr h)

/-- Both results of a division that fit are written. -/
theorem writeQuotRem_of_fits {s : State} {d c : Reg} {q r : Poly} (hq : FitsPolyReg s.params q)
    (hr : FitsPolyReg s.params r) : writeQuotRem s d c (q, r) = .ok ((s.setP d q).setP c r) := by
  have hwq : writeP s d q = .ok (s.setP d q) := writeP_eq_ok.mpr ⟨by rw [hq.1]; exact hq.2, by rw [hq.1]⟩
  have hwr : writeP (s.setP d q) c r = .ok ((s.setP d q).setP c r) :=
    writeP_eq_ok.mpr ⟨by rw [hr.1]; exact hr.2, by rw [hr.1]⟩
  rw [writeQuotRem, hwq]
  exact hwr

/-- Settles O39: the quotient is no longer than the dividend and a remainder shorter than the divisor, so both fit. -/
theorem divisionCommandsComplete : Obligations.DivisionCommandsComplete := by
  refine fun s d c a b hi => ⟨standsFor_of_encode_eq rfl rfl,
    fun hdc => standsFor_of_encode_eq rfl (wf_pdivmod_iff.mpr hdc), fun hdc hb => ?_, fun hdc hb => ?_, fun hc => ?_,
    fun hc => putP_of_error (hc ▸ pPowmod_polyZero _ _)⟩
  · obtain ⟨q, r, hdiv, hlen, h⟩ := pDivmod_quotRem (hi.canonical a) ⟨hi.canonical b, hb⟩
    have hq := hi.fits_of_length_le h.quot (r := a) (le_max_of_le_right hlen)
    have hwrite := writeQuotRem_of_fits (d := d) (c := c) hq (hi.fits_remainder h.rem h.small)
    refine ⟨q, r, h.identity, h.small, (execPdivmod_of_ne hdc).trans ?_⟩
    rw [hdiv]
    exact congrArg (finish s) hwrite
  · refine (execPdivmod_of_ne hdc).trans ?_
    rw [hb, pDivmod_polyZero]
    rfl
  · have hcn : NonzeroPoly (s.getP c) := ⟨hi.canonical c, hc⟩
    obtain ⟨r, hrem, hr, hsmall⟩ := rem_spec (pPow_canonical (s.getP a) (s.getF b).toNat) hcn
    exact ⟨r, hrem, putP_of_canonical ((pPowmod_eq_rem (hi.canonical a) hcn _).trans hrem)
      (hi.fits_remainder hr hsmall)⟩

/-! ## The square root, the monic form and the greatest common divisor (R152 to R154, R161 to R163) -/

theorem any_oddCoeffs_iff (p : Poly) :
    (oddCoeffs p).any (fun c => c != 0) = true ↔ ∃ i, i % 2 = 1 ∧ coeffAt p i ≠ 0 := by
  rw [List.any_eq_true]
  constructor
  · rintro ⟨c, hc, hne⟩
    obtain ⟨k, hk, rfl⟩ := List.mem_iff_getElem.mp hc
    refine ⟨2 * k + 1, by omega, ?_⟩
    rw [← coeffAt_oddCoeffs, coeffAt_of_lt hk]
    exact bne_iff_ne.mp hne
  · rintro ⟨i, hi, hne⟩
    obtain ⟨k, rfl⟩ : ∃ k, i = 2 * k + 1 := ⟨i / 2, by omega⟩
    rw [← coeffAt_oddCoeffs] at hne
    have hk : k < (oddCoeffs p).length := not_le.mp fun hle => hne (coeffAt_of_length_le hle)
    exact ⟨_, List.getElem_mem hk, bne_iff_ne.mpr (coeffAt_of_lt hk ▸ hne)⟩

theorem pSqrt_of_odd {p : Poly} (h : ∃ i, i % 2 = 1 ∧ coeffAt p i ≠ 0) : pSqrt p = .error .preconditionViolation :=
  if_pos ((any_oddCoeffs_iff p).mpr h)

theorem pSqrt_of_even {p : Poly} (h : ∀ i, i % 2 = 1 → coeffAt p i = 0) :
    pSqrt p = .ok (canon ((evenCoeffs p).map feSqrt)) :=
  if_neg fun hodd => by
    obtain ⟨i, hi, hne⟩ := (any_oddCoeffs_iff p).mp hodd
    exact hne (h i hi)

/-- The square of a polynomial: the squares of the coefficients at the even positions, by the Frobenius map. -/
theorem coeffAt_pMul_self (r : Poly) (i : Nat) :
    coeffAt (pMul r r) i = if i % 2 = 0 then feMul (coeffAt r (i / 2)) (coeffAt r (i / 2)) else 0 := by
  have := field_isDomain
  have := field_charTwo
  have hsquare : toPolynomial (pMul r r) =
      Polynomial.map (frobenius _ 2) (Polynomial.expand _ 2 (toPolynomial r)) := by
    rw [toPolynomial_pMul, Polynomial.map_frobenius_expand, pow_two]
  refine toField_injective ?_
  rw [← toPolynomial_coeff, hsquare, Polynomial.coeff_map, Polynomial.coeff_expand Nat.two_pos, toPolynomial_coeff,
    if_congr (by omega : 2 ∣ i ↔ i % 2 = 0) rfl rfl]
  split_ifs
  · rw [toField_feMul, frobenius_def, pow_two]
  · rw [map_zero, toField_zero]

/-- R152: the square of the root. -/
theorem pMul_pSqrt_self {p r : Poly} (hp : Canonical p) (h : ∀ i, i % 2 = 1 → coeffAt p i = 0)
    (hr : pSqrt p = .ok r) : pMul r r = p := by
  obtain rfl : canon ((evenCoeffs p).map feSqrt) = r := by simpa using (pSqrt_of_even h).symm.trans hr
  refine (pMul_canonical _ _).eq_of_coeffAt hp fun i => ?_
  rw [coeffAt_pMul_self, coeffAt_canon, coeffAt_map feSqrt_zero, coeffAt_evenCoeffs, feMul_feSqrt_self]
  split_ifs with heven
  · congr 1; omega
  · exact (h i (by omega)).symm

/-- R153: the monic form is the polynomial times the inverse of its leading coefficient. -/
theorem pMonic_eq_map {p : Poly} (hp : NonzeroPoly p) : ∃ v, feMul (lc p) v = fieldOne ∧
    pMonic p = .ok (p.map fun c => feMul c v) ∧ MonicPoly (p.map fun c => feMul c v) := by
  obtain ⟨r, hr, hmonic, hdeg, v, hv⟩ := pMonic_spec hp
  have hlen : r.length = (p.map fun c => feMul c v).length := by
    rw [List.length_map, hmonic.canonical.length_eq, hp.canonical.length_eq, hdeg]
  obtain rfl : r = p.map fun c => feMul c v :=
    eq_of_length_of_coeffAt hlen fun i => by rw [hv, coeffAt_map (zero_feMul v)]
  refine ⟨v, ?_, hr, hmonic⟩
  rw [lc_eq_coeffAt, ← hv, ← hdeg, ← lc_eq_coeffAt, hmonic.lc]

/-- Settles O40: each result is canonical and no longer than an operand, and each error is that of its function. -/
theorem rootMonicAndGcdCommandsComplete : Obligations.RootMonicAndGcdCommandsComplete := by
  refine fun s d a b hi => ⟨standsFor_of_encode_eq rfl rfl, standsFor_of_encode_eq rfl rfl,
    standsFor_of_encode_eq rfl rfl, fun heven => ?_, fun hodd => putP_of_error (pSqrt_of_odd hodd), fun ha => ?_,
    fun ha => putP_of_error (ha ▸ pMonic_polyZero), fun hab => ?_,
    fun ha hb => putP_of_error (by rw [ha, hb, pGcd_polyZero_polyZero])⟩
  · have hroot := pSqrt_of_even heven
    obtain ⟨hr, hlen⟩ := pSqrt_ok (hi.canonical a) hroot
    exact ⟨_, pMul_pSqrt_self (hi.canonical a) heven hroot,
      putP_of_canonical hroot (hi.fits_of_length_le hr (le_max_of_le_right hlen))⟩
  · obtain ⟨v, hv, hq, hmonic⟩ := pMonic_eq_map ⟨hi.canonical a, ha⟩
    obtain ⟨hc, hlen⟩ := pMonic_ok (hi.canonical a) hq
    exact ⟨_, v, hv, rfl, (isMonic_iff _).mpr hmonic.lc,
      putP_of_canonical hq (hi.fits_of_length_le hc (le_max_of_le_right hlen))⟩
  · obtain ⟨g, hg, hmonic, hga, hgb⟩ := pGcd_spec (hi.canonical a) (hi.canonical b) hab
    refine ⟨g, hg, (isMonic_iff g).mpr hmonic.lc, putP_of_canonical hg ⟨hmonic.canonical, ?_⟩⟩
    have hdeg : deg g ≤ max (deg (s.getP a)) (deg (s.getP b)) :=
      hab.elim (fun ha => le_max_of_le_left (hga ha)) fun hb => le_max_of_le_right (hgb hb)
    have hda := hi.deg_lt a
    have hdb := hi.deg_lt b
    have hlen := hmonic.canonical.length_eq
    omega

end Sys2Proof.Machine
end

section
/-! Register words are all of the field GF(2^128), and canonical sequences all of its polynomials: exact division, coprimality, monic and irreducible polynomials (R144, R148, R154, R191), and evaluation (R260), as those of polynomials over the field. -/

namespace Sys2Proof.Machine

/-! ## Words are the whole field -/

theorem field_natCard : Nat.card (AdjoinRoot fieldModulus) = 2 ^ 128 := by
  have hfinite : Module.Finite (ZMod 2) (AdjoinRoot fieldModulus) :=
    (AdjoinRoot.powerBasis fieldModulus_ne_zero).finite
  rw [Module.natCard_eq_pow_finrank (K := ZMod 2), Nat.card_zmod,
    (AdjoinRoot.powerBasis fieldModulus_ne_zero).finrank, AdjoinRoot.powerBasis_dim, fieldModulus_natDegree]

theorem field_finite : Finite (AdjoinRoot fieldModulus) :=
  Nat.finite_of_card_ne_zero (field_natCard ▸ by positivity)

theorem toField_surjective : Function.Surjective toField := by
  have := field_finite
  have hcard : Nat.card Word = Nat.card (AdjoinRoot fieldModulus) := by
    rw [field_natCard, Nat.card_congr (BitVec.equivFin (m := 128)).toEquiv, Nat.card_fin]
  exact (toField_injective.bijective_of_nat_card_le hcard.ge).2

theorem exists_canonical_toPolynomial (F : Polynomial (AdjoinRoot fieldModulus)) :
    ∃ p : Poly, Canonical p ∧ toPolynomial p = F := by
  choose w hw using fun i => toField_surjective (F.coeff i)
  refine ⟨canon ((List.range (F.natDegree + 1)).map w), canon_canonical _, ?_⟩
  ext i
  rw [toPolynomial_canon, toPolynomial_coeff]
  by_cases hi : i < F.natDegree + 1
  · rw [← hw i, coeffAt_of_lt (by simpa using hi), List.getElem_map, List.getElem_range]
  · rw [coeffAt_of_length_le (by simpa using hi), toField_zero, Polynomial.coeff_eq_zero_of_natDegree_lt (by omega)]

/-! ## Products and exact quotients (R147, R148) -/

@[simp] theorem toPolynomial_polyX : toPolynomial polyX = Polynomial.X := by
  have hcons : toPolynomial polyX = Polynomial.C (toField 0) + Polynomial.X * toPolynomial polyOne := rfl
  rw [hcons, toField_zero, map_zero, zero_add, toPolynomial_polyOne, mul_one]

theorem pMul_eq_iff {u v w : Poly} (hw : Canonical w) :
    pMul u v = w ↔ toPolynomial u * toPolynomial v = toPolynomial w :=
  ⟨fun h => by rw [← h, toPolynomial_pMul],
    fun h => (pMul_canonical u v).eq_of_toPolynomial hw ((toPolynomial_pMul u v).trans h)⟩

/-- The quotient by a divisor times the divisor is the dividend. -/
theorem quo_of_dvd {u v : Poly} (hu : NonzeroPoly u) (hv : NonzeroPoly v) (h : toPolynomial v ∣ toPolynomial u) :
    ∃ q, quo u v = .ok q ∧ NonzeroPoly q ∧ pMul q v = u := by
  obtain ⟨q, r, hdiv, -, hqr⟩ := pDivmod_quotRem hu.canonical hv
  have hr : r = polyZero := by
    have hrem : rem u v = .ok r := by rw [rem, hdiv]; rfl
    exact Except.ok.inj (hrem.symm.trans ((rem_eq_zero_iff hu.canonical hv).mpr h))
  have hmul : pMul q v = u := by
    rw [pMul_eq_iff hu.canonical, ← hqr.toPolynomial_eq, hr, toPolynomial_polyZero, add_zero]
  refine ⟨q, by rw [quo, hdiv]; rfl, ⟨hqr.quot, fun hq => hu.ne_zero ?_⟩, hmul⟩
  rw [← hmul, hq, polyZero_pMul]

theorem NonzeroPoly.deg_pos_iff {p : Poly} (hp : NonzeroPoly p) :
    1 ≤ deg p ↔ ¬ IsUnit (toPolynomial p) := by
  have : Fact (Irreducible fieldModulus) := ⟨fieldModulus_irreducible⟩
  rw [Polynomial.isUnit_iff_degree_eq_zero, hp.degree_eq]
  norm_cast
  omega

theorem NonzeroPoly.deg_le_of_dvd {u v : Poly} (hu : NonzeroPoly u) (hv : NonzeroPoly v)
    (h : toPolynomial v ∣ toPolynomial u) : deg v ≤ deg u := by
  have := field_isDomain
  rw [← hu.natDegree_eq, ← hv.natDegree_eq]
  exact Polynomial.natDegree_le_of_dvd h hu.toPolynomial_ne_zero

/-! ## Monic polynomials (R144) -/

theorem NonzeroPoly.monicPoly_iff {p : Poly} (hp : NonzeroPoly p) : MonicPoly p ↔ (toPolynomial p).Monic := by
  refine ⟨fun h => h.toPolynomial_monic, fun h => ⟨hp.canonical, toField_injective ?_⟩⟩
  rw [← hp.leadingCoeff_eq, h.leadingCoeff, toField_one]

theorem monicPoly_of_isMonic {p : Poly} (hp : Canonical p) (h : isMonic p = true) : MonicPoly p :=
  ⟨hp, (isMonic_iff p).mp h⟩

theorem MonicPoly.isMonic {p : Poly} (h : MonicPoly p) : isMonic p = true := (isMonic_iff p).mpr h.lc

/-- The co-factor of a monic divisor of a monic polynomial is monic. -/
theorem MonicPoly.cofactor {q v u : Poly} (hu : MonicPoly u) (hv : MonicPoly v) (hq : NonzeroPoly q)
    (h : pMul q v = u) : MonicPoly q := by
  refine hq.monicPoly_iff.mpr (hv.toPolynomial_monic.of_mul_monic_right ?_)
  rw [← toPolynomial_pMul, h]
  exact hu.toPolynomial_monic

/-! ## Common divisors (R154) -/

/-- The greatest common divisor depends on the common divisors alone. -/
theorem pGcd_eq_of_divisors {u v u' v' : Poly} (hu : Canonical u) (hv : Canonical v) (hu' : Canonical u')
    (hv' : Canonical v') (hne : u ≠ polyZero ∨ v ≠ polyZero) (hne' : u' ≠ polyZero ∨ v' ≠ polyZero)
    (h : ∀ d, d ∣ toPolynomial u ∧ d ∣ toPolynomial v ↔ d ∣ toPolynomial u' ∧ d ∣ toPolynomial v') :
    pGcd u v = pGcd u' v' := by
  obtain ⟨g, hg, hgm, hgd⟩ := pGcd_divisors hu hv hne
  obtain ⟨f, hf, hfm, hfd⟩ := pGcd_divisors hu' hv' hne'
  rw [hg, hf, hgm.eq_of_divisors hfm fun d => by rw [hgd, h, hfd]]

theorem pGcd_eq_polyOne_iff {u v : Poly} (hu : Canonical u) (hv : Canonical v) (hne : u ≠ polyZero ∨ v ≠ polyZero) :
    pGcd u v = .ok polyOne ↔ IsCoprime (toPolynomial u) (toPolynomial v) := by
  have : Fact (Irreducible fieldModulus) := ⟨fieldModulus_irreducible⟩
  obtain ⟨g, hg, hmonic, hdvd⟩ := pGcd_divisors hu hv hne
  rw [hg, ← isRelPrime_iff_isCoprime]
  constructor
  · intro h d hdu hdv
    obtain rfl : g = polyOne := Except.ok.inj h
    have hd1 := (hdvd d).mpr ⟨hdu, hdv⟩
    rw [toPolynomial_polyOne] at hd1
    exact isUnit_of_dvd_one hd1
  · intro h
    have hunit : IsUnit (toPolynomial g) := h ((hdvd _).mp dvd_rfl).1 ((hdvd _).mp dvd_rfl).2
    have hdeg : ¬ 1 ≤ deg g := fun hd => hmonic.nonzero.deg_pos_iff.mp hd hunit
    rw [hmonic.eq_polyOne (by omega)]

/-! ## Irreducible polynomials (R191) -/

theorem NonzeroPoly.irreduciblePoly_iff {p : Poly} (hp : NonzeroPoly p) :
    IrreduciblePoly p ↔ Irreducible (toPolynomial p) := by
  have := field_isDomain
  have hparts : ∀ u v, pMul u v = p → Canonical u → Canonical v → NonzeroPoly u ∧ NonzeroPoly v := by
    rintro u v rfl hu hv
    exact ⟨⟨hu, fun h => hp.ne_zero (by rw [h, polyZero_pMul])⟩,
      ⟨hv, fun h => hp.ne_zero (by rw [h, pMul_polyZero])⟩⟩
  have hunit : ∀ {u : Poly}, NonzeroPoly u → (deg u = 0 ↔ IsUnit (toPolynomial u)) := fun hu => by
    rw [← not_iff_not, ← hu.deg_pos_iff]
    omega
  constructor
  · rintro ⟨hdeg, hprod⟩
    refine ⟨hp.deg_pos_iff.mp hdeg, fun A B hAB => ?_⟩
    obtain ⟨u, hu, rfl⟩ := exists_canonical_toPolynomial A
    obtain ⟨v, hv, rfl⟩ := exists_canonical_toPolynomial B
    have hmul := (pMul_eq_iff hp.canonical).mpr hAB.symm
    obtain ⟨hun, hvn⟩ := hparts u v hmul hu hv
    exact (hprod u v hu hv hmul).imp (hunit hun).mp (hunit hvn).mp
  · intro h
    refine ⟨hp.deg_pos_iff.mpr h.not_isUnit, fun u v hu hv hmul => ?_⟩
    obtain ⟨hun, hvn⟩ := hparts u v hmul hu hv
    exact (h.isUnit_or_isUnit ((pMul_eq_iff hp.canonical).mp hmul).symm).imp (hunit hun).mpr (hunit hvn).mpr

/-- A polynomial of degree 1 is irreducible. -/
theorem irreduciblePoly_of_deg_one {p : Poly} (hp : Canonical p) (hd : deg p = 1) : IrreduciblePoly p := by
  have : Fact (Irreducible fieldModulus) := ⟨fieldModulus_irreducible⟩
  have hn := nonzero_of_deg_pos hp hd.ge
  exact hn.irreduciblePoly_iff.mpr (Polynomial.irreducible_of_degree_eq_one (by rw [hn.degree_eq, hd]; rfl))

/-! ## Evaluation (R260) -/

theorem toField_evalAt (x : Word) (p : Poly) : toField (evalAt x p) = (toPolynomial p).eval (toField x) := by
  induction p with
  | nil => exact toField_zero.trans Polynomial.eval_zero.symm
  | cons c p ih =>
    have hcons : evalAt x (c :: p) = feAdd c (feMul x (evalAt x p)) := rfl
    rw [hcons, toField_feAdd, toField_feMul, ih, toPolynomial, Polynomial.eval_add, Polynomial.eval_C,
      Polynomial.eval_mul, Polynomial.eval_X]

theorem evalAt_eq_zero_iff (x : Word) (p : Poly) : evalAt x p = 0 ↔ (toPolynomial p).IsRoot (toField x) := by
  rw [← toField_eq_zero, toField_evalAt, Polynomial.IsRoot]

/-- The root of a monic linear polynomial is its constant coefficient (R193). -/
theorem evalAt_linear_iff {p : Poly} (hp : MonicPoly p) (hd : deg p = 1) (x : Word) :
    evalAt x p = 0 ↔ x = coeffAt p 0 := by
  have := field_isDomain
  have := field_charTwo
  have hone : (toPolynomial p).coeff 1 = 1 := by
    rw [toPolynomial_coeff, ← hd, ← lc_eq_coeffAt, hp.lc, toField_one]
  have hlin : toPolynomial p = Polynomial.X + Polynomial.C (toField (coeffAt p 0)) := by
    rw [Polynomial.eq_X_add_C_of_natDegree_le_one ((toPolynomial_natDegree_le p).trans hd.le), hone, toPolynomial_coeff,
      map_one, one_mul]
  rw [evalAt_eq_zero_iff, hlin, Polynomial.IsRoot, Polynomial.eval_add, Polynomial.eval_X, Polynomial.eval_C,
    CharTwo.add_eq_zero, toField_injective.eq_iff]

end Sys2Proof.Machine
end

section
/-! The square-free stage (R190, R195, R203). Over the perfect field GF(2^128) every f is A^2 + X B^2 with f' = B^2, so its greatest common divisor with its derivative is a square and the co-factor is square-free: a level's loop emits at most one part. -/

namespace Sys2Proof.Machine

/-! ## The split of a polynomial in characteristic two -/

theorem exists_coprime_cofactors {R : Type*} [EuclideanDomain R] {a b : R} (h : a ≠ 0 ∨ b ≠ 0) :
    ∃ d a' b', d ≠ 0 ∧ a = d * a' ∧ b = d * b' ∧ IsCoprime a' b' := by
  classical
  have hgcd : EuclideanDomain.gcd a b ≠ 0 := fun hzero => by
    obtain ⟨ha, hb⟩ := EuclideanDomain.gcd_eq_zero_iff.mp hzero
    exact h.elim (fun h => h ha) fun h => h hb
  obtain ⟨a', ha⟩ := EuclideanDomain.gcd_dvd_left a b
  obtain ⟨b', hb⟩ := EuclideanDomain.gcd_dvd_right a b
  have hbezout := EuclideanDomain.gcd_eq_gcd_ab a b
  refine ⟨_, a', b', hgcd, ha, hb, EuclideanDomain.gcdA a b, EuclideanDomain.gcdB a b, mul_left_cancel₀ hgcd ?_⟩
  linear_combination EuclideanDomain.gcdA a b * -ha + EuclideanDomain.gcdB a b * -hb - hbezout

/-- A common divisor `c` of `a x` and `a y` that every common divisor divides is `a` up to a unit, when `x` and `y` are coprime. -/
theorem associated_of_coprime_cofactors {R : Type*} [CommRing R] [IsDomain R] {a x y c : R} (h : IsCoprime x y)
    (hc : ∀ d, d ∣ c ↔ d ∣ a * x ∧ d ∣ a * y) : Associated a c := by
  obtain ⟨hcx, hcy⟩ := (hc c).mp dvd_rfl
  obtain ⟨r, s, hrs⟩ := h
  have hcomb : r * (a * x) + s * (a * y) = a := by linear_combination a * hrs
  exact associated_of_dvd_dvd ((hc a).mpr ⟨dvd_mul_right a x, dvd_mul_right a y⟩)
    (hcomb ▸ (hcx.mul_left r).add (hcy.mul_left s))

section split
variable {K : Type*} [Field K] [CharP K 2]

theorem derivative_evenOdd (A B : Polynomial K) : Polynomial.derivative (A ^ 2 + Polynomial.X * B ^ 2) = B ^ 2 := by
  have htwo : (Polynomial.C 2 : Polynomial K) = 0 := by rw [CharTwo.two_eq_zero, map_zero]
  rw [Polynomial.derivative_add, Polynomial.derivative_mul, Polynomial.derivative_X, Polynomial.derivative_sq,
    Polynomial.derivative_sq, htwo]
  ring

/-- A coprime A and B make A^2 + X B^2 separable. -/
theorem separable_evenOdd {A B : Polynomial K} (h : IsCoprime A B) : (A ^ 2 + Polynomial.X * B ^ 2).Separable := by
  rw [Polynomial.separable_def, derivative_evenOdd]
  exact (h.pow (m := 2) (n := 2)).add_mul_right_left Polynomial.X

/-- The greatest common divisor `c` of f = A^2 + X B^2 and f' = B^2 has a vanishing derivative, and its co-factor is separable. -/
theorem evenOdd_split {A B c g : Polynomial K} (h0 : A ^ 2 + Polynomial.X * B ^ 2 ≠ 0)
    (hg : g * c = A ^ 2 + Polynomial.X * B ^ 2)
    (hc : ∀ d, d ∣ c ↔ d ∣ A ^ 2 + Polynomial.X * B ^ 2 ∧ d ∣ B ^ 2) :
    Polynomial.derivative c = 0 ∧ g.Separable := by
  have hAB : A ≠ 0 ∨ B ≠ 0 := by
    by_contra h
    push Not at h
    obtain ⟨rfl, rfl⟩ := h
    simp at h0
  obtain ⟨D, A₁, B₁, hD, rfl, rfl, hcop⟩ := exists_coprime_cofactors hAB
  have hsep := separable_evenOdd hcop
  have hfactor : (D * A₁) ^ 2 + Polynomial.X * (D * B₁) ^ 2 = D ^ 2 * (A₁ ^ 2 + Polynomial.X * B₁ ^ 2) := by ring
  have hcopart := hsep
  rw [Polynomial.separable_def, derivative_evenOdd] at hcopart
  obtain ⟨u, rfl⟩ := associated_of_coprime_cofactors hcopart fun d => by rw [hc, hfactor, mul_pow D B₁]
  constructor
  · obtain ⟨k, -, hk⟩ := Polynomial.isUnit_iff.mp u.isUnit
    have hsquare := derivative_evenOdd D 0
    rw [zero_pow two_ne_zero, mul_zero, add_zero] at hsquare
    rw [← hk, mul_comm, Polynomial.derivative_C_mul, hsquare, mul_zero]
  · have hgu : g * (u : Polynomial K) = A₁ ^ 2 + Polynomial.X * B₁ ^ 2 :=
      mul_left_cancel₀ (pow_ne_zero 2 hD) (by linear_combination hg)
    exact Polynomial.Separable.of_mul_left (hgu ▸ hsep)

end split

/-! ## Derivatives and square roots of canonical sequences (R151, R152) -/

/-- R151: the formal derivative. -/
@[simp] theorem toPolynomial_pDeriv (p : Poly) :
    toPolynomial (pDeriv p) = Polynomial.derivative (toPolynomial p) := by
  have := field_charTwo
  ext i
  rw [toPolynomial_coeff, coeffAt_pDeriv, Polynomial.coeff_derivative, toPolynomial_coeff]
  split_ifs with h
  · have hi : (i : AdjoinRoot fieldModulus) = 0 := (CharP.cast_eq_zero_iff _ 2 i).mpr (Nat.dvd_of_mod_eq_zero h)
    rw [hi, zero_add, mul_one]
  · have hi : ((i + 1 : ℕ) : AdjoinRoot fieldModulus) = 0 := (CharP.cast_eq_zero_iff _ 2 _).mpr (by omega)
    rw [toField_zero, ← Nat.cast_succ, hi, mul_zero]

theorem pDeriv_pDeriv (p : Poly) : pDeriv (pDeriv p) = polyZero := by
  rw [pDeriv_eq_polyZero_iff]
  intro i hi
  rw [coeffAt_pDeriv, if_neg (by omega)]

/-- R152: a polynomial whose derivative vanishes is a square. -/
theorem pSqrt_of_pDeriv_eq_zero {p : Poly} (hp : Canonical p) (h : pDeriv p = polyZero) :
    ∃ r, pSqrt p = .ok r ∧ pMul r r = p := by
  have heven := (pDeriv_eq_polyZero_iff p).mp h
  exact ⟨_, pSqrt_of_even heven, pMul_pSqrt_self hp heven (pSqrt_of_even heven)⟩

/-- The derivative is a square, and so is what is left of f without X f'. -/
theorem exists_evenOdd (p : Poly) : ∃ A B : Polynomial (AdjoinRoot fieldModulus),
    toPolynomial p = A ^ 2 + Polynomial.X * B ^ 2 ∧ Polynomial.derivative (toPolynomial p) = B ^ 2 := by
  have := field_charTwo
  have hrest : pDeriv (pAdd p (pMul polyX (pDeriv p))) = polyZero := by
    rw [← (pDeriv_canonical _).toPolynomial_eq_zero]
    have h2 := congrArg toPolynomial (pDeriv_pDeriv p)
    rw [toPolynomial_pDeriv, toPolynomial_pDeriv, toPolynomial_polyZero] at h2
    rw [toPolynomial_pDeriv, toPolynomial_pAdd, toPolynomial_pMul, toPolynomial_polyX, toPolynomial_pDeriv,
      Polynomial.derivative_add, Polynomial.derivative_mul, Polynomial.derivative_X, h2, one_mul, mul_zero, add_zero,
      CharTwo.add_self_eq_zero]
  obtain ⟨a, -, ha⟩ := pSqrt_of_pDeriv_eq_zero (pAdd_canonical _ _) hrest
  obtain ⟨b, -, hb⟩ := pSqrt_of_pDeriv_eq_zero (pDeriv_canonical p) (pDeriv_pDeriv p)
  have ha' := congrArg toPolynomial ha
  have hb' := congrArg toPolynomial hb
  rw [toPolynomial_pMul, toPolynomial_pAdd, toPolynomial_pMul, toPolynomial_polyX] at ha'
  rw [toPolynomial_pMul] at hb'
  have htwice := CharTwo.add_self_eq_zero (Polynomial.X * toPolynomial (pDeriv p))
  refine ⟨toPolynomial a, toPolynomial b, ?_, by rw [← toPolynomial_pDeriv, ← hb', pow_two]⟩
  linear_combination -htwice - ha' - Polynomial.X * hb'

theorem squareFree_iff {p : Poly} (hp : NonzeroPoly p) : SquareFree p ↔ (toPolynomial p).Separable := by
  rw [SquareFree, pGcd_eq_polyOne_iff hp.canonical (pDeriv_canonical p) (.inl hp.ne_zero), toPolynomial_pDeriv,
    Polynomial.separable_def]

/-! ## A level of the square-free stage (R190) -/

/-- R190: the greatest common divisor with the derivative is a square, and its co-factor is square-free. -/
theorem squareFreePart_spec {f : Poly} (hf : NonzeroPoly f) :
    ∃ c g, pGcd f (pDeriv f) = .ok c ∧ quo f c = .ok g ∧ MonicPoly c ∧ pDeriv c = polyZero ∧
      NonzeroPoly g ∧ SquareFree g ∧ pMul g c = f := by
  have : Fact (Irreducible fieldModulus) := ⟨fieldModulus_irreducible⟩
  have := field_charTwo
  obtain ⟨c, hc, hmonic, hdvd⟩ := pGcd_divisors hf.canonical (pDeriv_canonical f) (.inl hf.ne_zero)
  obtain ⟨g, hg, hgn, hmul⟩ := quo_of_dvd hf hmonic.nonzero ((hdvd _).mp dvd_rfl).1
  obtain ⟨A, B, hAB, hB⟩ := exists_evenOdd f
  obtain ⟨hderiv, hsep⟩ := evenOdd_split (hAB ▸ hf.toPolynomial_ne_zero)
    (((pMul_eq_iff hf.canonical).mp hmul).trans hAB) fun d => by rw [hdvd, toPolynomial_pDeriv, hB, hAB]
  refine ⟨c, g, hc, hg, hmonic, ?_, hgn, (squareFree_iff hgn).mpr hsep, hmul⟩
  rwa [← (pDeriv_canonical c).toPolynomial_eq_zero, toPolynomial_pDeriv]

@[simp] theorem toPolynomial_productOf (z : Factors) :
    toPolynomial (productOf z) = (z.map fun e => toPolynomial e.1 ^ e.2).prod := by
  induction z with
  | nil => exact toPolynomial_polyOne
  | cons e z ih =>
    have hcons : productOf (e :: z) = pMul (pPow e.1 e.2) (productOf z) := rfl
    rw [hcons, toPolynomial_pMul, toPolynomial_pPow, ih, List.map_cons, List.prod_cons]

theorem productOf_canonical (z : Factors) : Canonical (productOf z) := by
  cases z with
  | nil => exact canonical_polyOne
  | cons e z => exact pMul_canonical _ _

/-- What the loop of a level emits for `f`: nothing, or a square-free part with exponent 1. -/
structure SquareFreeLevel (f : Poly) (w : Factors) : Prop where
  exponent : ∀ e ∈ w, e.2 = 1
  length_le : w.length ≤ 1
  entry : ∀ e ∈ w, NonzeroPoly e.1 ∧ SquareFree e.1
  monic : MonicPoly f → ∀ e ∈ w, MonicPoly e.1 ∧ 1 ≤ deg e.1

theorem sffLoop_level {f : Poly} (hf : NonzeroPoly f) (n : Nat) :
    ∃ w c, sffLoop (n + 1) f 1 [] = .ok (w, c) ∧ MonicPoly c ∧ pDeriv c = polyZero ∧
      pMul (productOf w) c = f ∧ SquareFreeLevel f w := by
  obtain ⟨c, g, hc, hg, hmonic, hderiv, hgn, hfree, hmul⟩ := squareFreePart_spec hf
  by_cases hfc : f = c
  · subst hfc
    refine ⟨[], f, sffLoop_stop n hc, hmonic, hderiv, ?_, by simp, by simp, by simp, by simp⟩
    rw [pMul_eq_iff hf.canonical, toPolynomial_productOf, List.map_nil, List.prod_nil, one_mul]
  · have hloop : sffLoop (n + 1) f 1 [] = .ok ([(g, 1)], c) := by
      rw [sffLoop_round n hc hfc hg, List.nil_append]
      exact sffLoop_monic_stop hmonic hderiv n 2 _
    refine ⟨[(g, 1)], c, hloop, hmonic, hderiv, ?_, by simp, by simp, by simpa using ⟨hgn, hfree⟩, fun hfm => ?_⟩
    · rw [pMul_eq_iff hf.canonical, toPolynomial_productOf, List.map_singleton, List.prod_singleton, pow_one,
        (pMul_eq_iff hf.canonical).mp hmul]
    · have hgm := hfm.cofactor hmonic hgn hmul
      have hpos : 1 ≤ deg g := by
        by_contra hd
        rw [hgm.eq_polyOne (by omega), pMul_eq_iff hf.canonical, toPolynomial_polyOne, one_mul] at hmul
        exact hfc (hf.canonical.eq_of_toPolynomial hmonic.canonical hmul.symm)
      simpa using ⟨hgm, hpos⟩

/-! ## The levels (R190, R203) -/

/-- R203: a square-free factorization of `f`, in the order of emission. -/
structure SquareFreeList (f : Poly) (z : Factors) : Prop where
  product : productOf z = f
  entry : ∀ e ∈ z, NonzeroPoly e.1 ∧ SquareFree e.1
  exponent : ∀ e ∈ z, ∃ k, e.2 = 2 ^ k
  rising : z.Pairwise fun x y => x.2 < y.2
  monic : MonicPoly f → ∀ e ∈ z, MonicPoly e.1 ∧ 1 ≤ deg e.1

theorem SquareFreeLevel.rising {f : Poly} {w : Factors} (h : SquareFreeLevel f w) :
    w.Pairwise fun x y => x.2 < y.2 := by
  have hlen := h.length_le
  match w, hlen with
  | [], _ => exact .nil
  | [e], _ => exact List.pairwise_singleton _ e

/-- A level that leaves one is a square-free factorization. -/
theorem SquareFreeLevel.last {f : Poly} (hf : Canonical f) {w : Factors} (h : SquareFreeLevel f w)
    (hprod : pMul (productOf w) polyOne = f) : SquareFreeList f w where
  product := by
    rw [pMul_eq_iff hf, toPolynomial_polyOne, mul_one] at hprod
    exact (productOf_canonical w).eq_of_toPolynomial hf hprod
  entry := h.entry
  exponent e he := ⟨0, h.exponent e he⟩
  rising := h.rising
  monic := h.monic

/-- A level that leaves the square of a factored monic polynomial: its list, and the other with exponents doubled. -/
theorem SquareFreeLevel.append {f c r : Poly} (hf : Canonical f) {w t : Factors} (h : SquareFreeLevel f w)
    (hprod : pMul (productOf w) c = f) (hc : pMul r r = c) (hr : MonicPoly r) (ht : SquareFreeList r t) :
    SquareFreeList f (w ++ t.map fun e => (e.1, 2 * e.2)) where
  product := by
    refine (productOf_canonical _).eq_of_toPolynomial hf ?_
    rw [← hprod, ← hc, ← ht.product, toPolynomial_pMul, toPolynomial_pMul, toPolynomial_productOf,
      toPolynomial_productOf, toPolynomial_productOf, List.map_append, List.prod_append, List.map_map,
      ← List.prod_map_mul]
    simp only [Function.comp_def, two_mul, pow_add]
  entry e he := by
    rcases List.mem_append.mp he with he | he
    · exact h.entry e he
    · obtain ⟨x, hx, rfl⟩ := List.mem_map.mp he
      exact ht.entry x hx
  exponent e he := by
    rcases List.mem_append.mp he with he | he
    · exact ⟨0, h.exponent e he⟩
    · obtain ⟨x, hx, rfl⟩ := List.mem_map.mp he
      obtain ⟨k, hk⟩ := ht.exponent x hx
      exact ⟨k + 1, by rw [pow_succ', ← hk]⟩
  rising := by
    refine List.pairwise_append.mpr ⟨h.rising, List.pairwise_map.mpr (ht.rising.imp fun hlt => ?_), fun x hx y hy => ?_⟩
    · simpa using hlt
    · obtain ⟨e, he, rfl⟩ := List.mem_map.mp hy
      obtain ⟨k, hk⟩ := ht.exponent e he
      have hpos : 0 < 2 ^ k := by positivity
      rw [h.exponent x hx]
      show 1 < 2 * e.2
      omega
  monic hfm e he := by
    rcases List.mem_append.mp he with he | he
    · exact h.monic hfm e he
    · obtain ⟨x, hx, rfl⟩ := List.mem_map.mp he
      exact ht.monic hr x hx

theorem sffLevels_spec (n : Nat) {f : Poly} (hf : NonzeroPoly f) (hn : deg f < n) :
    ∃ z, sffLevels n f = .ok z ∧ SquareFreeList f z := by
  induction n generalizing f with
  | zero => omega
  | succ n ih =>
    obtain ⟨w, c, hloop, hmonic, hderiv, hprod, hlevel⟩ := sffLoop_level hf f.length
    by_cases hc : c = polyOne
    · subst hc
      exact ⟨w, sffLevels_last n hloop, hlevel.last hf.canonical hprod⟩
    · obtain ⟨r, hr, hsq⟩ := pSqrt_of_pDeriv_eq_zero hmonic.canonical hderiv
      obtain ⟨hrm, hdeg⟩ := pSqrt_monic hmonic hr
      have hpos : deg c ≠ 0 := fun h => hc (hmonic.eq_polyOne h)
      have hle : deg c ≤ deg f := hf.deg_le_of_dvd hmonic.nonzero
        (Dvd.intro_left _ ((pMul_eq_iff hf.canonical).mp hprod))
      obtain ⟨t, ht, hlist⟩ := ih hrm.nonzero (by omega)
      exact ⟨_, sffLevels_square n hloop hc hr ht, hlevel.append hf.canonical hprod hsq hrm hlist⟩

/-- R190: the square-free stage of a nonzero polynomial. -/
theorem sff_spec {f : Poly} (hf : NonzeroPoly f) : ∃ z, sff f = .ok z ∧ SquareFreeList f z :=
  sffLevels_spec _ hf (by have := hf.canonical.length_eq; omega)

theorem sff_polyZero : sff polyZero = .error .divisionByZero := rfl

/-! ## How a stage's list ends the command (R194) -/

theorem putList_of_ok {s : State} {r : Except ErrorKind Factors} {z : Factors} (h : r = .ok z) :
    putList s r = .next (s.setResults z).advance := by subst h; rfl

theorem putList_of_error {s : State} {r : Except ErrorKind Factors} {k : ErrorKind} (h : r = .error k) :
    putList s r = .next (errorEntry k 0 s) := by subst h; rfl

/-- Settles O41: a level emits at most one square-free part and leaves a square, whose root has half the degree. -/
theorem squareFreeStageCompletes : Obligations.SquareFreeStageCompletes := by
  refine fun s a hi => ⟨fun h0 => putList_of_error (h0 ▸ sff_polyZero), fun h0 => ?_⟩
  have hf : NonzeroPoly (s.getP a) := ⟨hi.canonical a, h0⟩
  obtain ⟨z, hz, h⟩ := sff_spec hf
  refine ⟨z, putList_of_ok hz, h.product, fun e he => ?_, h.rising, fun hm e he => ?_⟩
  · obtain ⟨hn, hfree⟩ := h.entry e he
    exact ⟨hn.canonical, hn.ne_zero, hfree, h.exponent e he⟩
  · obtain ⟨hem, hd⟩ := h.monic (monicPoly_of_isMonic hf.canonical hm) e he
    exact ⟨hem.isMonic, hd⟩

end Sys2Proof.Machine
end

section
/-! The distinct-degree stage (R191, R196, R204): what the loop has done before each trial degree, with the irreducible factors of each part when the input is square-free. -/

namespace Sys2Proof.Machine

/-! ## The trial polynomial X^(q^k) + X (R191) -/

theorem trialPoly_canonical (k : Nat) : Canonical (trialPoly k) := pAdd_canonical _ _

theorem toPolynomial_trialPoly (k : Nat) :
    toPolynomial (trialPoly k) = Polynomial.X ^ 2 ^ (128 * k) + Polynomial.X := by
  rw [trialPoly, toPolynomial_pAdd, toPolynomial_pPow, toPolynomial_polyX]

/-- The irreducible divisors of X^(q^k) + X are those whose degree divides k. -/
theorem irreducible_dvd_trialPoly_iff {P : Polynomial (AdjoinRoot fieldModulus)} (hP : Irreducible P) (k : Nat) :
    P ∣ toPolynomial (trialPoly k) ↔ P.natDegree ∣ k := by
  have : Fact (Irreducible fieldModulus) := ⟨fieldModulus_irreducible⟩
  have := field_charTwo
  have := field_finite
  have h := hP.natDegree_dvd_iff_dvd_X_pow_card_pow_sub_X (n := k)
  rw [h, field_natCard, ← pow_mul, CharTwo.sub_eq_add, toPolynomial_trialPoly]

/-- The trial of the pseudocode, whose power and whose X are reduced by the rest, has the greatest common divisor of the trial polynomial and the rest. -/
theorem ddfTrial_spec {fs : Poly} (hf : NonzeroPoly fs) (k : Nat) :
    ∃ x y, rem polyX fs = .ok x ∧ pPowmod polyX (2 ^ (128 * k)) fs = .ok y ∧
      pGcd (pAdd y x) fs = pGcd (trialPoly k) fs := by
  obtain ⟨x, hx, hxr⟩ := rem_represents canonical_polyX hf
  obtain ⟨y, hy, hyr⟩ := rem_represents (pPow_canonical polyX (2 ^ (128 * k))) hf
  refine ⟨x, y, hx, (pPowmod_eq_rem canonical_polyX hf _).trans hy, ?_⟩
  have hdvd : toPolynomial fs ∣ toPolynomial (pAdd y x) - toPolynomial (trialPoly k) := by
    rw [← AdjoinRoot.mk_eq_mk, trialPoly, toPolynomial_pAdd, toPolynomial_pAdd, map_add, map_add, hxr.mk_eq, hyr.mk_eq]
  refine pGcd_eq_of_divisors (pAdd_canonical _ _) hf.canonical (trialPoly_canonical k) hf.canonical (.inr hf.ne_zero)
    (.inr hf.ne_zero) fun d => and_congr_left fun hd => dvd_iff_dvd_of_dvd_sub (hd.trans hdvd)

/-! ## A round (R191) -/

/-- What a trial of degree `d` that found `g` appends to the list. -/
def trialPart (d : Nat) (g : Poly) : Factors := if g = polyOne then [] else [(g, d)]

theorem mem_trialPart {d : Nat} {g : Poly} {e : Poly × Nat} (h : e ∈ trialPart d g) : g ≠ polyOne ∧ e = (g, d) := by
  unfold trialPart at h
  split_ifs at h with hg
  · exact absurd h List.not_mem_nil
  · exact ⟨hg, List.mem_singleton.mp h⟩

@[simp] theorem toPolynomial_productOfParts (z : Factors) :
    toPolynomial (productOfParts z) = (z.map fun e => toPolynomial e.1).prod := by
  simp [productOfParts, Function.comp_def]

theorem productOfParts_canonical (z : Factors) : Canonical (productOfParts z) := productOf_canonical _

theorem productOfParts_trialPart {g : Poly} (hg : Canonical g) (d : Nat) : productOfParts (trialPart d g) = g := by
  refine (productOfParts_canonical _).eq_of_toPolynomial hg ?_
  unfold trialPart
  split_ifs with h
  · simp [h]
  · simp

/-- A round of the distinct-degree loop, its greatest common divisor and its co-factor given. -/
theorem ddfLoop_round {fs g rest : Poly} {d : Nat} (hf : NonzeroPoly fs) (hd : 2 * d ≤ deg fs)
    (hg : pGcd (trialPoly d) fs = .ok g) (hq : quo fs g = .ok rest) (hmul : pMul rest g = fs) (hrest : Canonical rest)
    (n : Nat) (z : Factors) : ddfLoop (n + 1) d fs z = ddfLoop n (d + 1) rest (z ++ trialPart d g) := by
  obtain ⟨x, y, hx, hy, hxy⟩ := ddfTrial_spec hf d
  simp only [ddfLoop, if_pos hd, hx, hy, hxy, hg, hq, bind, Except.bind, trialPart]
  split_ifs with hone
  · have hsame : rest = fs := by
      rw [hone, pMul_eq_iff hf.canonical, toPolynomial_polyOne, mul_one] at hmul
      exact hrest.eq_of_toPolynomial hf.canonical hmul
    rw [hsame, List.append_nil]
  · rfl

theorem ddfLoop_stop {fs : Poly} {d : Nat} (hd : deg fs < 2 * d) (n : Nat) (z : Factors) :
    ddfLoop n d fs z = .ok (z, fs) := by
  cases n with
  | zero => rfl
  | succ n => exact if_neg (not_le.mpr hd)

/-! ## The trials made so far -/

/-- What the loop of R191 has done to `f` when it stands before the trial of degree `d` with the rest `fs` and the list `z`. -/
structure DdfTrace (f : Poly) (d : Nat) (fs : Poly) (z : Factors) : Prop where
  pos : 1 ≤ d
  rest : NonzeroPoly fs
  product : pMul (productOfParts z) fs = f
  rising : z.Pairwise fun x y => x.2 < y.2
  degree : ∀ e ∈ z, 1 ≤ e.2 ∧ e.2 < d
  monic : ∀ e ∈ z, MonicPoly e.1 ∧ 1 ≤ deg e.1
  dvd : ∀ e ∈ z, toPolynomial e.1 ∣ toPolynomial (trialPoly e.2)
  trial : ∀ k, 1 ≤ k → k < d → ∃ r, Canonical r ∧ 2 * k ≤ deg r ∧
    pMul (productOfParts (z.filter fun e => decide (e.2 < k))) r = f ∧
    pGcd (trialPoly k) r = .ok (productOfParts (z.filter fun e => e.2 == k))
  coprime_part : (toPolynomial f).Separable → ∀ e ∈ z, ∀ k, 1 ≤ k → k < e.2 →
    IsCoprime (toPolynomial (trialPoly k)) (toPolynomial e.1)
  coprime_rest : (toPolynomial f).Separable → ∀ k, 1 ≤ k → k < d →
    IsCoprime (toPolynomial (trialPoly k)) (toPolynomial fs)

theorem DdfTrace.init {f : Poly} (hf : NonzeroPoly f) : DdfTrace f 1 f [] where
  pos := le_rfl
  rest := hf
  product := by rw [pMul_eq_iff hf.canonical, toPolynomial_productOfParts, List.map_nil, List.prod_nil, one_mul]
  rising := .nil
  degree := by simp
  monic := by simp
  dvd := by simp
  trial k h1 hk := by omega
  coprime_part := by simp
  coprime_rest _ k h1 hk := by omega

/-- Of a separable polynomial, the co-factor of the greatest common divisor with `T` is coprime to `T`. -/
theorem isCoprime_cofactor {K : Type*} [Field K] {T F G R : Polynomial K} (hF : F.Separable) (hmul : R * G = F)
    (hG : ∀ d, d ∣ G ↔ d ∣ T ∧ d ∣ F) : IsCoprime T R := by
  subst hmul
  refine IsRelPrime.isCoprime fun d hT hR => hF.isCoprime.isRelPrime hR ?_
  exact (hG d).mpr ⟨hT, hR.mul_right G⟩

section step
variable {f fs g r : Poly} {d : Nat} {z : Factors}

theorem filter_trialPart_of_false {p : Nat → Bool} (hp : p d = false) :
    (trialPart d g).filter (fun e => p e.2) = [] := by
  unfold trialPart
  split_ifs <;> simp [hp]

theorem filter_trialPart_of_true {p : Nat → Bool} (hp : p d = true) :
    (trialPart d g).filter (fun e => p e.2) = trialPart d g := by
  unfold trialPart
  split_ifs <;> simp [hp]

theorem rising_append_trialPart (hz : z.Pairwise fun x y => x.2 < y.2) (hlt : ∀ e ∈ z, e.2 < d) :
    (z ++ trialPart d g).Pairwise fun x y => x.2 < y.2 := by
  refine List.pairwise_append.mpr ⟨hz, ?_, fun x hx y hy => (mem_trialPart hy).2 ▸ hlt x hx⟩
  unfold trialPart
  split_ifs
  · exact .nil
  · exact List.pairwise_singleton _ _

/-- A fact about the parts so far and about the new one. -/
theorem forall_mem_append_trialPart {q : Poly × Nat → Prop} (hz : ∀ e ∈ z, q e) (hg : g ≠ polyOne → q (g, d)) :
    ∀ e ∈ z ++ trialPart d g, q e := by
  intro e he
  rcases List.mem_append.mp he with he | he
  · exact hz e he
  · obtain ⟨hne, rfl⟩ := mem_trialPart he
    exact hg hne

theorem DdfTrace.canonical (h : DdfTrace f d fs z) : Canonical f := h.product ▸ pMul_canonical _ _

theorem DdfTrace.rest_dvd (h : DdfTrace f d fs z) : toPolynomial fs ∣ toPolynomial f :=
  Dvd.intro_left _ ((pMul_eq_iff h.canonical).mp h.product)

/-- The trial of degree `d` joins those of the lower degrees. -/
theorem DdfTrace.step_trial (h : DdfTrace f d fs z) (hd : 2 * d ≤ deg fs) (hg : pGcd (trialPoly d) fs = .ok g)
    (hgc : Canonical g) {k : Nat} (h1 : 1 ≤ k) (hk : k < d + 1) : ∃ r, Canonical r ∧ 2 * k ≤ deg r ∧
      pMul (productOfParts ((z ++ trialPart d g).filter fun e => decide (e.2 < k))) r = f ∧
      pGcd (trialPoly k) r = .ok (productOfParts ((z ++ trialPart d g).filter fun e => e.2 == k)) := by
  have hlow : (trialPart d g).filter (fun e => decide (e.2 < k)) = [] :=
    filter_trialPart_of_false (p := fun i => decide (i < k)) (decide_eq_false (by omega))
  simp only [List.filter_append, hlow, List.append_nil]
  obtain hlt | rfl : k < d ∨ k = d := by omega
  · obtain ⟨r, hr, hdeg, hprod, hgcd⟩ := h.trial k h1 hlt
    refine ⟨r, hr, hdeg, hprod, ?_⟩
    rw [filter_trialPart_of_false (p := fun i => i == k) (beq_false_of_ne hlt.ne'), List.append_nil, hgcd]
  · have hbelow : ∀ e ∈ z, e.2 < k := fun e he => (h.degree e he).2
    have hall : z.filter (fun e => decide (e.2 < k)) = z := List.filter_eq_self.mpr fun e he => by simpa using hbelow e he
    have hnone : z.filter (fun e => e.2 == k) = [] :=
      List.filter_eq_nil_iff.mpr fun e he => by simpa using (hbelow e he).ne
    refine ⟨fs, h.rest.canonical, hd, by rw [hall, h.product], ?_⟩
    rw [hnone, List.nil_append, filter_trialPart_of_true (p := fun i => i == k) (beq_self_eq_true k),
      productOfParts_trialPart hgc, hg]

/-- The trial of degree `d`, which found `g` and left the co-factor `r`. -/
theorem DdfTrace.step (h : DdfTrace f d fs z) (hd : 2 * d ≤ deg fs) (hg : pGcd (trialPoly d) fs = .ok g)
    (hgm : MonicPoly g) (hgd : ∀ x, x ∣ toPolynomial g ↔ x ∣ toPolynomial (trialPoly d) ∧ x ∣ toPolynomial fs)
    (hr : NonzeroPoly r) (hmul : pMul r g = fs) : DdfTrace f (d + 1) r (z ++ trialPart d g) := by
  have : Fact (Irreducible fieldModulus) := ⟨fieldModulus_irreducible⟩
  have hmul' := (pMul_eq_iff h.rest.canonical).mp hmul
  have hgfs : toPolynomial g ∣ toPolynomial fs := Dvd.intro_left _ hmul'
  have hrfs : toPolynomial r ∣ toPolynomial fs := Dvd.intro _ hmul'
  have hgpos : g ≠ polyOne → 1 ≤ deg g := fun hne => by
    by_contra hc
    exact hne (hgm.eq_polyOne (by omega))
  refine ⟨by omega, hr, ?_, rising_append_trialPart h.rising fun e he => (h.degree e he).2,
    forall_mem_append_trialPart (fun e he => ?_) fun _ => ⟨h.pos, Nat.lt_succ_self d⟩,
    forall_mem_append_trialPart h.monic fun hne => ⟨hgm, hgpos hne⟩,
    forall_mem_append_trialPart h.dvd fun _ => ((hgd _).mp dvd_rfl).1,
    fun k h1 hk => h.step_trial hd hg hgm.canonical h1 hk,
    fun hsep => forall_mem_append_trialPart (h.coprime_part hsep) fun _ k h1 hk =>
      (h.coprime_rest hsep k h1 hk).of_isCoprime_of_dvd_right hgfs, fun hsep k h1 hk => ?_⟩
  · rw [pMul_eq_iff h.canonical, ← (pMul_eq_iff h.canonical).mp h.product, ← hmul', toPolynomial_productOfParts,
      List.map_append, List.prod_append, ← toPolynomial_productOfParts, ← toPolynomial_productOfParts,
      productOfParts_trialPart hgm.canonical]
    ring
  · obtain ⟨h1, hlt⟩ := h.degree e he
    exact ⟨h1, hlt.trans (Nat.lt_succ_self d)⟩
  · obtain hlt | rfl : k < d ∨ k = d := by omega
    · exact (h.coprime_rest hsep k h1 hlt).of_isCoprime_of_dvd_right hrfs
    · exact isCoprime_cofactor (hsep.of_dvd h.rest_dvd) hmul' hgd

end step

/-- The loop, with rounds enough for the degree of its rest, ends before a trial that the degree of the rest does not allow. -/
theorem ddfLoop_spec (n : Nat) {f fs : Poly} {d : Nat} {z : Factors} (h : DdfTrace f d fs z) (hn : deg fs < 2 * (d + n)) :
    ∃ z' left d', ddfLoop n d fs z = .ok (z', left) ∧ DdfTrace f d' left z' ∧ deg left < 2 * d' := by
  induction n generalizing fs d z with
  | zero => exact ⟨z, fs, d, rfl, h, hn⟩
  | succ n ih =>
    by_cases hd : 2 * d ≤ deg fs
    · obtain ⟨g, hg, hgm, hgd⟩ := pGcd_divisors (trialPoly_canonical d) h.rest.canonical (.inr h.rest.ne_zero)
      obtain ⟨r, hq, hr, hmul⟩ := quo_of_dvd h.rest hgm.nonzero ((hgd _).mp dvd_rfl).2
      have hle : deg r ≤ deg fs := h.rest.deg_le_of_dvd hr (Dvd.intro _ ((pMul_eq_iff h.rest.canonical).mp hmul))
      rw [ddfLoop_round h.rest hd hg hq hmul hr.canonical]
      exact ih (h.step hd hg hgm hgd hr hmul) (by omega)
    · exact ⟨z, fs, d, ddfLoop_stop (not_le.mp hd) _ z, h, not_le.mp hd⟩

/-! ## The stage (R191, R196, R204) -/

/-- What the stage appends for the left-over. -/
def leftPart (left : Poly) : Factors := if 1 ≤ deg left then [(left, deg left)] else []

/-- R191: the distinct-degree stage of a nonzero polynomial. -/
theorem ddf_spec {f : Poly} (hf : NonzeroPoly f) : ∃ parts left d, ddf f = .ok (parts ++ leftPart left) ∧
    DdfTrace f d left parts ∧ deg left < 2 * d := by
  obtain ⟨z, left, d, hloop, htrace, hlt⟩ := ddfLoop_spec f.length (.init hf) (by have := hf.canonical.length_eq; omega)
  refine ⟨z, left, d, ?_, htrace, hlt⟩
  simp only [ddf, if_neg hf.ne_zero, hloop, leftPart]
  split_ifs
  · rfl
  · rw [List.append_nil]

theorem ddf_polyZero : ddf polyZero = .error .preconditionViolation := if_pos rfl

section trace
variable {f left : Poly} {d : Nat} {parts : Factors}

/-- No trial is made of a polynomial of degree at most 1. -/
theorem DdfTrace.of_deg_le_one (h : DdfTrace f d left parts) (hf : NonzeroPoly f) (hd : deg f ≤ 1) :
    parts = [] ∧ left = f := by
  have hd1 : ¬ 1 < d := fun hlt => by
    obtain ⟨r, hr, hdeg, hprod, -⟩ := h.trial 1 le_rfl hlt
    have hle := hf.deg_le_of_dvd (nonzero_of_deg_pos hr (by omega)) (Dvd.intro_left _ ((pMul_eq_iff hf.canonical).mp hprod))
    omega
  have hnil : parts = [] := List.eq_nil_iff_forall_not_mem.mpr fun e he => by
    have := h.degree e he
    omega
  have hprod := (pMul_eq_iff hf.canonical).mp h.product
  rw [hnil, toPolynomial_productOfParts, List.map_nil, List.prod_nil, one_mul] at hprod
  exact ⟨hnil, h.rest.canonical.eq_of_toPolynomial hf.canonical hprod⟩

theorem DdfTrace.monic_rest (h : DdfTrace f d left parts) (hf : MonicPoly f) : MonicPoly left := by
  have hparts : (toPolynomial (productOfParts parts)).Monic := by
    rw [toPolynomial_productOfParts]
    refine List.prod_induction Polynomial.Monic (fun _ _ => .mul) Polynomial.monic_one fun P hP => ?_
    obtain ⟨e, he, rfl⟩ := List.mem_map.mp hP
    exact (h.monic e he).1.toPolynomial_monic
  refine h.rest.monicPoly_iff.mpr (hparts.of_mul_monic_left ?_)
  rw [← toPolynomial_pMul, h.product]
  exact hf.toPolynomial_monic

theorem DdfTrace.product_leftPart (h : DdfTrace f d left parts) (hf : MonicPoly f) :
    productOfParts (parts ++ leftPart left) = f := by
  have hleft : productOfParts (leftPart left) = left := by
    refine (productOfParts_canonical _).eq_of_toPolynomial h.rest.canonical ?_
    unfold leftPart
    split_ifs with hpos
    · simp
    · simp [(h.monic_rest hf).eq_polyOne (by omega)]
  refine (productOfParts_canonical _).eq_of_toPolynomial hf.canonical ?_
  rw [toPolynomial_productOfParts, List.map_append, List.prod_append, ← toPolynomial_productOfParts,
    ← toPolynomial_productOfParts, hleft, ← toPolynomial_pMul, h.product]

end trace

/-- Settles O42: the loop makes every trial that the degree of the rest allows, and of a separable polynomial the co-factor of a greatest common divisor shares no factor with the trial. -/
theorem distinctDegreeStageCompletes : Obligations.DistinctDegreeStageCompletes := by
  refine fun s a hi => ⟨fun h0 => putList_of_error (h0 ▸ ddf_polyZero), fun h0 => ?_⟩
  have hf : NonzeroPoly (s.getP a) := ⟨hi.canonical a, h0⟩
  obtain ⟨parts, left, d, hddf, h, hlt⟩ := ddf_spec hf
  have hone : ∀ {u : Poly}, NonzeroPoly u → ∀ {k : Nat},
      IsCoprime (toPolynomial (trialPoly k)) (toPolynomial u) → pGcd (trialPoly k) u = .ok polyOne :=
    fun hu => (pGcd_eq_polyOne_iff (trialPoly_canonical _) hu.canonical (.inr hu.ne_zero)).mpr
  refine ⟨parts, left, d, putList_of_ok hddf, h.pos, hlt, h.rising, fun e he => ?_, h.rest.canonical, h.product, h.trial,
    fun hfree => ⟨fun e he k h1 hk => ?_, fun k h1 hk => ?_⟩, fun hm => ?_, fun hd => ?_, fun hd => ?_⟩
  · obtain ⟨h1, hk⟩ := h.degree e he
    obtain ⟨hem, hpos⟩ := h.monic e he
    exact ⟨h1, hk, hem.canonical, hem.isMonic, hpos,
      (rem_eq_zero_iff (trialPoly_canonical _) hem.nonzero).mpr (h.dvd e he)⟩
  · exact hone (h.monic e he).1.nonzero (h.coprime_part ((squareFree_iff hf).mp hfree) e he k h1 hk)
  · exact hone h.rest (h.coprime_rest ((squareFree_iff hf).mp hfree) k h1 hk)
  · exact h.product_leftPart (monicPoly_of_isMonic hf.canonical hm)
  · obtain ⟨rfl, rfl⟩ := h.of_deg_le_one hf (by omega)
    simp [hd]
  · obtain ⟨rfl, rfl⟩ := h.of_deg_le_one hf (by omega)
    simp [hd]

end Sys2Proof.Machine
end

section
/-! The equal-degree stage (R192, R197, R347): its trials one by one, the product its candidates keep, and what its candidates are when every irreducible factor of the input has the given degree. -/

namespace Sys2Proof.Machine

/-! ## A trial (R192) -/

/-- What a trial makes of the candidate `u`, given the polynomial `g` of the trial (R192). -/
structure EdfSplits (d : Nat) (g u : Poly) (y : List Poly) : Prop where
  small : deg u ≤ d → y = [u]
  big : d < deg u → ∃ j, pGcd u g = .ok j ∧
    (1 ≤ deg j ∧ deg j < deg u → ∃ q, Canonical q ∧ pMul q j = u ∧ y = [j, q]) ∧
    (¬ (1 ≤ deg j ∧ deg j < deg u) → y = [u])

/-- Candidates for the parts of `f`: their product is `f`, and the monic form is kept (R192). -/
structure Candidates (f : Poly) (z : List Poly) : Prop where
  part : ∀ u ∈ z, Canonical u ∧ 1 ≤ deg u
  product : (z.map toPolynomial).prod = toPolynomial f
  monic : MonicPoly f → ∀ u ∈ z, MonicPoly u

theorem Candidates.singleton {f : Poly} (hf : Canonical f) (hd : 1 ≤ deg f) : Candidates f [f] :=
  ⟨by simpa using ⟨hf, hd⟩, by simp, by simp⟩

theorem edfSplit_spec (d : Nat) {g u : Poly} (hg : Canonical g) (hu : Canonical u) (hd : 1 ≤ deg u) :
    ∃ y, edfSplit d g u = .ok y ∧ EdfSplits d g u y ∧ Candidates u y := by
  have hun := nonzero_of_deg_pos hu hd
  obtain ⟨j, hj, hjm, hjd⟩ := pGcd_divisors hu hg (.inl hun.ne_zero)
  by_cases hbig : d < deg u
  · by_cases hproper : 1 ≤ deg j ∧ deg j < deg u
    · obtain ⟨q, hq, hqn, hmul⟩ := quo_of_dvd hun hjm.nonzero ((hjd _).mp dvd_rfl).1
      have hmul' := (pMul_eq_iff hu).mp hmul
      have hdeg : deg u = deg q + deg j := by
        rw [← (pMul_nonzero hqn hjm.nonzero).2, hmul]
      refine ⟨[j, q], edfSplit_nontrivial hbig hj hproper hq,
        ⟨by omega, fun _ => ⟨j, hj, fun _ => ⟨q, hqn.canonical, hmul, rfl⟩, fun h => absurd hproper h⟩⟩,
        ?_, ?_, fun hum => ?_⟩
      · simpa using ⟨⟨hjm.canonical, hproper.1⟩, hqn.canonical, by omega⟩
      · simpa [mul_comm] using hmul'
      · simpa using ⟨hjm, hum.cofactor hjm hqn hmul⟩
    · exact ⟨[u], edfSplit_trivial hbig hj hproper,
        ⟨fun _ => rfl, fun _ => ⟨j, hj, fun h => absurd h hproper, fun _ => rfl⟩⟩, .singleton hu hd⟩
  · exact ⟨[u], edfSplit_small (not_lt.mp hbig), ⟨fun _ => rfl, fun h => absurd h hbig⟩, .singleton hu hd⟩

/-- What one pass makes of a candidate, as a function: the candidate itself where `edfSplit` has no result. -/
def splitOf (d : Nat) (g u : Poly) : List Poly := (edfSplit d g u).toOption.getD [u]

theorem edfSplit_eq_splitOf (d : Nat) {g u : Poly} (hg : Canonical g) (hu : Canonical u) (hd : 1 ≤ deg u) :
    edfSplit d g u = .ok (splitOf d g u) ∧ EdfSplits d g u (splitOf d g u) ∧ Candidates u (splitOf d g u) := by
  obtain ⟨y, hy, hsplits, hcand⟩ := edfSplit_spec d hg hu hd
  have hof : splitOf d g u = y := by rw [splitOf, hy]; rfl
  rw [hof]
  exact ⟨hy, hsplits, hcand⟩

theorem edfPass_eq_flatMap (d : Nat) {g : Poly} (hg : Canonical g) {z : List Poly}
    (hz : ∀ u ∈ z, Canonical u ∧ 1 ≤ deg u) : edfPass d g z = .ok (z.flatMap (splitOf d g)) := by
  induction z with
  | nil => rfl
  | cons u z ih =>
    obtain ⟨hu, hd⟩ := hz u (by simp)
    simp only [edfPass, (edfSplit_eq_splitOf d hg hu hd).1, ih fun v hv => hz v (by simp [hv]), bind, Except.bind,
      List.flatMap_cons]

theorem prod_map_flatMap {M : Type*} [Monoid M] (t : Poly → M) (split : Poly → List Poly) (z : List Poly) :
    ((z.flatMap split).map t).prod = (z.map fun u => ((split u).map t).prod).prod := by
  induction z with
  | nil => rfl
  | cons u z ih => rw [List.flatMap_cons, List.map_append, List.prod_append, ih, List.map_cons, List.prod_cons]

/-- Candidates for the parts of each candidate are candidates for the parts of the input. -/
theorem Candidates.flatMap {f : Poly} {z : List Poly} (h : Candidates f z) {split : Poly → List Poly}
    (hs : ∀ u ∈ z, Candidates u (split u)) : Candidates f (z.flatMap split) where
  part v hv := by
    obtain ⟨u, hu, hvu⟩ := List.mem_flatMap.mp hv
    exact (hs u hu).part v hvu
  product := by
    rw [prod_map_flatMap, ← h.product]
    exact congrArg List.prod (List.map_congr_left fun u hu => (hs u hu).product)
  monic hf v hv := by
    obtain ⟨u, hu, hvu⟩ := List.mem_flatMap.mp hv
    exact (hs u hu).monic (h.monic hf u hu) v hvu

/-- A trial: the power of the drawn polynomial modulo `f`, and the pass with it. -/
theorem edfTrial_spec {f : Poly} (hf : NonzeroPoly f) (d : Nat) {h : Poly} (hh : Canonical h) {z : List Poly}
    (hz : Candidates f z) : ∃ y, rem (pPow h ((2 ^ (128 * d) - 1) / 3)) f = .ok y ∧
      edfTrial f d h z = .ok (z.flatMap (splitOf d (pAdd y polyOne))) ∧
      (∀ u ∈ z, EdfSplits d (pAdd y polyOne) u (splitOf d (pAdd y polyOne) u)) ∧
      Candidates f (z.flatMap (splitOf d (pAdd y polyOne))) := by
  obtain ⟨y, hy, -⟩ := rem_spec (pPow_canonical h ((2 ^ (128 * d) - 1) / 3)) hf
  have hsplit := fun u hu => edfSplit_eq_splitOf d (pAdd_canonical y polyOne) (hz.part u hu).1 (hz.part u hu).2
  refine ⟨y, hy, ?_, fun u hu => (hsplit u hu).2.1, hz.flatMap fun u hu => (hsplit u hu).2.2⟩
  rw [edfTrial, (pPowmod_eq_rem hh hf _).trans hy]
  exact edfPass_eq_flatMap d (pAdd_canonical y polyOne) hz.part

/-! ## The trials one by one (R192) -/

/-- The candidates after `i` trials, were each made. -/
def candidatesAfter (rand : Nat → Word) (n : Nat) (f : Poly) (d : Nat) : Nat → List Poly
  | 0 => [f]
  | i + 1 =>
    (edfTrial f d (edfDraw rand (n + i * deg f) (deg f)) (candidatesAfter rand n f d i)).toOption.getD []

section trials
variable {rand : Nat → Word} {n d : Nat} {f : Poly}

theorem edfDraw_canonical (k : Nat) : Canonical (edfDraw rand n k) := canon_canonical _

theorem candidatesAfter_succ {i : Nat} {y : List Poly}
    (h : edfTrial f d (edfDraw rand (n + i * deg f) (deg f)) (candidatesAfter rand n f d i) = .ok y) :
    candidatesAfter rand n f d (i + 1) = y := by
  rw [candidatesAfter, h]
  rfl

theorem candidatesAfter_candidates (hf : Canonical f) (hd : 1 ≤ deg f) (i : Nat) :
    Candidates f (candidatesAfter rand n f d i) := by
  induction i with
  | zero => exact .singleton hf hd
  | succ i ih =>
    obtain ⟨y, -, htrial, -, hcand⟩ := edfTrial_spec (nonzero_of_deg_pos hf hd) d (edfDraw_canonical _) ih
    rwa [candidatesAfter_succ htrial]

theorem edfTrial_candidatesAfter (hf : Canonical f) (hd : 1 ≤ deg f) (i : Nat) :
    edfTrial f d (edfDraw rand (n + i * deg f) (deg f)) (candidatesAfter rand n f d i) =
      .ok (candidatesAfter rand n f d (i + 1)) := by
  obtain ⟨y, -, htrial, -⟩ := edfTrial_spec (nonzero_of_deg_pos hf hd) d (edfDraw_canonical _)
    (candidatesAfter_candidates hf hd i)
  rw [htrial, candidatesAfter_succ htrial]

/-- How the trials end, `k` of them made in all: with candidates that need no split, or with the budget used up. -/
inductive EdfEnd (rand : Nat → Word) (n : Nat) (f : Poly) (d budget k : Nat) (r : Drawn (List Poly)) : Prop where
  | done (h : needsSplit d (candidatesAfter rand n f d k) = false)
      (hr : r = (.ok (candidatesAfter rand n f d k), n + k * deg f))
  | spent (h : needsSplit d (candidatesAfter rand n f d k) = true) (hk : k = budget)
      (hr : r = (.error .retryBudgetExceeded, n + k * deg f))

theorem edfLoop_trace (hf : Canonical f) (hd : 1 ≤ deg f) (t i : Nat) : ∃ k, i ≤ k ∧ k ≤ i + t ∧
    (∀ j, i ≤ j → j < k → needsSplit d (candidatesAfter rand n f d j) = true) ∧
    EdfEnd rand n f d (i + t) k (edfLoop rand f d t (n + i * deg f) (candidatesAfter rand n f d i)) := by
  induction t generalizing i with
  | zero =>
    refine ⟨i, le_rfl, le_rfl, fun j h1 h2 => by omega, ?_⟩
    cases hs : needsSplit d (candidatesAfter rand n f d i) with
    | false => exact .done hs (edfLoop_done hs _ _)
    | true => exact .spent hs rfl (edfLoop_spent hs _)
  | succ t ih =>
    cases hs : needsSplit d (candidatesAfter rand n f d i) with
    | false => exact ⟨i, le_rfl, by omega, fun j h1 h2 => by omega, .done hs (edfLoop_done hs _ _)⟩
    | true =>
      obtain ⟨k, hik, hkt, hneed, hend⟩ := ih (i + 1)
      have hdraws : n + i * deg f + deg f = n + (i + 1) * deg f := by ring
      rw [edfLoop_trial_ok hs (edfTrial_candidatesAfter hf hd i), hdraws]
      refine ⟨k, by omega, by omega, fun j h1 h2 => ?_, by rwa [← Nat.add_assoc, Nat.add_right_comm]⟩
      obtain rfl | hlt := h1.eq_or_lt
      · exact hs
      · exact hneed j hlt h2

/-- R192: the trials of an accepted `edf`, and how they end. -/
theorem edf_trace (hf : Canonical f) (ha : edfAccepts f d) (budget : Nat) : ∃ k, k ≤ budget ∧
    (∀ j, j < k → needsSplit d (candidatesAfter rand n f d j) = true) ∧
    EdfEnd rand n f d budget k (edf rand budget n f d) := by
  obtain ⟨k, -, hk, hneed, hend⟩ := edfLoop_trace (rand := rand) (n := n) (d := d) hf ha.2.1 budget 0
  rw [Nat.zero_add] at hk hend
  rw [Nat.zero_mul, Nat.add_zero] at hend
  exact ⟨k, hk, fun j => hneed j (Nat.zero_le j), (edf_of_accepts ha rand budget n).symm ▸ hend⟩

theorem needsSplit_eq_true {z : List Poly} : needsSplit d z = true ↔ ∃ u ∈ z, d < deg u := by
  simp [needsSplit]

end trials

/-- Settles O45: the candidates after each trial, whose pass splits each candidate in place. -/
theorem edfTrialByTrial : Obligations.EdfTrialByTrial := by
  intro rand budget n f d hf hdeg hd hdvd
  have ha : edfAccepts f d := ⟨ne_polyZero_of_deg_pos hdeg, hdeg, hd, hdvd⟩
  obtain ⟨k, hk, hneed, hend⟩ := edf_trace (rand := rand) (n := n) hf ha budget
  refine ⟨k, candidatesAfter rand n f d, hk, rfl, fun i hik => ⟨needsSplit_eq_true.mp (hneed i hik), ?_⟩, ?_⟩
  · obtain ⟨y, hy, htrial, hsplits, -⟩ := edfTrial_spec (nonzero_of_deg_pos hf hdeg) d (edfDraw_canonical _)
      (candidatesAfter_candidates (rand := rand) (n := n) (d := d) hf hdeg i)
    exact ⟨y, splitOf d (pAdd y polyOne), hy, candidatesAfter_succ htrial,
      fun u hu => ⟨(hsplits u hu).small, (hsplits u hu).big⟩⟩
  · cases hend with
    | done h hr => exact .inl ⟨needsSplit_eq_false.mp h, hr⟩
    | spent h hk hr => exact .inr ⟨needsSplit_eq_true.mp h, hk, hr⟩

/-! ## The product, and candidates of one degree (R192) -/

/-- Every irreducible factor of `p` has degree `d`. -/
def FactorsOfDegree (d : Nat) (p : Poly) : Prop :=
  ∀ P : Polynomial (AdjoinRoot fieldModulus), Irreducible P → P ∣ toPolynomial p → P.natDegree = d

theorem FactorsOfDegree.of_dvd {d : Nat} {p q : Poly} (h : FactorsOfDegree d p) (hq : toPolynomial q ∣ toPolynomial p) :
    FactorsOfDegree d q := fun P hP hdvd => h P hP (hdvd.trans hq)

/-- The premise of R192 in the terms of polynomials over the field. -/
theorem factorsOfDegree_of_forall {d : Nat} {f : Poly} (hf : Canonical f)
    (h : ∀ p : Poly, Canonical p → IrreduciblePoly p → rem f p = .ok polyZero → deg p = d) :
    FactorsOfDegree d f := by
  intro P hP hdvd
  obtain ⟨p, hp, rfl⟩ := exists_canonical_toPolynomial P
  have hpn : NonzeroPoly p := ⟨hp, fun h0 => hP.ne_zero (by rw [h0, toPolynomial_polyZero])⟩
  rw [hpn.natDegree_eq]
  exact h p hp (hpn.irreduciblePoly_iff.mpr hP) ((rem_eq_zero_iff hf hpn).mpr hdvd)

/-- A polynomial of degree at most `d` whose irreducible factors have degree `d` is one of them. -/
theorem FactorsOfDegree.irreducible {d : Nat} {u : Poly} (h : FactorsOfDegree d u) (hu : Canonical u) (hpos : 1 ≤ deg u)
    (hle : deg u ≤ d) : IrreduciblePoly u ∧ deg u = d := by
  have : Fact (Irreducible fieldModulus) := ⟨fieldModulus_irreducible⟩
  have hun := nonzero_of_deg_pos hu hpos
  obtain ⟨P, hP, hdvd⟩ := WfDvdMonoid.exists_irreducible_factor (hun.deg_pos_iff.mp hpos) hun.toPolynomial_ne_zero
  have hdeg := h P hP hdvd
  have hle' : (toPolynomial u).natDegree ≤ P.natDegree := by rw [hdeg, hun.natDegree_eq]; exact hle
  have hassoc := Polynomial.associated_of_dvd_of_natDegree_le hdvd hun.toPolynomial_ne_zero hle'
  have hirr := hassoc.irreducible hP
  exact ⟨hun.irreduciblePoly_iff.mpr hirr, by rw [← hun.natDegree_eq, h _ hirr dvd_rfl]⟩

theorem Candidates.dvd {f : Poly} {z : List Poly} (h : Candidates f z) {u : Poly} (hu : u ∈ z) :
    toPolynomial u ∣ toPolynomial f := h.product ▸ List.dvd_prod (List.mem_map_of_mem hu)

/-- Candidates of degree at most `d`, all irreducible factors of the input being of degree `d`, are irreducible (R192). -/
theorem Candidates.irreducible {f : Poly} {z : List Poly} {d : Nat} (h : Candidates f z) (hle : ∀ u ∈ z, deg u ≤ d)
    (hf : FactorsOfDegree d f) : ∀ u ∈ z, IrreduciblePoly u ∧ deg u = d := fun u hu =>
  (hf.of_dvd (h.dvd hu)).irreducible (h.part u hu).1 (h.part u hu).2 (hle u hu)

theorem Candidates.foldr {f : Poly} (hf : Canonical f) {z : List Poly} (h : Candidates f z) :
    z.foldr pMul polyOne = f := by
  have hcanon : Canonical (z.foldr pMul polyOne) := by
    cases z with
    | nil => exact canonical_polyOne
    | cons u z => exact pMul_canonical _ _
  have hprod : ∀ y : List Poly, toPolynomial (y.foldr pMul polyOne) = (y.map toPolynomial).prod := fun y => by
    induction y with
    | nil => exact toPolynomial_polyOne
    | cons u y ih => rw [List.foldr_cons, toPolynomial_pMul, ih, List.map_cons, List.prod_cons]
  exact hcanon.eq_of_toPolynomial hf ((hprod z).trans h.product)

/-- Whatever is drawn, a result of `edf` is a list of candidates for the parts of its input (R192). -/
theorem edf_candidates {rand : Nat → Word} {budget n m d : Nat} {f : Poly} {z : List Poly} (hf : Canonical f)
    (h : edf rand budget n f d = (.ok z, m)) : Candidates f z ∧ ∀ u ∈ z, deg u ≤ d := by
  refine ⟨?_, edf_deg_le (congrArg Prod.fst h)⟩
  by_cases ha : edfAccepts f d
  · obtain ⟨k, -, -, hend⟩ := edf_trace (rand := rand) (n := n) hf ha budget
    cases hend with
    | done _ hr =>
      rw [h] at hr
      cases hr
      exact candidatesAfter_candidates hf ha.2.1 k
    | spent _ _ hr =>
      rw [h] at hr
      cases hr
  · rw [edf_of_not_accepts ha] at h
    cases h

/-! ## The command (R197, R347) -/

section command
variable {s : State} {a : Reg} {imm : BitVec 8} {m : Nat}

theorem execEdf_of_edf_ok {z : List Poly} (h : edfHere s (s.getP a) (immNat imm) = (.ok z, m)) :
    execEdf a imm s = .next ((s.setDrawn m).setResults (z.map fun u => (u, imm.toNat))).advance := by
  rw [execEdf_of_ok (congrArg Prod.fst h), h]
  rfl

theorem execEdf_of_edf_error {k : ErrorKind} (h : edfHere s (s.getP a) (immNat imm) = (.error k, m)) :
    execEdf a imm s = .next (errorEntry k 0 (s.setDrawn m)) := by
  rw [execEdf_of_error (congrArg Prod.fst h), h]

end command

/-- Settles O46: a trial replaces candidates by parts with the same product, and a polynomial of degree at most `d` with all its irreducible factors of degree `d` is irreducible. -/
theorem edfKeepsTheProduct : Obligations.EdfKeepsTheProduct := by
  constructor
  · intro rand budget n m f d z hf h
    obtain ⟨hcand, hle⟩ := edf_candidates hf h
    refine ⟨hcand.foldr hf, fun u hu => (hcand.part u hu).2,
      fun hm u hu => (hcand.monic (monicPoly_of_isMonic hf hm) u hu).isMonic,
      fun hirr => hcand.irreducible hle (factorsOfDegree_of_forall hf hirr)⟩
  · intro s t a imm hi _ ht hstate
    have hf := hi.canonical a
    have hexec : execEdf a imm s = .next t := ht
    cases hr : edfHere s (s.getP a) (immNat imm) with | mk r m =>
    cases r with
    | error k =>
      rw [execEdf_of_edf_error hr] at hexec
      cases hexec
      exact absurd (statusState_withState _ _) hstate
    | ok z =>
      rw [execEdf_of_edf_ok hr] at hexec
      cases hexec
      obtain ⟨hcand, hle⟩ := edf_candidates hf hr
      exact ⟨z, rfl, hcand.foldr hf, fun u hu => ⟨(hcand.part u hu).2, hle u hu⟩,
        fun hirr => hcand.irreducible hle (factorsOfDegree_of_forall hf hirr)⟩

/-- At the given degree there is nothing to split, whatever the budget (R192, R197). -/
theorem edf_of_deg_eq {f : Poly} {d : Nat} (hd : 1 ≤ d) (h : deg f = d) (rand : Nat → Word) (budget n : Nat) :
    edf rand budget n f d = (.ok [f], n) := by
  have ha : edfAccepts f d := ⟨ne_polyZero_of_deg_pos (by omega), by omega, hd, by rw [h, Nat.mod_self]⟩
  rw [edf_of_accepts ha, edfLoop_done (needsSplit_eq_false.mpr (by simpa using h.le))]

/-- Settles O43: the precondition fails, or nothing needs a split, or the first split needed finds no budget. -/
theorem equalDegreeStageWithoutATrial : Obligations.EqualDegreeStageWithoutATrial := by
  refine fun s a imm hi => ⟨fun h => execEdf_of_edf_error (edf_of_not_accepts (violatesPrecondition_edf.mp h) _ _ _),
    fun hn hd => execEdf_of_edf_ok (edf_of_deg_eq hn hd _ _ _), fun hn hlt hdvd hb => execEdf_of_edf_error ?_⟩
  have ha : edfAccepts (s.getP a) imm.toNat := ⟨ne_polyZero_of_deg_pos (by omega), by omega, hn, hdvd⟩
  rw [edfHere, hb]
  exact (edf_of_accepts ha _ _ _).trans (edfLoop_spent (needsSplit_eq_true.mpr ⟨_, List.mem_singleton_self _, hlt⟩) _)

end Sys2Proof.Machine
end

section
/-! The pipeline (R193, R198, R205): the polynomials that the first two stages pass to the equal-degree stage, in order; what each gives; and the factors and roots they make up. -/

namespace Sys2Proof.Machine

/-! ## The degrees of irreducible factors (R191) -/

/-- A polynomial whose irreducible factors all have degree `d` has a degree that `d` divides. -/
theorem dvd_natDegree_of_factors {K : Type*} [Field K] {d : Nat} {F : Polynomial K} (h0 : F ≠ 0)
    (h : ∀ P, Irreducible P → P ∣ F → P.natDegree = d) : d ∣ F.natDegree := by
  induction F using WfDvdMonoid.induction_on_irreducible with
  | zero => exact absurd rfl h0
  | unit u hu => rw [Polynomial.natDegree_eq_zero_of_isUnit hu]; exact dvd_zero d
  | mul a P ha hP ih =>
    rw [Polynomial.natDegree_mul hP.ne_zero ha, h P hP (dvd_mul_right P a)]
    exact (dvd_refl d).add (ih ha fun Q hQ hdvd => h Q hQ (hdvd.mul_left P))

/-- A polynomial of degree below `2 d` whose irreducible factors have degree at least `d` is at most one irreducible factor. -/
theorem natDegree_eq_of_factors_ge {K : Type*} [Field K] {d : Nat} {F : Polynomial K} (h0 : F ≠ 0)
    (hge : ∀ P, Irreducible P → P ∣ F → d ≤ P.natDegree) (hlt : F.natDegree < 2 * d) {P : Polynomial K}
    (hP : Irreducible P) (hdvd : P ∣ F) : P.natDegree = F.natDegree := by
  obtain ⟨Q, rfl⟩ := hdvd
  have hQ0 : Q ≠ 0 := right_ne_zero_of_mul h0
  rw [Polynomial.natDegree_mul hP.ne_zero hQ0] at hlt ⊢
  by_cases hQ : IsUnit Q
  · rw [Polynomial.natDegree_eq_zero_of_isUnit hQ, Nat.add_zero]
  · obtain ⟨R, hR, hRQ⟩ := WfDvdMonoid.exists_irreducible_factor hQ hQ0
    have hle := Polynomial.natDegree_le_of_dvd hRQ hQ0
    have h1 := hge P hP (dvd_mul_right P Q)
    have h2 := hge R hR (hRQ.mul_left P)
    omega

section trace
variable {f left : Poly} {d : Nat} {parts : Factors}

/-- Of a square-free polynomial, the part of trial degree `k` has irreducible factors of degree `k` only. -/
theorem DdfTrace.factorsOfDegree_part (h : DdfTrace f d left parts) (hsep : (toPolynomial f).Separable)
    {e : Poly × Nat} (he : e ∈ parts) : FactorsOfDegree e.2 e.1 := by
  have : Fact (Irreducible fieldModulus) := ⟨fieldModulus_irreducible⟩
  intro P hP hdvd
  obtain ⟨hpos, -⟩ := h.degree e he
  have hle := Nat.le_of_dvd hpos ((irreducible_dvd_trialPoly_iff hP e.2).mp (hdvd.trans (h.dvd e he)))
  by_contra hne
  have hcop := h.coprime_part hsep e he P.natDegree hP.natDegree_pos (by omega)
  exact hP.not_isUnit (hcop.isUnit_of_dvd' ((irreducible_dvd_trialPoly_iff hP _).mpr dvd_rfl) hdvd)

/-- Of a square-free polynomial, the left-over is irreducible or a constant. -/
theorem DdfTrace.factorsOfDegree_rest (h : DdfTrace f d left parts) (hsep : (toPolynomial f).Separable)
    (hlt : deg left < 2 * d) : FactorsOfDegree (deg left) left := by
  have : Fact (Irreducible fieldModulus) := ⟨fieldModulus_irreducible⟩
  intro P hP hdvd
  rw [← h.rest.natDegree_eq] at hlt ⊢
  refine natDegree_eq_of_factors_ge h.rest.toPolynomial_ne_zero (fun Q hQ hQdvd => ?_) hlt hP hdvd
  by_contra hc
  have hcop := h.coprime_rest hsep Q.natDegree hQ.natDegree_pos (not_le.mp hc)
  exact hQ.not_isUnit (hcop.isUnit_of_dvd' ((irreducible_dvd_trialPoly_iff hQ _).mpr dvd_rfl) hQdvd)

end trace

/-- A part of one degree, as the first two stages give it: a monic polynomial whose irreducible factors have degree `d`. -/
structure EqualDegreePart (p : Poly) (d : Nat) : Prop where
  monic : MonicPoly p
  deg_pos : 1 ≤ deg p
  degree_pos : 1 ≤ d
  factors : FactorsOfDegree d p

/-- R191: a monic square-free polynomial is the product of the parts of its distinct-degree list, each of one degree. -/
theorem ddf_equalDegreeParts {f : Poly} (hf : MonicPoly f) (hfree : SquareFree f) :
    ∃ z, ddf f = .ok z ∧ productOfParts z = f ∧ ∀ e ∈ z, EqualDegreePart e.1 e.2 := by
  have hsep := (squareFree_iff hf.nonzero).mp hfree
  obtain ⟨parts, left, d, hddf, h, hlt⟩ := ddf_spec hf.nonzero
  refine ⟨_, hddf, h.product_leftPart hf, fun e he => ?_⟩
  rcases List.mem_append.mp he with he | he
  · exact ⟨(h.monic e he).1, (h.monic e he).2, (h.degree e he).1, h.factorsOfDegree_part hsep he⟩
  · unfold leftPart at he
    split_ifs at he with hpos
    · obtain rfl := List.mem_singleton.mp he
      exact ⟨h.monic_rest hf, hpos, hpos, h.factorsOfDegree_rest hsep hlt⟩
    · exact absurd he List.not_mem_nil

/-! ## One part through the equal-degree stage (R193) -/

section part
variable {p : Poly} {d : Nat}

theorem EqualDegreePart.edfAccepts (h : EqualDegreePart p d) : edfAccepts p d := by
  have : Fact (Irreducible fieldModulus) := ⟨fieldModulus_irreducible⟩
  refine ⟨h.monic.nonzero.ne_zero, h.deg_pos, h.degree_pos, Nat.mod_eq_zero_of_dvd ?_⟩
  rw [← h.monic.nonzero.natDegree_eq]
  exact dvd_natDegree_of_factors h.monic.nonzero.toPolynomial_ne_zero h.factors

theorem factorPart_of_deg_gt {rand : Nat → Word} {budget n : Nat} (h : 1 < deg p) :
    factorPart rand budget n p d = edf rand budget n p d := if_pos h

/-- A part's factors: monic, irreducible, multiplying to it. -/
theorem EqualDegreePart.factorPart_ok (h : EqualDegreePart p d) {rand : Nat → Word} {budget n m : Nat} {z : List Poly}
    (hz : factorPart rand budget n p d = (.ok z, m)) :
    Candidates p z ∧ ∀ u ∈ z, MonicPoly u ∧ IrreduciblePoly u := by
  by_cases hd : 1 < deg p
  · rw [factorPart_of_deg_gt hd] at hz
    obtain ⟨hcand, hle⟩ := edf_candidates h.monic.canonical hz
    exact ⟨hcand, fun u hu => ⟨hcand.monic h.monic u hu, (hcand.irreducible hle h.factors u hu).1⟩⟩
  · rw [factorPart_linear (not_lt.mp hd)] at hz
    cases hz
    have hone : deg p = 1 := le_antisymm (not_lt.mp hd) h.deg_pos
    exact ⟨.singleton h.monic.canonical h.deg_pos,
      by simpa using ⟨h.monic, irreduciblePoly_of_deg_one h.monic.canonical hone⟩⟩

/-- The only error of a part is that of the budget (R193, R198). -/
theorem EqualDegreePart.factorPart_error (h : EqualDegreePart p d) {rand : Nat → Word} {budget n m : Nat} {k : ErrorKind}
    (hk : factorPart rand budget n p d = (.error k, m)) : k = .retryBudgetExceeded ∧ 1 < deg p := by
  by_cases hd : 1 < deg p
  · rw [factorPart_of_deg_gt hd] at hk
    rcases edf_parts h.monic.canonical h.edfAccepts rand budget n with ⟨z, hz, -⟩ | he
    · rw [hk] at hz
      cases hz
    · rw [hk] at he
      cases he
      exact ⟨rfl, hd⟩
  · rw [factorPart_linear (not_lt.mp hd)] at hk
    cases hk

end part

/-! ## The run over all parts (R193) -/

/-- One run after another: the lists joined, the first error ending both (R193). -/
def joinRuns (r : Drawn Factors) (rest : Nat → Drawn Factors) : Drawn Factors :=
  match r with
  | (.error k, m) => (.error k, m)
  | (.ok a, m) => ((rest m).1.map (a ++ ·), (rest m).2)

/-- A part's factors with an exponent. -/
def withExponent (e : Nat) (r : Drawn (List Poly)) : Drawn Factors := (r.1.map fun z => z.map fun u => (u, e), r.2)

/-- The pipeline over parts given with their degrees and exponents. -/
def factorJobs (rand : Nat → Word) (budget : Nat) : List (Poly × Nat × Nat) → Nat → Drawn Factors
  | [], n => (.ok [], n)
  | job :: jobs, n =>
    joinRuns (withExponent job.2.2 (factorPart rand budget n job.1 job.2.1)) (factorJobs rand budget jobs)

@[simp] theorem joinRuns_error (k : ErrorKind) (m : Nat) (rest : Nat → Drawn Factors) :
    joinRuns (.error k, m) rest = (.error k, m) := rfl

@[simp] theorem joinRuns_ok (a : Factors) (m : Nat) (rest : Nat → Drawn Factors) :
    joinRuns (.ok a, m) rest = ((rest m).1.map (a ++ ·), (rest m).2) := rfl

theorem joinRuns_nil (n : Nat) (rest : Nat → Drawn Factors) : joinRuns (.ok [], n) rest = rest n := by
  rcases h : rest n with ⟨k | x, m⟩ <;> simp [h, Except.map]

theorem joinRuns_assoc (r : Drawn Factors) (a b : Nat → Drawn Factors) :
    joinRuns (joinRuns r a) b = joinRuns r fun m => joinRuns (a m) b := by
  obtain ⟨k | x, m⟩ := r
  · rfl
  · rcases h : a m with ⟨k | y, m'⟩
    · simp [h, Except.map]
    · rcases h' : b m' with ⟨k | z, m''⟩ <;> simp [h, h', Except.map]

section runs
variable {rand : Nat → Word} {budget : Nat}

theorem factorJobs_append (a b : List (Poly × Nat × Nat)) (n : Nat) :
    factorJobs rand budget (a ++ b) n = joinRuns (factorJobs rand budget a n) (factorJobs rand budget b) := by
  induction a generalizing n with
  | nil => exact (joinRuns_nil n _).symm
  | cons job a ih =>
    simp only [List.cons_append, factorJobs, joinRuns_assoc]
    exact congrArg _ (funext ih)

/-- R193's loop over a `ddf` list, a run after another. -/
theorem factorDegrees_eq_joinRuns (e n d : Nat) (g : Poly) (rest : Factors) :
    factorDegrees rand budget e n ((g, d) :: rest) =
      joinRuns (withExponent e (factorPart rand budget n g d)) fun m => factorDegrees rand budget e m rest := by
  rcases hp : factorPart rand budget n g d with ⟨k | parts, m⟩
  · simp [factorDegrees, hp, withExponent, Except.map]
  · rcases ho : factorDegrees rand budget e m rest with ⟨k | out, m'⟩ <;>
      simp [factorDegrees, hp, ho, withExponent, Except.map]

/-- R193's loop over an `sff` list, a run after another. -/
theorem factorSquares_eq_joinRuns {s : Poly} {z : Factors} (hz : ddf s = .ok z) (e n : Nat) (rest : Factors) :
    factorSquares rand budget n ((s, e) :: rest) =
      joinRuns (factorDegrees rand budget e n z) fun m => factorSquares rand budget m rest := by
  rcases ha : factorDegrees rand budget e n z with ⟨k | a, m⟩
  · simp [factorSquares, hz, ha]
  · rcases hb : factorSquares rand budget m rest with ⟨k | b, m'⟩ <;> simp [factorSquares, hz, ha, hb, Except.map]

theorem factorDegrees_eq_factorJobs (e : Nat) (z : Factors) (n : Nat) :
    factorDegrees rand budget e n z = factorJobs rand budget (z.map fun p => (p.1, p.2, e)) n := by
  induction z generalizing n with
  | nil => rfl
  | cons x z ih =>
    rw [factorDegrees_eq_joinRuns, List.map_cons, factorJobs]
    exact congrArg _ (funext ih)

/-- The parts that the first two stages pass on, in order, each with its degree and exponent (R193). -/
def jobsOf (squares : Factors) (degrees : Poly → Factors) : List (Poly × Nat × Nat) :=
  squares.flatMap fun e => (degrees e.1).map fun p => (p.1, p.2, e.2)

theorem factorSquares_eq_factorJobs {squares : Factors} {degrees : Poly → Factors}
    (h : ∀ e ∈ squares, ddf e.1 = .ok (degrees e.1)) (n : Nat) :
    factorSquares rand budget n squares = factorJobs rand budget (jobsOf squares degrees) n := by
  induction squares generalizing n with
  | nil => rfl
  | cons x rest ih =>
    have hrest := ih fun y hy => h y (List.mem_cons_of_mem _ hy)
    rw [factorSquares_eq_joinRuns (h x (List.mem_cons_self ..)), jobsOf, List.flatMap_cons, factorJobs_append,
      factorDegrees_eq_factorJobs]
    exact congrArg _ (funext hrest)

end runs

/-! ## The first two stages (R193) -/

/-- A part as the pipeline passes it on: of one degree, with a positive exponent. -/
structure FactorJob (job : Poly × Nat × Nat) : Prop where
  part : EqualDegreePart job.1 job.2.1
  exponent : 1 ≤ job.2.2

/-- The product of the parts to their exponents. -/
noncomputable def jobsProduct (jobs : List (Poly × Nat × Nat)) : Polynomial (AdjoinRoot fieldModulus) :=
  (jobs.map fun job => toPolynomial job.1 ^ job.2.2).prod

theorem jobsProduct_append (a b : List (Poly × Nat × Nat)) : jobsProduct (a ++ b) = jobsProduct a * jobsProduct b := by
  rw [jobsProduct, List.map_append, List.prod_append]
  rfl

theorem list_prod_map_pow {ι M : Type*} [CommMonoid M] (l : List ι) (f : ι → M) (e : Nat) :
    (l.map fun x => f x ^ e).prod = (l.map f).prod ^ e := by
  rw [← powMonoidHom_apply, ← List.prod_hom, List.map_map]
  rfl

/-- The parts of each square-free polynomial multiply to it, so all parts to their exponents multiply to the product. -/
theorem jobsProduct_jobsOf {squares : Factors} {degrees : Poly → Factors}
    (h : ∀ e ∈ squares, productOfParts (degrees e.1) = e.1) :
    jobsProduct (jobsOf squares degrees) = toPolynomial (productOf squares) := by
  induction squares with
  | nil => exact toPolynomial_polyOne.symm
  | cons x rest ih =>
    have hx := congrArg toPolynomial (h x (List.mem_cons_self ..))
    have hfirst : jobsProduct ((degrees x.1).map fun p => (p.1, p.2, x.2)) = toPolynomial x.1 ^ x.2 := by
      rw [← hx, toPolynomial_productOfParts, ← list_prod_map_pow, jobsProduct, List.map_map]
      rfl
    rw [jobsOf, List.flatMap_cons, jobsProduct_append, hfirst, toPolynomial_productOf, List.map_cons, List.prod_cons,
      ← toPolynomial_productOf, ← ih fun y hy => h y (List.mem_cons_of_mem _ hy)]
    rfl

/-- What the first two stages make of a nonzero `f`: its monic form `g`, the square-free list of that, and the parts of each entry. -/
structure FactorStages (f g : Poly) (squares : Factors) (degrees : Poly → Factors) : Prop where
  pMonic_eq : pMonic f = .ok g
  monic : MonicPoly g
  deg_eq : deg g = deg f
  sff_eq : sff g = .ok squares
  ddf_eq : ∀ e ∈ squares, ddf e.1 = .ok (degrees e.1)
  job : ∀ job ∈ jobsOf squares degrees, FactorJob job
  product : jobsProduct (jobsOf squares degrees) = toPolynomial g

theorem exists_factorStages {f : Poly} (hf : NonzeroPoly f) : ∃ g squares degrees, FactorStages f g squares degrees := by
  obtain ⟨g, hg, hgm, hdeg, -⟩ := pMonic_spec hf
  obtain ⟨squares, hsff, hlist⟩ := sff_spec hgm.nonzero
  have hddf : ∀ e ∈ squares, ddf e.1 = .ok ((ddf e.1).toOption.getD []) ∧
      productOfParts ((ddf e.1).toOption.getD []) = e.1 ∧
      ∀ p ∈ (ddf e.1).toOption.getD [], EqualDegreePart p.1 p.2 := fun e he => by
    obtain ⟨z, hz, hparts⟩ := ddf_equalDegreeParts (hlist.monic hgm e he).1 (hlist.entry e he).2
    rw [hz]
    exact ⟨rfl, hparts⟩
  refine ⟨g, squares, fun s => (ddf s).toOption.getD [], hg, hgm, hdeg, hsff, fun e he => (hddf e he).1,
    fun job hjob => ?_, ?_⟩
  · obtain ⟨e, he, hjob⟩ := List.mem_flatMap.mp hjob
    obtain ⟨p, hp, rfl⟩ := List.mem_map.mp hjob
    obtain ⟨k, hk⟩ := hlist.exponent e he
    exact ⟨(hddf e he).2.2 p hp, hk ▸ Nat.one_le_two_pow⟩
  · rw [jobsProduct_jobsOf fun e he => (hddf e he).2.1, hlist.product]

theorem FactorStages.factor_eq {f g : Poly} {squares : Factors} {degrees : Poly → Factors}
    (h : FactorStages f g squares degrees) (rand : Nat → Word) (budget n : Nat) :
    factor rand budget n f = factorJobs rand budget (jobsOf squares degrees) n := by
  rw [factor_of_stages h.pMonic_eq h.sff_eq, factorSquares_eq_factorJobs h.ddf_eq]

/-! ## The run, part by part (R193) -/

/-- A sequence with one more element in front. -/
def consSeq {α : Type} (a : α) (f : Nat → α) : Nat → α
  | 0 => a
  | i + 1 => f i

/-- The list a run writes: for each part in order its factors, with its exponent. -/
def emitted (jobs : List (Poly × Nat × Nat)) (out : Nat → List Poly) : Factors :=
  jobs.zipIdx.flatMap fun x => (out x.2).map fun u => (u, x.1.2.2)

theorem emitted_cons (job : Poly × Nat × Nat) (jobs : List (Poly × Nat × Nat)) (parts : List Poly)
    (out : Nat → List Poly) :
    emitted (job :: jobs) (consSeq parts out) = (parts.map fun u => (u, job.2.2)) ++ emitted jobs out := by
  rw [emitted, List.zipIdx_cons, List.flatMap_cons, List.zipIdx_succ, List.flatMap_map]
  rfl

section run
variable {rand : Nat → Word} {budget n : Nat}

/-- The first `k` parts of a run: part `i` takes its draws from `next i` on and gives the factors `out i`. -/
structure PartsDone (rand : Nat → Word) (budget n : Nat) (jobs : List (Poly × Nat × Nat)) (k : Nat) (next : Nat → Nat)
    (out : Nat → List Poly) : Prop where
  start : next 0 = n
  part : ∀ i p d e, i < k → jobs[i]? = some (p, d, e) →
    factorPart rand budget (next i) p d = (.ok (out i), next (i + 1))

theorem PartsDone.zero (jobs : List (Poly × Nat × Nat)) : PartsDone rand budget n jobs 0 (fun _ => n) fun _ => [] :=
  ⟨rfl, fun i p d e hi => by omega⟩

theorem PartsDone.cons {job : Poly × Nat × Nat} {jobs : List (Poly × Nat × Nat)} {k m : Nat} {next : Nat → Nat}
    {parts : List Poly} {out : Nat → List Poly} (hp : factorPart rand budget n job.1 job.2.1 = (.ok parts, m))
    (h : PartsDone rand budget m jobs k next out) :
    PartsDone rand budget n (job :: jobs) (k + 1) (consSeq n next) (consSeq parts out) where
  start := rfl
  part i p d e hi hjob := by
    cases i with
    | zero =>
      cases hjob
      exact hp.trans (by rw [← h.start]; rfl)
    | succ i => exact h.part i p d e (by omega) hjob

/-- How a run ends: with all parts done, or with a part that uses up its budget. -/
inductive RunEnd (rand : Nat → Word) (budget : Nat) (jobs : List (Poly × Nat × Nat)) (k : Nat) (next : Nat → Nat)
    (out : Nat → List Poly) (r : Drawn Factors) : Prop where
  | done (hk : k = jobs.length) (hr : r = (.ok (emitted jobs out), next k))
  | spent (p : Poly) (d e m : Nat) (hjob : jobs[k]? = some (p, d, e)) (hp : 1 < deg p)
      (hpart : factorPart rand budget (next k) p d = (.error .retryBudgetExceeded, m))
      (hr : r = (.error .retryBudgetExceeded, m))

theorem factorJobs_cons_of_ok {job : Poly × Nat × Nat} {parts : List Poly} {m : Nat}
    (hp : factorPart rand budget n job.1 job.2.1 = (.ok parts, m)) (jobs : List (Poly × Nat × Nat)) :
    factorJobs rand budget (job :: jobs) n = ((factorJobs rand budget jobs m).1.map
      ((parts.map fun u => (u, job.2.2)) ++ ·), (factorJobs rand budget jobs m).2) := by
  rw [factorJobs, hp]
  rfl

theorem factorJobs_cons_of_error {job : Poly × Nat × Nat} {k : ErrorKind} {m : Nat}
    (hp : factorPart rand budget n job.1 job.2.1 = (.error k, m)) (jobs : List (Poly × Nat × Nat)) :
    factorJobs rand budget (job :: jobs) n = (.error k, m) := by
  rw [factorJobs, hp]
  rfl

theorem factorJobs_trace {jobs : List (Poly × Nat × Nat)} (hjobs : ∀ job ∈ jobs, FactorJob job) (n : Nat) :
    ∃ k next out, PartsDone rand budget n jobs k next out ∧
      RunEnd rand budget jobs k next out (factorJobs rand budget jobs n) := by
  induction jobs generalizing n with
  | nil => exact ⟨0, _, _, .zero [], .done rfl rfl⟩
  | cons job jobs ih =>
    rcases hp : factorPart rand budget n job.1 job.2.1 with ⟨k | parts, m⟩
    · obtain ⟨rfl, hdeg⟩ := (hjobs job (List.mem_cons_self ..)).part.factorPart_error hp
      exact ⟨0, _, _, .zero _, .spent job.1 job.2.1 job.2.2 m rfl hdeg hp (factorJobs_cons_of_error hp jobs)⟩
    · obtain ⟨k, next, out, hdone, hend⟩ := ih (fun j hj => hjobs j (List.mem_cons_of_mem _ hj)) m
      refine ⟨k + 1, _, _, hdone.cons hp, ?_⟩
      rw [factorJobs_cons_of_ok hp]
      cases hend with
      | done hk hr => exact .done (congrArg (· + 1) hk) (by rw [hr, emitted_cons]; rfl)
      | spent p d e m' hjob hdeg hpart hr => exact .spent p d e m' hjob hdeg hpart (by rw [hr]; rfl)

end run

/-- Settles O49: the run over the parts that the first two stages pass on, by induction on the parts. -/
theorem factorStageByStage : Obligations.FactorStageByStage := by
  intro rand budget n f hf h0
  obtain ⟨g, squares, degrees, hstages⟩ := exists_factorStages ⟨hf, h0⟩
  obtain ⟨k, next, out, hdone, hend⟩ := factorJobs_trace (rand := rand) (budget := budget) hstages.job n
  refine ⟨g, squares, degrees, hstages.pMonic_eq, hstages.sff_eq, hstages.ddf_eq, k, next, out, hdone.start,
    fun i p d e hi hjob => ⟨fun hdeg => ?_, fun hdeg => ?_⟩, ?_⟩
  · rw [← factorPart_of_deg_gt hdeg]
    exact hdone.part i p d e hi hjob
  · have hpart := hdone.part i p d e hi hjob
    rw [factorPart_linear hdeg] at hpart
    obtain ⟨hout, hnext⟩ := Prod.mk.inj hpart
    exact ⟨(Except.ok.inj hout).symm, hnext.symm⟩
  · rw [hstages.factor_eq]
    cases hend with
    | done hk hr => exact .inl ⟨hk, hr⟩
    | spent p d e m hjob hdeg hpart hr =>
      exact .inr ⟨p, d, e, m, hjob, hdeg, (factorPart_of_deg_gt hdeg).symm.trans hpart, hr⟩

end Sys2Proof.Machine
end

section
/-! The factors and roots of a polynomial (R193, R198, R205), the command `FACTOR`, and the commands that read the list (R199 to R201). -/

namespace Sys2Proof.Machine

/-! ## The factors of a run (R193) -/

/-- Monic irreducible polynomials with positive exponents. -/
def IrreducibleFactors (z : Factors) : Prop := ∀ e ∈ z, MonicPoly e.1 ∧ IrreduciblePoly e.1 ∧ 1 ≤ e.2

section run
variable {rand : Nat → Word} {budget n m : Nat} {jobs : List (Poly × Nat × Nat)}

theorem factorJobs_factors (hjobs : ∀ job ∈ jobs, FactorJob job) {z : Factors}
    (h : factorJobs rand budget jobs n = (.ok z, m)) :
    toPolynomial (productOf z) = jobsProduct jobs ∧ IrreducibleFactors z := by
  induction jobs generalizing n m z with
  | nil =>
    cases h
    exact ⟨toPolynomial_polyOne, by simp [IrreducibleFactors]⟩
  | cons job jobs ih =>
    have hjob := hjobs job (List.mem_cons_self ..)
    rcases hp : factorPart rand budget n job.1 job.2.1 with ⟨k | parts, m'⟩
    · rw [factorJobs_cons_of_error hp] at h
      cases h
    rw [factorJobs_cons_of_ok hp] at h
    rcases hr : factorJobs rand budget jobs m' with ⟨k | out, m''⟩
    · rw [hr] at h
      cases h
    obtain ⟨hprod, hirr⟩ := ih (fun j hj => hjobs j (List.mem_cons_of_mem _ hj)) hr
    obtain ⟨hcand, hparts⟩ := hjob.part.factorPart_ok hp
    rw [hr] at h
    cases h
    constructor
    · rw [toPolynomial_productOf, List.map_append, List.prod_append, List.map_map, ← toPolynomial_productOf, hprod,
        jobsProduct, jobsProduct, List.map_cons, List.prod_cons, ← hcand.product, ← list_prod_map_pow]
      rfl
    · intro e he
      rcases List.mem_append.mp he with he | he
      · obtain ⟨u, hu, rfl⟩ := List.mem_map.mp he
        exact ⟨(hparts u hu).1, (hparts u hu).2, hjob.exponent⟩
      · exact hirr e he

/-- Linear parts are factors as they stand, without a draw. -/
theorem factorJobs_linear (hjobs : ∀ job ∈ jobs, deg job.1 ≤ 1) (n : Nat) :
    factorJobs rand budget jobs n = (.ok (jobs.map fun job => (job.1, job.2.2)), n) := by
  induction jobs with
  | nil => rfl
  | cons job jobs ih =>
    rw [factorJobs_cons_of_ok (factorPart_linear (hjobs job (List.mem_cons_self ..))),
      ih fun j hj => hjobs j (List.mem_cons_of_mem _ hj)]
    rfl

end run

section stages
variable {f g : Poly} {squares : Factors} {degrees : Poly → Factors}

theorem FactorStages.deg_le (h : FactorStages f g squares degrees) {job : Poly × Nat × Nat}
    (hjob : job ∈ jobsOf squares degrees) : deg job.1 ≤ deg f := by
  have hj := h.job job hjob
  have hdvd : toPolynomial job.1 ∣ toPolynomial g := by
    rw [← h.product]
    exact (dvd_pow_self _ (Nat.one_le_iff_ne_zero.mp hj.exponent)).trans (List.dvd_prod (List.mem_map_of_mem hjob))
  exact h.deg_eq ▸ h.monic.nonzero.deg_le_of_dvd hj.part.monic.nonzero hdvd

end stages

/-! ## `factor` (R193, R198, R205) -/

section factor
variable {rand : Nat → Word} {budget n m : Nat} {f : Poly}

theorem factor_polyZero : factor rand budget n polyZero = (.error .divisionByZero, n) := rfl

/-- R205: the factors of a result multiply to the monic form. -/
theorem factor_factors {z : Factors} (hf : NonzeroPoly f) (h : factor rand budget n f = (.ok z, m)) :
    pMonic f = .ok (productOf z) ∧ IrreducibleFactors z := by
  obtain ⟨g, squares, degrees, hstages⟩ := exists_factorStages hf
  rw [hstages.factor_eq] at h
  obtain ⟨hprod, hirr⟩ := factorJobs_factors hstages.job h
  refine ⟨?_, hirr⟩
  rw [(productOf_canonical z).eq_of_toPolynomial hstages.monic.canonical (hprod.trans hstages.product), hstages.pMonic_eq]

/-- R198: the only error of a nonzero polynomial is that of the budget. -/
theorem factor_error {k : ErrorKind} (hf : NonzeroPoly f) (h : factor rand budget n f = (.error k, m)) :
    k = .retryBudgetExceeded := by
  obtain ⟨g, squares, degrees, hstages⟩ := exists_factorStages hf
  obtain ⟨k', next, out, -, hend⟩ := factorJobs_trace (rand := rand) (budget := budget) hstages.job n
  rw [← hstages.factor_eq, h] at hend
  cases hend with
  | done _ hr => cases hr
  | spent _ _ _ _ _ _ _ hr => cases hr; rfl

theorem factor_of_deg_le_one (hf : NonzeroPoly f) (hd : deg f ≤ 1) (rand : Nat → Word) (budget n : Nat) :
    ∃ z, factor rand budget n f = (.ok z, n) := by
  obtain ⟨g, squares, degrees, hstages⟩ := exists_factorStages hf
  exact ⟨_, (hstages.factor_eq rand budget n).trans
    (factorJobs_linear (fun job hjob => (hstages.deg_le hjob).trans hd) n)⟩

/-- R198: a constant has no factors. -/
theorem factor_constant (hf : NonzeroPoly f) (hd : deg f = 0) (rand : Nat → Word) (budget n : Nat) :
    factor rand budget n f = (.ok [], n) := by
  obtain ⟨z, hz⟩ := factor_of_deg_le_one hf (by omega) rand budget n
  have hlen := (factor_parts hf.canonical hz).parts.length_le
  rw [hd, List.length_map] at hlen
  rw [hz, List.length_eq_zero_iff.mp (Nat.le_zero.mp hlen)]

/-- R198: a linear polynomial has its monic form as its one factor. -/
theorem factor_linear (hf : Canonical f) (hd : deg f = 1) (rand : Nat → Word) (budget n : Nat) :
    ∃ g, pMonic f = .ok g ∧ factor rand budget n f = (.ok [(g, 1)], n) := by
  have hn := nonzero_of_deg_pos hf hd.ge
  obtain ⟨z, hz⟩ := factor_of_deg_le_one hn hd.le rand budget n
  obtain ⟨hprod, hirr⟩ := factor_factors hn hz
  obtain ⟨g, hg, -, hdeg, -⟩ := pMonic_spec hn
  obtain rfl : productOf z = g := Except.ok.inj (hprod.symm.trans hg)
  have hparts := factor_parts hf hz
  have hlen := hparts.parts.length_le
  rw [hd, List.length_map] at hlen
  match z, hlen with
  | [], _ => rw [hd] at hdeg; exact absurd hdeg (by decide)
  | [(u, e)], _ =>
    obtain ⟨hu, -, he⟩ := hirr (u, e) (List.mem_singleton_self _)
    obtain rfl : e = 1 := le_antisymm (hd ▸ hparts.ints (u, e) (List.mem_singleton_self _)) he
    have hone : productOf [(u, 1)] = u :=
      (productOf_canonical _).eq_of_toPolynomial hu.canonical (by simp)
    exact ⟨u, hone ▸ hprod, hz⟩

end factor

/-! ## Roots (R193, R205) -/

theorem mem_roots {z : Factors} {x : Word} : x ∈ roots z ↔ ∃ e ∈ z, deg e.1 = 1 ∧ x = coeffAt e.1 0 := by
  simp only [roots, List.mem_map, List.mem_filter, beq_iff_eq, and_assoc, eq_comm (a := x)]

theorem evalAt_productOf_eq_zero_iff {z : Factors} (hz : ∀ e ∈ z, 1 ≤ e.2) (x : Word) :
    evalAt x (productOf z) = 0 ↔ ∃ e ∈ z, evalAt x e.1 = 0 := by
  have := field_isDomain
  simp only [evalAt_eq_zero_iff, Polynomial.IsRoot, toPolynomial_productOf, Polynomial.eval_list_prod,
    List.prod_eq_zero_iff, List.map_map, List.mem_map, Function.comp_def, Polynomial.eval_pow]
  refine exists_congr fun e => and_congr_right fun he => pow_eq_zero_iff ?_
  exact Nat.one_le_iff_ne_zero.mp (hz e he)

/-- The monic form has the roots of the polynomial. -/
theorem evalAt_pMonic_eq_zero_iff {f g : Poly} (hf : NonzeroPoly f) (hg : pMonic f = .ok g) (x : Word) :
    evalAt x g = 0 ↔ evalAt x f = 0 := by
  rw [evalAt_eq_zero_iff, evalAt_eq_zero_iff, ← Polynomial.dvd_iff_isRoot, ← Polynomial.dvd_iff_isRoot,
    pMonic_divisors hf hg]

/-- An irreducible polynomial with a root is linear. -/
theorem evalAt_irreducible_iff {p : Poly} (hp : MonicPoly p) (hirr : IrreduciblePoly p) (x : Word) :
    evalAt x p = 0 ↔ deg p = 1 ∧ x = coeffAt p 0 := by
  have : Fact (Irreducible fieldModulus) := ⟨fieldModulus_irreducible⟩
  constructor
  · intro hx
    have hroot := (evalAt_eq_zero_iff x p).mp hx
    have hdeg := Polynomial.degree_eq_one_of_irreducible_of_root (hp.nonzero.irreduciblePoly_iff.mp hirr) hroot
    rw [hp.nonzero.degree_eq] at hdeg
    have hone : deg p = 1 := by exact_mod_cast hdeg
    exact ⟨hone, (evalAt_linear_iff hp hone x).mp hx⟩
  · rintro ⟨hone, hx⟩
    exact (evalAt_linear_iff hp hone x).mpr hx

/-- R193: the roots of the input are the constant coefficients of its linear factors. -/
theorem evalAt_eq_zero_iff_mem_roots {rand : Nat → Word} {budget n m : Nat} {f : Poly} {z : Factors}
    (hf : NonzeroPoly f) (h : factor rand budget n f = (.ok z, m)) (x : Word) : evalAt x f = 0 ↔ x ∈ roots z := by
  obtain ⟨hmonic, hirr⟩ := factor_factors hf h
  rw [← evalAt_pMonic_eq_zero_iff hf hmonic, evalAt_productOf_eq_zero_iff fun e he => (hirr e he).2.2, mem_roots]
  exact exists_congr fun e => and_congr_right fun he => evalAt_irreducible_iff (hirr e he).1 (hirr e he).2.1 x

/-! ## The command `FACTOR` (R198) -/

section command
variable {s : State} {a : Reg} {m : Nat}

theorem execFactor_of_factor_ok {z : Factors} (h : factorHere s (s.getP a) = (.ok z, m)) :
    execFactor a s = .next ((s.setDrawn m).setResults z).advance := by
  rw [execFactor, h]
  rfl

theorem execFactor_of_factor_error {k : ErrorKind} (h : factorHere s (s.getP a) = (.error k, m)) :
    execFactor a s = .next (errorEntry k 0 (s.setDrawn m)) := by
  rw [execFactor, h]
  rfl

end command

/-- Settles O47: parts of degree at most 1 need no draw, and their degrees and exponents are bounded by that of the input. -/
theorem factorOfDegreeAtMostOneCompletes : Obligations.FactorOfDegreeAtMostOneCompletes := by
  refine fun s a hi => ⟨standsFor_of_encode_eq rfl rfl, fun h0 => execFactor_of_factor_error (m := s.drawn) ?_,
    fun h0 hd => execFactor_of_factor_ok (factor_constant ⟨hi.canonical a, h0⟩ hd _ _ _), fun hd => ?_⟩
  · rw [h0]
    exact factor_polyZero
  · obtain ⟨g, hg, hfactor⟩ := factor_linear (hi.canonical a) hd Config.rand128 s.edfbudget.toNat s.drawn
    exact ⟨g, hg, execFactor_of_factor_ok hfactor⟩

/-- Settles O48: the parts multiply to the monic form and give irreducible factors, of which only a linear one has a root; the command's ends from what its function can give. -/
theorem factorsMultiplyBack : Obligations.FactorsMultiplyBack := by
  constructor
  · intro rand budget n m f z hf h
    have hn : NonzeroPoly f := ⟨hf, by rintro rfl; cases h⟩
    obtain ⟨hmonic, hirr⟩ := factor_factors hn h
    refine ⟨⟨_, hmonic, rfl⟩, fun e he => ?_, evalAt_eq_zero_iff_mem_roots hn h, fun x => mem_roots, fun hd => ?_⟩
    · obtain ⟨hem, hei, hpos⟩ := hirr e he
      exact ⟨hem.isMonic, hei, hpos⟩
    · obtain ⟨z', hz'⟩ := factor_of_deg_le_one hn hd.le rand budget n
      exact (Prod.mk.inj (h.symm.trans hz')).2
  · intro s a hi
    rcases hr : factorHere s (s.getP a) with ⟨k | z, m⟩ <;> obtain rfl := congrArg Prod.snd hr
    · refine .inr ⟨k, congrArg Prod.fst hr, ?_, execFactor_of_factor_error hr⟩
      by_cases h0 : s.getP a = polyZero
      · have hk := congrArg Prod.fst hr
        rw [h0] at hk
        cases hk
        exact .inl ⟨rfl, h0⟩
      · exact .inr ⟨factor_error ⟨hi.canonical a, h0⟩ hr, h0⟩
    · exact .inl ⟨z, congrArg Prod.fst hr, execFactor_of_factor_ok hr⟩

/-! ## The commands that read the list (R199 to R201) -/

theorem listEntry_of_lt {s : State} {i : Nat} (h : i < s.results.length) : listEntry s i = .ok s.results[i] := by
  simp only [listEntry, List.getElem?_eq_getElem h]

theorem listEntry_of_le {s : State} {i : Nat} (h : s.results.length ≤ i) :
    listEntry s i = .error .preconditionViolation := by
  simp only [listEntry, List.getElem?_eq_none h]

/-- Settles O50: an entry within the list fits its register, and beyond the list there is none. -/
theorem listCommandsComplete : Obligations.ListCommandsComplete := by
  refine fun s d n hi hfits => ⟨standsFor_of_encode_eq rfl rfl, standsFor_of_encode_eq rfl rfl,
    standsFor_of_encode_eq rfl rfl, rfl, fun h => ⟨?_, ?_⟩, fun h => ⟨?_, ?_⟩⟩
  · have hmem := List.getElem_mem h
    have hget : execLgetp d n s = putP s d (.ok (s.results[n.toNat]'h).1) := by
      rw [execLgetp, immNat, listEntry_of_lt h]
      rfl
    exact hget.trans (putP_of_canonical rfl ⟨hi.list _ hmem, (hfits.2 _ hmem).1⟩)
  · show execLgetn d n s = _
    rw [execLgetn, immNat, listEntry_of_lt h]
    rfl
  · show execLgetp d n s = _
    rw [execLgetp, immNat, listEntry_of_le h]
    rfl
  · show execLgetn d n s = _
    rw [execLgetn, immNat, listEntry_of_le h]
    rfl

end Sys2Proof.Machine
end

section
/-! The padded blocks, the length block and counter mode, byte by byte (R231, R232, R234). -/

namespace Sys2Proof.Machine

/-! ## The blocks and the length block (R231, R232) -/

theorem blockAt_byte (s : Bytes) (m : Nat) {j : Nat} (hj : j < 16) :
    (blockAt s m).extractLsb' (8 * j) 8 = s.getD (16 * m + j) 0 := by
  rw [blockAt, wordOfBytes_byte _ hj]
  simp [hj]

theorem padBlocks_getD (s : Bytes) {m : Nat} (hm : m < blockCount s.length) : (padBlocks s).getD m 0 = blockAt s m := by
  simp [padBlocks, hm]

theorem bigEndian_length (n v : Nat) : (bigEndian n v).length = n := by simp [bigEndian]

/-- R55: byte `j` of the big-endian form is the number without its `n - 1 - j` low bytes, modulo 256. -/
theorem bigEndian_byte_toNat (n v : Nat) {j : Nat} (hj : j < n) :
    ((bigEndian n v).getD j 0).toNat = v >>> (8 * (n - 1 - j)) % 256 := by
  simp [bigEndian, hj]

theorem lenBlock_ad_byte (ad ct : Bytes) {j : Nat} (hj : j < 8) :
    ((lenBlock ad ct).extractLsb' (8 * j) 8).toNat = (8 * ad.length) >>> (8 * (7 - j)) % 256 := by
  rw [lenBlock, wordOfBytes_byte _ (by omega), List.getD_append _ _ _ _ (by rwa [bigEndian_length]),
    bigEndian_byte_toNat _ _ hj]

theorem lenBlock_ct_byte (ad ct : Bytes) {j : Nat} (hj : j < 8) :
    ((lenBlock ad ct).extractLsb' (8 * (8 + j)) 8).toNat = (8 * ct.length) >>> (8 * (7 - j)) % 256 := by
  rw [lenBlock, wordOfBytes_byte _ (by omega), List.getD_append_right _ _ _ _ (by rw [bigEndian_length]; omega),
    bigEndian_length, Nat.add_sub_cancel_left, bigEndian_byte_toNat _ _ hj]

/-- Settles O52: the bytes of a block and of the length block are those of the strings they pack. -/
theorem blocksAndLengthBlock : Obligations.BlocksAndLengthBlock := by
  refine ⟨fun s => ⟨padBlocks_length s, fun m j hm hj => ?_⟩, fun ad ct _ _ j hj =>
    ⟨lenBlock_ad_byte ad ct (by omega), lenBlock_ct_byte ad ct (by omega)⟩⟩
  rw [padBlocks_getD s hm, blockAt_byte s m hj]
  split_ifs with h
  · exact List.getD_eq_getElem _ _ h
  · exact List.getD_eq_default _ _ (by omega)

/-! ## Counter mode (R234) -/

theorem ctrBlock_nonce_byte {nonce : Bytes} (hn : nonce.length = 12) (c : Nat) {j : Nat} (hj : j < 12) :
    (ctrBlock nonce c).extractLsb' (8 * j) 8 = nonce.getD j 0 := by
  rw [ctrBlock, wordOfBytes_byte _ (by omega), List.getD_append _ _ _ _ (by omega)]

theorem ctrBlock_counter_byte {nonce : Bytes} (hn : nonce.length = 12) (c : Nat) {j : Nat} (hj : j < 4) :
    ((ctrBlock nonce c).extractLsb' (8 * (12 + j)) 8).toNat = c >>> (8 * (3 - j)) % 256 := by
  rw [ctrBlock, wordOfBytes_byte _ (by omega), List.getD_append_right _ _ _ _ (by omega), hn,
    Nat.add_sub_cancel_left, bigEndian_byte_toNat _ _ hj]

/-- Byte `k` of the whole keystream: byte `k % 16` of keystream block `k / 16`. -/
def keystreamByte (cipher : Word → Word → Word) (key : Word) (nonce : Bytes) (k : Nat) : Byte :=
  (cipher key (ctrBlock nonce ((2 + k / 16) % 2 ^ 32))).extractLsb' (8 * (k % 16)) 8

theorem keystream_getElem (cipher : Word → Word → Word) (key : Word) (nonce : Bytes) (m : Nat) {j : Nat}
    (hj : j < (keystream cipher key nonce m).length) :
    (keystream cipher key nonce m)[j] = keystreamByte cipher key nonce (16 * m + j) := by
  rw [keystream_length] at hj
  have hdiv : (16 * m + j) / 16 = m := by omega
  have hmod : (16 * m + j) % 16 = j := by omega
  simp [keystream, bytesOfWord, keystreamByte, hdiv, hmod]

/-- A data block of at most 16 bytes, xored with its keystream block, is each byte xored with its keystream byte. -/
theorem zipWith_keystream (cipher : Word → Word → Word) (key : Word) (nonce : Bytes) (m : Nat) {block : Bytes}
    (hb : block.length ≤ 16) :
    List.zipWith (fun d k => d ^^^ k) block (keystream cipher key nonce m) =
      block.mapIdx (fun j d => d ^^^ keystreamByte cipher key nonce (16 * m + j)) := by
  refine List.ext_getElem (by simpa [keystream_length] using hb) fun j hj _ => ?_
  rw [List.getElem_zipWith, keystream_getElem, List.getElem_mapIdx]

/-- A list mapped with its indexes is its blocks of 16 mapped, one after another; the last may be short. -/
theorem mapIdx_take_eq_flatMap_blocks {α β : Type} (g : Nat → α → β) (l : List α) (n : Nat) :
    (l.take (16 * n)).mapIdx g =
      (List.range n).flatMap (fun m => ((l.drop (16 * m)).take 16).mapIdx (fun j => g (16 * m + j))) := by
  induction n with
  | zero => simp
  | succ n ih =>
    rw [List.range_succ, List.flatMap_append, ← ih, List.flatMap_singleton, Nat.mul_succ, List.take_add,
      List.mapIdx_append]
    rcases Nat.le_total (16 * n) l.length with h | h
    · simp [Nat.min_eq_left h, Nat.add_comm]
    · simp [List.drop_eq_nil_of_le h]

/-- R234: counter mode xors each byte of the data with the keystream byte of its place, so the result is as long as the data. -/
theorem ctrXcrypt_eq_mapIdx (cipher : Word → Word → Word) (key : Word) (nonce data : Bytes) :
    ctrXcrypt cipher key nonce data = data.mapIdx (fun k d => d ^^^ keystreamByte cipher key nonce k) := by
  have hall : data.take (16 * blockCount data.length) = data := List.take_of_length_le (by unfold blockCount; omega)
  calc ctrXcrypt cipher key nonce data
      = (List.range (blockCount data.length)).flatMap (fun m => ((data.drop (16 * m)).take 16).mapIdx
          (fun j d => d ^^^ keystreamByte cipher key nonce (16 * m + j))) := by
        simp only [ctrXcrypt, zipWith_keystream cipher key nonce _ (List.length_take_le _ _)]
    _ = data.mapIdx (fun k d => d ^^^ keystreamByte cipher key nonce k) := by
        rw [← mapIdx_take_eq_flatMap_blocks (fun k d => d ^^^ keystreamByte cipher key nonce k), hall]

theorem ctrXcrypt_length (cipher : Word → Word → Word) (key : Word) (nonce data : Bytes) :
    (ctrXcrypt cipher key nonce data).length = data.length := by
  rw [ctrXcrypt_eq_mapIdx, List.length_mapIdx]

/-- Settles O54: each byte with its keystream byte, and the counter block from its two parts. -/
theorem counterModeByteByByte : Obligations.CounterModeByteByByte := by
  refine fun cipher key nonce data hn => ⟨ctrXcrypt_length _ _ _ _, fun k hk => ?_, fun c _ =>
    ⟨fun j hj => ctrBlock_nonce_byte hn c (by omega), fun j hj => ctrBlock_counter_byte hn c (by omega)⟩⟩
  rw [ctrXcrypt_eq_mapIdx]
  simp [hk, keystreamByte]

/-- R240: counter mode is its own inverse for fixed key and nonce. -/
theorem ctrXcrypt_ctrXcrypt (cipher : Word → Word → Word) (key : Word) (nonce data : Bytes) :
    ctrXcrypt cipher key nonce (ctrXcrypt cipher key nonce data) = data := by
  refine List.ext_getElem (by simp only [ctrXcrypt_length]) fun k _ _ => ?_
  simp [ctrXcrypt_eq_mapIdx]

end Sys2Proof.Machine
end

section
/-! The hash of two ciphertexts that differ in one byte (R233), and the round trip of the GCM composition (R235, R236, R240). -/

namespace Sys2Proof.Machine

/-! ## Horner's accumulation under a nonzero hash key (R233) -/

/-- Multiplication by a nonzero hash key loses nothing. -/
theorem feMul_right_injective {h : Word} (hh : h ≠ 0) : Function.Injective (fun x => feMul x h) := by
  have := field_isDomain
  intro x y hxy
  have hmul := congrArg toField hxy
  simp only [toField_feMul] at hmul
  exact toField_injective (mul_right_cancel₀ (mt toField_eq_zero.mp hh) hmul)

theorem hornerBlocks_cons (h y x : Word) (blocks : List Word) :
    hornerBlocks h y (x :: blocks) = hornerBlocks h (feMul (y ^^^ x) h) blocks := rfl

theorem hornerBlocks_append (h y : Word) (blocks rest : List Word) :
    hornerBlocks h y (blocks ++ rest) = hornerBlocks h (hornerBlocks h y blocks) rest := List.foldl_append

/-- Under a nonzero hash key, different accumulators stay different through the same blocks. -/
theorem hornerBlocks_injective {h : Word} (hh : h ≠ 0) (blocks : List Word) :
    Function.Injective (fun y => hornerBlocks h y blocks) := by
  induction blocks with
  | nil => exact Function.injective_id
  | cons x blocks ih =>
    intro y z hyz
    exact (BitVec.xor_left_inj x).mp (feMul_right_injective hh (ih hyz))

/-- Under a nonzero hash key, one changed block changes the accumulated value. -/
theorem hornerBlocks_ne_of_block_ne {h : Word} (hh : h ≠ 0) (y : Word) (before after : List Word) {x z : Word}
    (hxz : x ≠ z) : hornerBlocks h y (before ++ x :: after) ≠ hornerBlocks h y (before ++ z :: after) := by
  intro heq
  simp only [hornerBlocks_append, hornerBlocks_cons] at heq
  exact hxz ((BitVec.xor_right_inj _).mp (feMul_right_injective hh (hornerBlocks_injective hh after heq)))

/-! ## A changed byte in a byte string (R231, R233) -/

section
variable (s : Bytes) (j : Nat) (b : Byte)

theorem blockAt_set_of_ne {m : Nat} (hm : m ≠ j / 16) : blockAt (s.set j b) m = blockAt s m := by
  refine word_ext_bytes fun k hk => ?_
  have hne : j ≠ 16 * m + k := by omega
  simp [blockAt_byte _ _ hk, List.getD_eq_getElem?_getD, hne]

/-- A changed byte changes its own block only. -/
theorem padBlocks_set : padBlocks (s.set j b) = (padBlocks s).set (j / 16) (blockAt (s.set j b) (j / 16)) := by
  refine List.ext_getElem (by simp [padBlocks_length]) fun m _ _ => ?_
  rw [List.getElem_set]
  split_ifs with hm
  · simp [padBlocks, hm]
  · simp [padBlocks, blockAt_set_of_ne s j b (Ne.symm hm)]

variable {s j b}

theorem blockAt_set_ne (hj : j < s.length) (hb : b ≠ s[j]) : blockAt (s.set j b) (j / 16) ≠ blockAt s (j / 16) := by
  intro heq
  have hbyte := congrArg (fun w : Word => w.extractLsb' (8 * (j % 16)) 8) heq
  have hmod : j % 16 < 16 := Nat.mod_lt _ (by omega)
  simp only [blockAt_byte _ _ hmod, Nat.div_add_mod] at hbyte
  exact hb (by simpa [hj] using hbyte)

/-- The length block depends on the lengths only, which a changed byte keeps. -/
theorem lenBlock_set (ad : Bytes) : lenBlock ad (s.set j b) = lenBlock ad s := by
  simp only [lenBlock, List.length_set]

/-- R240: under a nonzero hash key, a changed ciphertext byte changes the hash. -/
theorem ghash_set_ne (ad : Bytes) {h : Word} (hh : h ≠ 0) (hj : j < s.length) (hb : b ≠ s[j]) :
    (ghash ad (s.set j b) h).1 ≠ (ghash ad s h).1 := by
  have hm : j / 16 < (padBlocks s).length := by rw [padBlocks_length, blockCount]; omega
  have hown : (padBlocks s).set (j / 16) (blockAt s (j / 16)) = padBlocks s := by
    rw [← padBlocks_getD s (padBlocks_length s ▸ hm), List.getD_eq_getElem _ _ hm, List.set_getElem_self]
  have hsplit (x : Word) : padBlocks ad ++ (padBlocks s).set (j / 16) x =
      padBlocks ad ++ (padBlocks s).take (j / 16) ++ x :: (padBlocks s).drop (j / 16 + 1) := by
    rw [List.set_eq_take_cons_drop _ hm, List.append_assoc]
  have hne := hornerBlocks_ne_of_block_ne hh 0 (padBlocks ad ++ (padBlocks s).take (j / 16))
    ((padBlocks s).drop (j / 16 + 1)) (blockAt_set_ne hj hb)
  rw [← hsplit, ← hsplit, ← padBlocks_set, hown] at hne
  intro heq
  rw [ghash, ghash, lenBlock_set] at heq
  exact hne ((BitVec.xor_left_inj _).mp (feMul_right_injective hh heq))

end

/-- Under the zero hash key every hash is zero. -/
theorem ghash_zero (ad ct : Bytes) : (ghash ad ct 0).1 = 0 := feMul_zero _

/-! ## The GCM composition (R235, R236, R240) -/

section
variable (cipher : Word → Word → Word) (key : Word) (nonce ct ad : Bytes)

theorem authOf_eq_true_iff {x y : Word} : authOf x y = true ↔ x = y := beq_iff_eq

theorem authOf_eq_false_iff {x y : Word} : authOf x y = false ↔ x ≠ y := beq_eq_false_iff_ne

/-- Two ciphertexts have the same tag exactly when they have the same hash. -/
theorem gcmTag_eq_iff {ct' : Bytes} : gcmTag cipher key nonce ct ad = gcmTag cipher key nonce ct' ad ↔
    (ghash ad ct (hashKey cipher key)).1 = (ghash ad ct' (hashKey cipher key)).1 := BitVec.xor_left_inj _

/-- Whatever the tag, decryption gives back the plaintext; the flag says whether the tag is the computed one. -/
theorem gcmDecrypt_gcmEncrypt (pt : Bytes) (tag : Word) :
    gcmDecrypt cipher key nonce (gcmEncrypt cipher key nonce pt ad).1 ad tag =
      (pt, authOf (gcmEncrypt cipher key nonce pt ad).2 tag) := by
  simp only [gcmDecrypt, gcmEncrypt, ctrXcrypt_ctrXcrypt]

end

/-- Settles O55: counter mode is its own inverse and both directions hash the ciphertext; a changed byte changes the hash unless the hash key is zero, under which every hash is zero. -/
theorem gcmRoundTrip : Obligations.GcmRoundTrip := by
  intro cipher key nonce pt ad c
  refine ⟨?_, fun tag htag => ?_, fun j hj b hb => ⟨fun hkey => ?_, fun hkey => ?_⟩⟩
  · rw [gcmDecrypt_gcmEncrypt, authOf_eq_true_iff.mpr rfl]
  · rw [gcmDecrypt_gcmEncrypt, authOf_eq_false_iff.mpr htag.symm]
  · exact authOf_eq_false_iff.mpr (mt (gcmTag_eq_iff ..).mp (ghash_set_ne ad hkey hj hb))
  · refine authOf_eq_true_iff.mpr ((gcmTag_eq_iff ..).mpr ?_)
    rw [hkey, ghash_zero, ghash_zero]

end Sys2Proof.Machine
end

section
/-! The GHASH and GCM commands (R237 to R239): the word each stands for and its next state. -/

namespace Sys2Proof.Machine

/-- R230: a byte string within the capacity is written, what follows the write is done, and `pc` advances. -/
theorem finish_writeB_of_le {s : State} {r : Reg} {b : Bytes} (hb : b.length ≤ s.params.maxBytes) (g : State → State) :
    finish s ((writeB s r b).map g) = .next (g (s.setB r b)).advance := by
  rw [writeB_eq_ok.mpr ⟨hb, rfl⟩]
  rfl

/-- Settles O56: GHASH writes registers only, and the text that GCMENC or GCMDEC writes is as long as the one it reads, which fits. -/
theorem gcmCommandsComplete : Obligations.GcmCommandsComplete := by
  intro s d c a b e f hi x y
  have htext (data : Bytes) (hd : data.length ≤ s.params.maxBytes) :
      (ctrXcrypt Config.encryptBlock (s.getF a) (nonceOf (s.getF b)) data).length ≤ s.params.maxBytes :=
    (ctrXcrypt_length _ _ _ _).trans_le hd
  refine ⟨fun hne => ?_, ⟨standsFor_of_encode_eq rfl rfl, ?_⟩, standsFor_of_encode_eq rfl rfl, ?_⟩
  · have hwf : (Instr.ghash d c a b e).wf = true := decide_eq_true hne
    exact ⟨standsFor_of_encode_eq rfl hwf, if_pos hwf⟩
  · exact finish_writeB_of_le (htext _ (hi.bytes e)) fun t => t.setF c x.2
  · exact finish_writeB_of_le (htext _ (hi.bytes e)) fun t => t.setAuth y.2

end Sys2Proof.Machine
end

section
/-! The message polynomial (R260): its coefficients, and its value at the hash key, which is the hash (R233). -/

namespace Sys2Proof.Machine

/-! ## Evaluation -/

theorem evalAt_cons (x c : Word) (p : Poly) : evalAt x (c :: p) = c ^^^ feMul x (evalAt x p) := rfl

theorem evalAt_singleton (x c : Word) : evalAt x [c] = c := by
  rw [evalAt_cons, evalAt, List.foldr_nil, feMul_zero]
  exact BitVec.xor_zero

/-- A zero constant term leaves the value of the rest, times the argument. -/
theorem evalAt_zero_cons (x : Word) (p : Poly) : evalAt x (fieldZero :: p) = feMul (evalAt x p) x :=
  BitVec.zero_xor.trans (feMul_comm _ _)

/-- The zero coefficients that the canonical form drops add nothing to a value. -/
theorem evalAt_canon (x : Word) (p : List Word) : evalAt x (canon p) = evalAt x p :=
  toField_injective (by rw [toField_evalAt, toField_evalAt, toPolynomial_canon])

theorem evalAt_pAdd (x : Word) (p q : Poly) : evalAt x (pAdd p q) = evalAt x p ^^^ evalAt x q := by
  refine toField_injective (Eq.trans ?_ (toField_feAdd _ _).symm)
  rw [toField_evalAt, toField_evalAt, toField_evalAt, toPolynomial_pAdd, Polynomial.eval_add]

/-! ## The message polynomial (R260) -/

/-- R233: Horner's accumulation multiplies the last block by the hash key once, the one before it twice, and so on. -/
theorem hornerBlocks_eq_evalAt (h : Word) (blocks : List Word) :
    hornerBlocks h 0 blocks = evalAt h (fieldZero :: blocks.reverse) := by
  induction blocks using List.reverseRecOn with
  | nil => exact (evalAt_singleton h fieldZero).symm
  | append_singleton blocks x ih =>
    calc hornerBlocks h 0 (blocks ++ [x])
      _ = feMul (hornerBlocks h 0 blocks ^^^ x) h := hornerBlocks_append ..
      _ = feMul (x ^^^ feMul h (evalAt h blocks.reverse)) h := by
        rw [ih, evalAt_zero_cons, feMul_comm (evalAt h _), BitVec.xor_comm]
      _ = evalAt h (fieldZero :: (blocks ++ [x]).reverse) := by rw [List.reverse_concat, evalAt_zero_cons, evalAt_cons]

theorem coeffAt_msgPoly_zero (ad ct : Bytes) : coeffAt (msgPoly ad ct) 0 = 0 := coeffAt_canon _ 0

theorem coeffAt_msgPoly_succ (ad ct : Bytes) (i : Nat) : coeffAt (msgPoly ad ct) (i + 1) =
    ((padBlocks ad ++ padBlocks ct ++ [lenBlock ad ct]).reverse).getD i 0 := coeffAt_canon _ (i + 1)

/-- R260: the length block, hashed last, is multiplied by the hash key once. -/
theorem coeffAt_msgPoly_one (ad ct : Bytes) : coeffAt (msgPoly ad ct) 1 = lenBlock ad ct := by
  rw [coeffAt_msgPoly_succ, List.reverse_concat]
  rfl

/-- R260: the value of the message polynomial at the hash key is the hash. -/
theorem evalAt_msgPoly (ad ct : Bytes) (h : Word) : evalAt h (msgPoly ad ct) = (ghash ad ct h).1 := by
  rw [msgPoly, evalAt_canon, ← hornerBlocks_eq_evalAt, hornerBlocks_append]
  rfl

/-- Settles O53: the canonical form keeps every coefficient and the value, and the value is Horner's accumulation over the blocks and the length block. -/
theorem messagePolynomialEvaluatesToTheHash : Obligations.MessagePolynomialEvaluatesToTheHash := fun ad ct h =>
  ⟨canon_canonical _, coeffAt_msgPoly_zero ad ct, coeffAt_msgPoly_one ad ct, coeffAt_msgPoly_succ ad ct,
    evalAt_msgPoly ad ct h⟩

end Sys2Proof.Machine
end

section
/-! Key recovery and forgery (R261 to R265): the roots of the combined polynomial are the keys that explain two tags with one mask, the candidates tried are these roots, and the true key is one of them. -/

namespace Sys2Proof.Machine

/-! ## Roots of polynomials of degree at most 1 -/

/-- A nonzero constant has no root. -/
theorem evalAt_ne_zero_of_deg_zero {p : Poly} (hp : NonzeroPoly p) (hd : deg p = 0) (x : Word) : evalAt x p ≠ 0 := by
  obtain ⟨c, rfl⟩ := List.length_eq_one_iff.mp (hp.canonical.length_eq.trans (by omega))
  rw [evalAt_singleton]
  rintro rfl
  exact hp.ne_zero rfl

/-- A polynomial of degree 1 has one root. -/
theorem exists_evalAt_iff_of_deg_one {p : Poly} (hp : Canonical p) (hd : deg p = 1) :
    ∃ r, ∀ x, evalAt x p = 0 ↔ x = r := by
  have hn := nonzero_of_deg_pos hp hd.ge
  obtain ⟨g, hg, hmonic, hdeg, -⟩ := pMonic_spec hn
  exact ⟨coeffAt g 0, fun x => (evalAt_pMonic_eq_zero_iff hn hg x).symm.trans
    (evalAt_linear_iff hmonic (hdeg.trans hd) x)⟩

/-! ## The combined polynomial (R261) -/

/-- What is added twice cancels. -/
theorem word_xor_xor_cancel (x y : Word) : x ^^^ (x ^^^ y) = y := by
  rw [← BitVec.xor_assoc, BitVec.xor_self]
  exact BitVec.zero_xor

section messages
variable {m1 m2 m3 : Message}

theorem recoverPoly_canonical (m1 m2 : Message) : Canonical (recoverPoly m1 m2) := pAdd_canonical _ _

/-- R261: a root of the combined polynomial is a key that explains the first two tags with one mask. -/
theorem evalAt_recoverPoly_eq_zero_iff {x : Word} : evalAt x (recoverPoly m1 m2) = 0 ↔
    m2.tag = candidateMask m1 x ^^^ (ghash m2.ad m2.ct x).1 := by
  rw [recoverPoly, evalAt_pAdd, evalAt_pAdd, evalAt_msgPoly, evalAt_msgPoly, evalAt_singleton, candidateMask]
  refine BitVec.xor_eq_zero_iff.trans ((BitVec.xor_right_inj m1.tag).symm.trans ?_)
  rw [word_xor_xor_cancel, ← BitVec.xor_assoc, eq_comm]

theorem candidatePasses_iff {x : Word} :
    candidatePasses m1 m3 x = true ↔ m3.tag = candidateMask m1 x ^^^ (ghash m3.ad m3.ct x).1 := beq_iff_eq

/-! ## The search (R261) -/

theorem roots_cons_of_linear {u : Poly} (hd : deg u = 1) (e : Nat) (out : Factors) :
    roots ((u, e) :: out) = coeffAt u 0 :: roots out := by
  simp [roots, hd]

theorem roots_cons_of_not_linear {u : Poly} (hd : deg u ≠ 1) (e : Nat) (out : Factors) :
    roots ((u, e) :: out) = roots out := by
  simp [roots, hd]

/-- R261: the candidates are the roots of the factor list, in order; the first that passes is returned. -/
theorem recoverSearch_eq_find? (m1 m3 : Message) (out : Factors) :
    recoverSearch m1 m3 out = ((roots out).find? (candidatePasses m1 m3)).elim (.error .noRootFound)
      fun x => .ok (x, candidateMask m1 x) := by
  induction out with
  | nil => rfl
  | cons e out ih =>
    obtain ⟨u, i⟩ := e
    by_cases hd : deg u = 1
    · rw [roots_cons_of_linear hd, List.find?_cons]
      cases hp : candidatePasses m1 m3 (coeffAt u 0) with
      | true => exact recoverSearch_found hd hp
      | false => simpa [recoverSearch, hd, hp] using ih
    · rw [roots_cons_of_not_linear hd, ← ih]
      simp [recoverSearch, hd]

/-! ## `recover` (R261) -/

variable {rand : Nat → Word} {budget n m : Nat} {f : Poly} {out : Factors}

theorem recover_of_polyZero (h : recoverPoly m1 m2 = polyZero) (m3 : Message) :
    recover rand budget n m1 m2 m3 = (.error .divisionByZero, n) := by
  rw [recover, h]
  rfl

theorem recover_of_factor_error {k : ErrorKind} (hf : pMonic (recoverPoly m1 m2) = .ok f)
    (ho : factor rand budget n f = (.error k, m)) (m3 : Message) :
    recover rand budget n m1 m2 m3 = (.error k, m) := by
  simp only [recover, hf, ho]

theorem recoverPoly_nonzero (hf : pMonic (recoverPoly m1 m2) = .ok f) : NonzeroPoly (recoverPoly m1 m2) := by
  refine ⟨recoverPoly_canonical m1 m2, fun h0 => ?_⟩
  rw [h0] at hf
  cases hf

/-! The search when the combined polynomial is factored. -/

section factored
variable (hf : pMonic (recoverPoly m1 m2) = .ok f) (ho : factor rand budget n f = (.ok out, m))
include hf ho

/-- R261: the candidates tried are exactly the roots of the combined polynomial. -/
theorem mem_roots_iff_evalAt_recoverPoly {x : Word} : x ∈ roots out ↔ evalAt x (recoverPoly m1 m2) = 0 := by
  have hn := recoverPoly_nonzero hf
  obtain ⟨g, hg, hmonic, -⟩ := pMonic_spec hn
  obtain rfl := Except.ok.inj (hf.symm.trans hg)
  rw [← evalAt_pMonic_eq_zero_iff hn hf, evalAt_eq_zero_iff_mem_roots hmonic.nonzero ho]

theorem recover_of_find?_some {x : Word} (hx : (roots out).find? (candidatePasses m1 m3) = some x) :
    recover rand budget n m1 m2 m3 = (.ok (x, candidateMask m1 x), m) := by
  rw [recover_of_stages hf ho, recoverSearch_eq_find?, hx]
  rfl

theorem recover_of_find?_none (hx : (roots out).find? (candidatePasses m1 m3) = none) :
    recover rand budget n m1 m2 m3 = (.error .noRootFound, m) := by
  rw [recover_of_stages hf ho, recoverSearch_eq_find?, hx]
  rfl

/-- When some root passes the check, the search finds one. -/
theorem exists_find?_of_root {x : Word} (hx : evalAt x (recoverPoly m1 m2) = 0)
    (hp : candidatePasses m1 m3 x = true) : ∃ y, (roots out).find? (candidatePasses m1 m3) = some y :=
  Option.isSome_iff_exists.mp
    (List.find?_isSome.mpr ⟨x, (mem_roots_iff_evalAt_recoverPoly hf ho).mpr hx, hp⟩)

/-- When no root passes the check, the search ends without a key. -/
theorem recover_of_no_root (hp : ∀ x, evalAt x (recoverPoly m1 m2) = 0 → candidatePasses m1 m3 x = false) :
    recover rand budget n m1 m2 m3 = (.error .noRootFound, m) := by
  refine recover_of_find?_none hf ho (List.find?_eq_none.mpr fun x hx => ?_)
  rw [hp x ((mem_roots_iff_evalAt_recoverPoly hf ho).mp hx)]
  exact Bool.false_ne_true

end factored

/-- R261: what `recover` returns is a root of the combined polynomial that passes the check, and its mask. -/
theorem recover_sound {x mask : Word} (h : recover rand budget n m1 m2 m3 = (.ok (x, mask), m)) :
    evalAt x (recoverPoly m1 m2) = 0 ∧ mask = candidateMask m1 x ∧ candidatePasses m1 m3 x = true := by
  by_cases h0 : recoverPoly m1 m2 = polyZero
  · rw [recover_of_polyZero h0] at h
    cases h
  obtain ⟨f, hf, -⟩ := pMonic_spec ⟨recoverPoly_canonical m1 m2, h0⟩
  rcases ho : factor rand budget n f with ⟨k | out, m'⟩
  · rw [recover_of_factor_error hf ho] at h
    cases h
  rcases hx : (roots out).find? (candidatePasses m1 m3) with _ | y
  · rw [recover_of_find?_none hf ho hx] at h
    cases h
  · rw [recover_of_find?_some hf ho hx] at h
    cases h
    exact ⟨(mem_roots_iff_evalAt_recoverPoly hf ho).mp (List.mem_of_find?_eq_some hx), rfl, List.find?_some hx⟩

/-- R261: a combined polynomial of degree at most 1 is factored without a draw. -/
theorem factor_recoverPoly_of_deg_le_one (h0 : recoverPoly m1 m2 ≠ polyZero) (hd : deg (recoverPoly m1 m2) ≤ 1)
    (rand : Nat → Word) (budget n : Nat) :
    ∃ f out, pMonic (recoverPoly m1 m2) = .ok f ∧ factor rand budget n f = (.ok out, n) := by
  obtain ⟨f, hf, hmonic, hdeg, -⟩ := pMonic_spec ⟨recoverPoly_canonical m1 m2, h0⟩
  obtain ⟨out, ho⟩ := factor_of_deg_le_one hmonic.nonzero (hdeg.trans_le hd) rand budget n
  exact ⟨f, out, hf, ho⟩

/-- R261: a nonzero constant leaves no candidate, and takes no draw. -/
theorem recover_of_constant (h0 : recoverPoly m1 m2 ≠ polyZero) (hd : deg (recoverPoly m1 m2) = 0) (m3 : Message) :
    recover rand budget n m1 m2 m3 = (.error .noRootFound, n) := by
  obtain ⟨f, out, hf, ho⟩ := factor_recoverPoly_of_deg_le_one h0 (by omega) rand budget n
  exact recover_of_no_root hf ho fun x hx => absurd hx (evalAt_ne_zero_of_deg_zero (recoverPoly_nonzero hf) hd x)

/-- R261: the one root of a linear combined polynomial is the one candidate, and takes no draw. -/
theorem recover_of_linear (hd : deg (recoverPoly m1 m2) = 1) {x : Word}
    (hx : ∀ y, evalAt y (recoverPoly m1 m2) = 0 ↔ y = x) (m3 : Message) :
    recover rand budget n m1 m2 m3 =
      (if candidatePasses m1 m3 x then .ok (x, candidateMask m1 x) else .error .noRootFound, n) := by
  obtain ⟨f, out, hf, ho⟩ := factor_recoverPoly_of_deg_le_one (ne_polyZero_of_deg_pos hd.ge) hd.le rand budget n
  by_cases hp : candidatePasses m1 m3 x = true
  · obtain ⟨y, hy⟩ := exists_find?_of_root hf ho ((hx x).mpr rfl) hp
    obtain rfl : y = x := (hx y).mp ((mem_roots_iff_evalAt_recoverPoly hf ho).mp (List.mem_of_find?_eq_some hy))
    rw [if_pos hp, recover_of_find?_some hf ho hy]
  · rw [if_neg hp, recover_of_no_root hf ho fun y hy => (hx y).mp hy ▸ Bool.eq_false_iff.mpr hp]

end messages

/-! ## The command `RECOVER` (R263) -/

section command
variable {s : State} {d c a b : Reg} {m : Nat}

/-- R77, R263: with two destinations the command ends as its function does, the draws consumed. -/
theorem exec_recover (hne : d ≠ c) (s : State) (a b : Reg) : exec (.recover d c a b) s =
    finish (s.setDrawn (recoverHere s a b).2) ((recoverHere s a b).1.map fun hm =>
      ((s.setDrawn (recoverHere s a b).2).setF d hm.1).setF c hm.2) :=
  if_pos (decide_eq_true hne)

theorem exec_recover_of_ok (hne : d ≠ c) {x mask : Word} (h : recoverHere s a b = (.ok (x, mask), m)) :
    exec (.recover d c a b) s = .next (((s.setDrawn m).setF d x).setF c mask).advance := by
  rw [exec_recover hne, h]
  rfl

theorem exec_recover_of_error (hne : d ≠ c) {k : ErrorKind} (h : recoverHere s a b = (.error k, m)) :
    exec (.recover d c a b) s = .next (errorEntry k 0 (s.setDrawn m)) := by
  rw [exec_recover hne, h]
  rfl

/-- R76: the registers named are those of message 1. -/
theorem messageAt_zero (s : State) (a b : Reg) : messageAt s a b 0 = ⟨s.getB b, s.getB (b + 1), s.getF a⟩ := by
  have hfirst (r : Reg) : regAfter r 0 = r := BitVec.add_zero r
  rw [messageAt, Nat.mul_zero, hfirst, hfirst]
  rfl

theorem recoverPoly_messageAt (s : State) (a b : Reg) : recoverPoly (messageAt s a b 0) (messageAt s a b 1) =
    pAdd (pAdd (msgPoly (s.getB b) (s.getB (b + 1))) (msgPoly (s.getB (b + 2)) (s.getB (b + 3))))
      [s.getF a ^^^ s.getF (a + 1)] := by
  rw [messageAt_zero]
  rfl

theorem candidateMask_messageAt (s : State) (a b : Reg) (x : Word) : candidateMask (messageAt s a b 0) x =
    s.getF a ^^^ (ghash (s.getB b) (s.getB (b + 1)) x).1 := by
  rw [messageAt_zero]
  rfl

end command

/-- Settles O57: a root of the combined polynomial explains the first two tags with its mask, the check is that it explains the third, and an error would end in ERROR. -/
theorem recoverIsSound : Obligations.RecoverIsSound := by
  intro s t d c a b hne _ ht hst
  rcases hrec : recoverHere s a b with ⟨k | ⟨x, mask⟩, m⟩
  · rw [exec_recover_of_error hne hrec] at ht
    cases ht
    exact absurd (statusState_withState _ _) hst
  · rw [exec_recover_of_ok hne hrec] at ht
    cases ht
    obtain ⟨hroot, rfl, hpass⟩ := recover_sound hrec
    refine ⟨x, _, ?_, candidateMask_messageAt s a b x, evalAt_recoverPoly_eq_zero_iff.mp hroot,
      candidatePasses_iff.mp hpass, rfl⟩
    rw [← recoverPoly_messageAt, hroot]

/-- Settles O58: such a polynomial is factored without a draw; zero has no monic form, a constant no root, and a linear one a single root, which passes the check or not. -/
theorem recoverOfDegreeAtMostOneCompletes : Obligations.RecoverOfDegreeAtMostOneCompletes := by
  intro s d c a b _ hne f
  have hf : recoverPoly (messageAt s a b 0) (messageAt s a b 1) = f := recoverPoly_messageAt s a b
  clear_value f
  subst hf
  refine ⟨standsFor_of_encode_eq rfl (decide_eq_true hne),
    fun h0 => exec_recover_of_error (m := s.drawn) hne (recover_of_polyZero h0 _),
    fun h0 hd => exec_recover_of_error (m := s.drawn) hne (recover_of_constant h0 hd _), fun hd => ?_⟩
  obtain ⟨x, hx⟩ := exists_evalAt_iff_of_deg_one (recoverPoly_canonical _ _) hd
  have hrec : recoverHere s a b = _ := recover_of_linear hd hx _
  refine ⟨x, candidateMask (messageAt s a b 0) x, (hx x).mpr rfl, fun y => (hx y).mp, candidateMask_messageAt s a b x,
    fun hp => ?_, fun hp => ?_⟩
  · rw [if_pos (candidatePasses_iff.mpr hp)] at hrec
    exact exec_recover_of_ok hne hrec
  · rw [if_neg (mt candidatePasses_iff.mp hp)] at hrec
    exact exec_recover_of_error hne hrec

/-! ## The true key (R262, R264, R265) -/

/-- The record of an encryption, as R261 takes it. -/
def encryptedMessage (cipher : Word → Word → Word) (key : Word) (nonce pt ad : Bytes) : Message where
  ad := ad
  ct := (gcmEncrypt cipher key nonce pt ad).1
  tag := (gcmEncrypt cipher key nonce pt ad).2

section trueKey
variable (cipher : Word → Word → Word) (key : Word) (nonce : Bytes)

/-- R262: the tag of an encryption is the one forged with the true key and mask. -/
theorem gcmEncrypt_tag_eq_forge (pt ad : Bytes) : (gcmEncrypt cipher key nonce pt ad).2 =
    forge ad (gcmEncrypt cipher key nonce pt ad).1 (hashKey cipher key) (tagMask cipher key nonce) := rfl

theorem encryptedMessage_tag (pt ad : Bytes) : (encryptedMessage cipher key nonce pt ad).tag =
    tagMask cipher key nonce ^^^ (ghash ad (gcmEncrypt cipher key nonce pt ad).1 (hashKey cipher key)).1 :=
  (gcmEncrypt_tag_eq_forge cipher key nonce pt ad).trans (BitVec.xor_comm _ _)

/-- R265: the true key gives the true mask with every encryption. -/
theorem candidateMask_encryptedMessage (pt ad : Bytes) :
    candidateMask (encryptedMessage cipher key nonce pt ad) (hashKey cipher key) = tagMask cipher key nonce :=
  (BitVec.xor_comm _ _).trans (word_xor_xor_cancel _ _)

/-- R265: the true key is a root of the combined polynomial of two encryptions. -/
theorem evalAt_recoverPoly_encryptedMessage (p1 a1 p2 a2 : Bytes) : evalAt (hashKey cipher key)
    (recoverPoly (encryptedMessage cipher key nonce p1 a1) (encryptedMessage cipher key nonce p2 a2)) = 0 := by
  rw [evalAt_recoverPoly_eq_zero_iff, candidateMask_encryptedMessage]
  exact encryptedMessage_tag cipher key nonce p2 a2

end trueKey

/-- Settles O59: the candidates are the roots of the combined polynomial, in the order of its factors; the true key explains every tag with the true mask. -/
theorem recoverTriesEveryRoot : Obligations.RecoverTriesEveryRoot := by
  constructor
  · intro s d c a b _ hne f mask explains
    have hf : recoverPoly (messageAt s a b 0) (messageAt s a b 1) = f := recoverPoly_messageAt s a b
    have hmask : candidateMask (messageAt s a b 0) = mask := funext (candidateMask_messageAt s a b)
    have hpass : candidatePasses (messageAt s a b 0) (messageAt s a b 2) = explains :=
      funext fun x => by rw [candidatePasses, hmask]; rfl
    clear_value explains mask f
    subst hf hmask hpass
    intro h0
    obtain ⟨g, hg, hmonic, -⟩ := pMonic_spec ⟨recoverPoly_canonical _ _, h0⟩
    refine ⟨g, hg, ?_⟩
    rcases ho : factor Config.rand128 s.edfbudget.toNat s.drawn g with ⟨k | out, m⟩
    · obtain rfl := factor_error hmonic.nonzero ho
      exact .inl ⟨rfl, exec_recover_of_error hne (recover_of_factor_error hg ho _)⟩
    · exact .inr ⟨out, rfl, fun x hx => exec_recover_of_ok hne (recover_of_find?_some hg ho hx),
        fun ⟨x, hroot, hp⟩ => exists_find?_of_root hg ho hroot hp,
        fun hp => exec_recover_of_error hne (recover_of_no_root hg ho hp)⟩
  · exact fun cipher key nonce p1 a1 p2 a2 p3 a3 => ⟨evalAt_recoverPoly_encryptedMessage cipher key nonce p1 a1 p2 a2,
      candidateMask_encryptedMessage cipher key nonce p1 a1, encryptedMessage_tag cipher key nonce p3 a3⟩

/-- Settles O60: forging writes one register and cannot fail; the tag of an encryption is, by its definition, the one forged from the ciphertext. -/
theorem forgeCompletesWithTheTrueTag : Obligations.ForgeCompletesWithTheTrueTag :=
  ⟨fun _ _ _ _ _ _ => standsFor_and_exec_of_word rfl rfl rfl, gcmEncrypt_tag_eq_forge⟩

end Sys2Proof.Machine
end

section
/-! The system commands (R280 to R283) and the start after a stop (R310, R343): what a stop leaves behind that a start does not undo, and the four commands' words and next states. -/

namespace Sys2Proof.Machine

/-! ## `STATUS` by its three fields (R27) -/

theorem status_eq_of_fields {w v : Word32} (hstate : statusState w = statusState v)
    (hauth : statusAuth w = statusAuth v) (hreserved : statusReserved w = statusReserved v) : w = v := by
  apply BitVec.eq_of_getLsbD_eq; intro i hi
  obtain h | rfl | h : i < 2 ∨ i = 2 ∨ 3 ≤ i := by omega
  · simpa [statusState, h] using congrArg (·.getLsbD i) hstate
  · exact hauth
  · have hbit : i - 3 < 29 := by omega
    simpa [statusReserved, hbit, Nat.add_sub_cancel' h] using congrArg (·.getLsbD (i - 3)) hreserved

/-- The later write of `STATE` holds. -/
theorem withState_withState (w : Word32) (u v : BitVec 2) : withState (withState w u) v = withState w v :=
  status_eq_of_fields (by simp) (by simp) (by simp)

theorem withState_of_statusState {w : Word32} {v : BitVec 2} (h : statusState w = v) : withState w v = w :=
  status_eq_of_fields (by simp [h]) (by simp) (by simp)

/-- R27: in a running machine `STATUS` shows `STATE` = 1 and `AUTH`, and no other bit. -/
theorem status_of_running {w : Word32} (hstate : statusState w = 1) (hreserved : statusReserved w = 0) :
    w = 1 ∨ w = 5 := by
  cases hauth : statusAuth w with
  | false => exact .inl (status_eq_of_fields hstate hauth hreserved)
  | true => exact .inr (status_eq_of_fields hstate hauth hreserved)

/-! ## The start after a stop (R310, R343) -/

/-- A start writes all that an error entry writes (R305), so it undoes the entry. -/
theorem start_errorEntry (k : ErrorKind) (info : Word32) (s : State) : start (errorEntry k info s) = start s := by
  simp only [start, errorEntry, withState_withState]

theorem start_setState (s : State) (v : BitVec 2) : start (s.setState v) = start s := by
  simp only [start, State.setState, withState_withState]

section running
variable {s : State} (hr : s.running = true)
include hr

/-- A running machine with its error registers clear is as a start leaves it. -/
theorem start_of_running (hcode : s.ecode = 0) (hpc : s.epc = 0) (hinfo : s.einfo = 0) : start s = s := by
  have hstatus : withState s.status stRunning = s.status := withState_of_statusState (state_eq_one_of_running hr)
  cases s
  simp only [start, State.mk.injEq, true_and, and_true]
  exact ⟨hstatus, hcode.symm, hpc.symm, hinfo.symm⟩

/-- The ways a run stops: an error, with the draws made consumed, or `HALT`. -/
theorem step_stops {t : State} (ht : step s = .next t) (hstop : t.running = false) :
    (∃ (k : ErrorKind) (info : Word32) (n : Nat), t = errorEntry k info (s.setDrawn n)) ∨ t = s.setState stHalted := by
  obtain ⟨hn, -⟩ | ⟨-, -, h⟩ | ⟨-, -, -, h⟩ | ⟨-, -, i, -, h⟩ := step_cases s
  · exact absurd (hr.symm.trans hn) (by decide)
  · exact .inl ⟨.fetchOutOfRange, 0, s.drawn, Host.Outcome.next.inj (ht.symm.trans h)⟩
  · exact .inl ⟨.illegalCommand, _, s.drawn, Host.Outcome.next.inj (ht.symm.trans h)⟩
  · cases exec_endsIn i s t (h.symm.trans ht) with
    | error k info _ hu => exact .inl ⟨k, info, _, congrArg (errorEntry k info) hu⟩
    | halt _ => exact .inr rfl
    | @done u hw =>
      have hrun : u.advance.running = s.running := congrArg (· == stRunning) hw.state
      exact absurd (hr.symm.trans (hrun.symm.trans hstop)) (by decide)

end running

/-- Settles O22: both kinds of stop write only what a start writes again, but for the draws. -/
theorem startRetriesTheLastCommand : Obligations.StartRetriesTheLastCommand := by
  intro s t hr hcode hpc hinfo ht hstop
  rw [hostAct_start hstop]
  obtain ⟨k, info, n, rfl⟩ | rfl := step_stops hr ht hstop
  · rw [start_errorEntry]
    exact start_of_running (s := s.setDrawn n) hr hcode hpc hinfo
  · rw [start_setState]
    exact start_of_running hr hcode hpc hinfo

/-! ## The system commands (R280 to R283) -/

/-- R26 to R30: outside ERROR the error registers are clear. -/
theorem Inv.errorRegisters_of_running {s : State} (hi : Inv s) (hr : s.running = true) :
    s.ecode = 0 ∧ s.epc = 0 ∧ s.einfo = 0 := by
  have hcode := hi.ecode_eq_zero_of_running hr
  have hstate : statusState s.status ≠ stError := fun h => hi.error.mpr h hcode
  exact ⟨hcode, hi.cleared hstate⟩

/-- R281: the start after a `HALT` gives back the state the `HALT` was executed in. -/
theorem hostAct_start_halted {s : State} (hi : Inv s) (hr : s.running = true) :
    hostAct .start (s.setState stHalted) = s := by
  obtain ⟨hcode, hpc, hinfo⟩ := hi.errorRegisters_of_running hr
  have hstop : (s.setState stHalted).running = false := by simp [State.running, stHalted, stRunning]
  rw [hostAct_start hstop, start_setState, start_of_running hr hcode hpc hinfo]

/-- R282: a control register that is there is read into the field register, zero-extended. -/
theorem exec_csrr {n : BitVec 8} (hn : n.toNat ≤ 5) (s : State) (d : Reg) : exec (.csrr d n) s = .next (s.setF d
    (([s.status, s.ecode, s.epc, s.einfo, s.edfbudget, s.pc].getD n.toNat 0).setWidth 128)).advance := by
  rw [← getCsr_eq_getD]
  exact if_pos (decide_eq_true hn)

/-- R72, R73: an accepted word is the encoding of a command of its opcode's row. -/
theorem mnemonic_of_decode {w : Word32} {i : Instr} {m : Mnemonic} (hop : fieldOp w = m.opcode)
    (hd : decode w = .ok i) : i.mnemonic = m := by
  rw [← (encode_of_decode hd).1, fieldOp_encode] at hop
  exact opcode_injective hop

theorem csrr_of_decode {w : Word32} {i : Instr} (hop : fieldOp w = 0x02) (hd : decode w = .ok i) :
    ∃ (e : Reg) (m : BitVec 8), m.toNat ≤ 5 ∧ i = .csrr e m ∧ w = packImm 0x02 e 0 m := by
  have hm := mnemonic_of_decode (m := .csrr) hop hd
  obtain ⟨hw, hwf⟩ := encode_of_decode hd
  cases i <;> cases hm
  exact ⟨_, _, of_decide_eq_true hwf, rfl, hw.symm⟩

theorem csrw_of_decode {w : Word32} {i : Instr} (hop : fieldOp w = 0x03) (hd : decode w = .ok i) :
    ∃ e : Reg, i = .csrw 4 e ∧ w = packImm 0x03 0 e 4 := by
  have hm := mnemonic_of_decode (m := .csrw) hop hd
  obtain ⟨hw, hwf⟩ := encode_of_decode hd
  cases i <;> cases hm
  obtain rfl := of_decide_eq_true hwf
  exact ⟨_, rfl, hw.symm⟩

/-- Settles O23: the four commands in turn, with the start after `HALT` and the values a run can read. -/
theorem systemCommandsComplete : Obligations.SystemCommandsComplete := fun s d _ _ =>
  ⟨standsFor_of_encode_eq rfl rfl, rfl,
    standsFor_of_encode_eq rfl rfl, rfl,
    hostAct_start_halted,
    fun hn => ⟨standsFor_of_encode_eq rfl (decide_eq_true hn), exec_csrr hn s d⟩,
    fun _ _ => csrr_of_decode,
    fun hi hr => ⟨status_of_running (state_eq_one_of_running hr) hi.reserved, hi.errorRegisters_of_running hr⟩,
    standsFor_of_encode_eq rfl rfl, rfl,
    fun _ _ => csrw_of_decode⟩

end Sys2Proof.Machine
end

section
/-! The errors (R300, R303 to R306, R308): the kinds that each command can raise, in every state, and what the entry into the state ERROR leaves as it was (R305). -/

namespace Sys2Proof.Machine

/-! ## The kinds a result can fail with -/

/-- The seven kinds in the order of their codes (R300). -/
def ErrorKind.all : List ErrorKind :=
  [.divisionByZero, .preconditionViolation, .noRootFound, .retryBudgetExceeded, .illegalCommand, .capacityExceeded,
    .fetchOutOfRange]

theorem all_getElem?_code (k : ErrorKind) : ErrorKind.all[k.code.toNat - 1]? = some k := by cases k <;> rfl

theorem code_injective : Function.Injective ErrorKind.code := fun k k' h =>
  Option.some.inj (by rw [← all_getElem?_code k, h, all_getElem?_code])

/-- A result whose error, if it is one, is of a kind in `L`. -/
def ErrorsIn {α : Type} (L : List ErrorKind) (r : Except ErrorKind α) : Prop := ∀ k, r = .error k → k ∈ L

section errorsIn
variable {α β : Type} {L M : List ErrorKind} {r : Except ErrorKind α} {k : ErrorKind}

theorem errorsIn_ok (L : List ErrorKind) (a : α) : ErrorsIn L (.ok a : Except ErrorKind α) := nofun

theorem errorsIn_error (h : k ∈ L) : ErrorsIn L (.error k : Except ErrorKind α) := by
  rintro _ ⟨⟩; exact h

/-- An error handed on keeps its kind. -/
theorem ErrorsIn.handOn (hr : ErrorsIn L r) (h : r = .error k) : ErrorsIn L (.error k : Except ErrorKind β) :=
  errorsIn_error (hr k h)

theorem ErrorsIn.mono (hr : ErrorsIn L r) (h : L ⊆ M) : ErrorsIn M r := fun k hk => h (hr k hk)

theorem ErrorsIn.map (hr : ErrorsIn L r) (f : α → β) : ErrorsIn L (r.map f) := by
  cases r with
  | error k => exact hr.handOn rfl
  | ok a => exact errorsIn_ok L _

theorem OnlyDivisionByZero.errorsIn (hr : OnlyDivisionByZero r) (h : .divisionByZero ∈ L) : ErrorsIn L r :=
  fun k hk => hr k hk ▸ h

end errorsIn

/-! ## The functions, whatever their operands -/

theorem pSqrt_errorsIn (p : Poly) : ErrorsIn [.preconditionViolation] (pSqrt p) := by
  unfold pSqrt
  split_ifs
  exacts [errorsIn_error (by decide), errorsIn_ok _ _]

theorem sffLoop_onlyDivisionByZero (n : Nat) (f : Poly) (e : Nat) (z : Factors) :
    OnlyDivisionByZero (sffLoop n f e z) := by
  induction n generalizing f e z with
  | zero => exact onlyDivisionByZero_ok _
  | succ n ih =>
    unfold sffLoop
    split
    · next h => exact onlyDivisionByZero_of_error (pGcd_onlyDivisionByZero _ _) h
    · split_ifs
      · exact onlyDivisionByZero_ok _
      · split
        · next h => exact onlyDivisionByZero_of_error (quo_onlyDivisionByZero _ _) h
        · exact ih _ _ _

/-- The kinds of the first two stages. -/
def stageKinds : List ErrorKind := [.divisionByZero, .preconditionViolation]

theorem sffLevels_errorsIn (n : Nat) (f : Poly) : ErrorsIn stageKinds (sffLevels n f) := by
  induction n generalizing f with
  | zero => exact errorsIn_ok _ _
  | succ n ih =>
    unfold sffLevels
    split
    · next h => exact ((sffLoop_onlyDivisionByZero _ _ _ _).errorsIn (by decide)).handOn h
    · split_ifs
      · exact errorsIn_ok _ _
      · split
        · next h => exact ((pSqrt_errorsIn _).mono (by decide)).handOn h
        · split
          · next h => exact (ih _).handOn h
          · exact errorsIn_ok _ _

theorem sff_errorsIn (f : Poly) : ErrorsIn stageKinds (sff f) := sffLevels_errorsIn _ f

theorem ddfLoop_onlyDivisionByZero (n d : Nat) (fs : Poly) (z : Factors) : OnlyDivisionByZero (ddfLoop n d fs z) := by
  induction n generalizing d fs z with
  | zero => exact onlyDivisionByZero_ok _
  | succ n ih =>
    unfold ddfLoop
    split_ifs
    · refine onlyDivisionByZero_bind (rem_onlyDivisionByZero _ _) fun x =>
        onlyDivisionByZero_bind (pPowmod_onlyDivisionByZero _ _ _) fun y =>
          onlyDivisionByZero_bind (pGcd_onlyDivisionByZero _ _) fun g => ?_
      split_ifs
      · exact ih _ _ _
      · exact onlyDivisionByZero_bind (quo_onlyDivisionByZero _ _) fun rest => ih _ _ _
    · exact onlyDivisionByZero_ok _

theorem ddf_errorsIn (f : Poly) : ErrorsIn stageKinds (ddf f) := by
  unfold ddf
  split_ifs
  · exact errorsIn_error (by decide)
  · split
    · next h => exact ((ddfLoop_onlyDivisionByZero _ _ _ _).errorsIn (by decide)).handOn h
    · exact errorsIn_ok _ _

/-- The kinds of the functions that run `edf`. -/
def edfKinds : List ErrorKind := [.divisionByZero, .preconditionViolation, .retryBudgetExceeded]

theorem edfLoop_errorsIn (rand : Nat → Word) (f : Poly) (d t n : Nat) (z : List Poly) :
    ErrorsIn edfKinds (edfLoop rand f d t n z).1 := by
  induction t generalizing n z with
  | zero =>
    cases hs : needsSplit d z with
    | false => rw [edfLoop_done hs]; exact errorsIn_ok _ _
    | true => rw [edfLoop_spent hs]; exact errorsIn_error (by decide)
  | succ t ih =>
    cases hs : needsSplit d z with
    | false => rw [edfLoop_done hs]; exact errorsIn_ok _ _
    | true =>
      cases ht : edfTrial f d (edfDraw rand n (deg f)) z with
      | error k =>
        rw [edfLoop_trial_error hs ht]
        exact ((edfTrial_onlyDivisionByZero _ _ _ _).errorsIn (by decide)).handOn ht
      | ok y => rw [edfLoop_trial_ok hs ht]; exact ih _ _

theorem edf_errorsIn (rand : Nat → Word) (budget n : Nat) (f : Poly) (d : Nat) :
    ErrorsIn edfKinds (edf rand budget n f d).1 := by
  unfold edf
  split_ifs
  exacts [errorsIn_error (by decide), edfLoop_errorsIn _ _ _ _ _ _]

theorem factorPart_errorsIn (rand : Nat → Word) (budget n : Nat) (g : Poly) (d : Nat) :
    ErrorsIn edfKinds (factorPart rand budget n g d).1 := by
  unfold factorPart
  split_ifs
  exacts [edf_errorsIn _ _ _ _ _, errorsIn_ok _ _]

/-- One run after another fails as the first or as the second. -/
theorem joinRuns_errorsIn {L : List ErrorKind} {r : Drawn Factors} {rest : Nat → Drawn Factors} (hr : ErrorsIn L r.1)
    (hrest : ∀ m, ErrorsIn L (rest m).1) : ErrorsIn L (joinRuns r rest).1 := by
  obtain ⟨k | a, m⟩ := r
  exacts [hr, (hrest m).map _]

theorem factorDegrees_errorsIn (rand : Nat → Word) (budget e n : Nat) (z : Factors) :
    ErrorsIn edfKinds (factorDegrees rand budget e n z).1 := by
  induction z generalizing n with
  | nil => exact errorsIn_ok _ _
  | cons x rest ih =>
    rw [factorDegrees_eq_joinRuns]
    exact joinRuns_errorsIn ((factorPart_errorsIn _ _ _ _ _).map _) ih

theorem factorSquares_errorsIn (rand : Nat → Word) (budget n : Nat) (z : Factors) :
    ErrorsIn edfKinds (factorSquares rand budget n z).1 := by
  induction z generalizing n with
  | nil => exact errorsIn_ok _ _
  | cons x rest ih =>
    cases hz : ddf x.1 with
    | error k =>
      simp only [factorSquares, hz]
      exact ((ddf_errorsIn _).mono (by decide)).handOn hz
    | ok z =>
      rw [factorSquares_eq_joinRuns hz]
      exact joinRuns_errorsIn (factorDegrees_errorsIn _ _ _ _ _) ih

theorem factor_errorsIn (rand : Nat → Word) (budget n : Nat) (f : Poly) :
    ErrorsIn edfKinds (factor rand budget n f).1 := by
  unfold factor
  split
  · next h => exact ((pMonic_onlyDivisionByZero _).errorsIn (by decide)).handOn h
  · split
    · next h => exact ((sff_errorsIn _).mono (by decide)).handOn h
    · exact factorSquares_errorsIn _ _ _ _

theorem recoverSearch_errorsIn (m1 m3 : Message) (out : Factors) :
    ErrorsIn [.noRootFound] (recoverSearch m1 m3 out) := by
  rw [recoverSearch_eq_find?]
  cases (roots out).find? (candidatePasses m1 m3) with
  | none => exact errorsIn_error (by decide)
  | some x => exact errorsIn_ok _ _

/-- The kinds of `recover`. -/
def recoverKinds : List ErrorKind := .noRootFound :: edfKinds

theorem recover_errorsIn (rand : Nat → Word) (budget n : Nat) (m1 m2 m3 : Message) :
    ErrorsIn recoverKinds (recover rand budget n m1 m2 m3).1 := by
  unfold recover
  split
  · next h => exact ((pMonic_onlyDivisionByZero _).errorsIn (by decide)).handOn h
  · next f _ =>
    have hfactor := (factor_errorsIn rand budget n f).mono (by decide : edfKinds ⊆ recoverKinds)
    split
    · next h => exact hfactor.handOn (congrArg Prod.fst h)
    · exact (recoverSearch_errorsIn _ _ _).mono (by decide)

/-! ## The commands -/

/-- The kinds that R301, R302 and R307 tabulate. -/
def tabulatedKinds : List ErrorKind := [.divisionByZero, .preconditionViolation, .capacityExceeded]

/-- The kinds a well-formed command can raise, whatever state it begins in: those of the tables, or those of the function that draws for it. -/
def kindsOf (i : Instr) : List ErrorKind :=
  match i.mnemonic with
  | .recover => recoverKinds
  | .edf | .factor => edfKinds
  | _ => tabulatedKinds

/-- `t` shows no error that `s` does not show. -/
structure NoNewError (s t : State) : Prop where
  ecode : t.ecode = s.ecode
  state : statusState s.status ≠ stError → statusState t.status ≠ stError

/-- What a command writes from `s` shows no new error; or it fails, with a kind in `L`. -/
def WritesOrFailsIn (L : List ErrorKind) (s : State) : Except ErrorKind State → Prop
  | .ok u => NoNewError s u
  | .error k => k ∈ L

/-- Wherever the outcome leads from `s`, it is to no new error, or to the entry of an error of a kind in `L`. -/
def RaisesIn (L : List ErrorKind) (s : State) (o : Outcome) : Prop :=
  ∀ t : State, o = .next t → NoNewError s t ∨ ∃ k ∈ L, ∃ n : Nat, t = errorEntry k 0 (s.setDrawn n)

section raises
variable {L : List ErrorKind} {s u : State}

theorem NoNewError.refl (s : State) : NoNewError s s := ⟨rfl, id⟩

theorem NoNewError.setF (h : NoNewError s u) (r : Reg) (v : Word) : NoNewError s (u.setF r v) := { h with }

theorem NoNewError.setP (h : NoNewError s u) (r : Reg) (p : Poly) : NoNewError s (u.setP r p) := { h with }

theorem NoNewError.setB (h : NoNewError s u) (r : Reg) (b : Bytes) : NoNewError s (u.setB r b) := { h with }

theorem NoNewError.setResults (h : NoNewError s u) (z : Factors) : NoNewError s (u.setResults z) := { h with }

theorem NoNewError.setBudget (h : NoNewError s u) (v : Word32) : NoNewError s (u.setBudget v) := { h with }

theorem NoNewError.setDrawn (h : NoNewError s u) (n : Nat) : NoNewError s (u.setDrawn n) := { h with }

theorem NoNewError.advance (h : NoNewError s u) : NoNewError s u.advance := { h with }

theorem NoNewError.setAuth (h : NoNewError s u) (b : Bool) : NoNewError s (u.setAuth b) :=
  { h with state := by simpa using h.state }

theorem writesOrFailsIn_map {α : Type} {r : Except ErrorKind α} (hr : ErrorsIn L r) {f : α → State}
    (hf : ∀ a, NoNewError s (f a)) : WritesOrFailsIn L s (r.map f) := by
  cases r with
  | error k => exact hr k rfl
  | ok a => exact hf a

theorem writesOrFailsIn_bind {α : Type} {r : Except ErrorKind α} (hr : ErrorsIn L r) {f : α → Except ErrorKind State}
    (hf : ∀ a, WritesOrFailsIn L s (f a)) : WritesOrFailsIn L s (r.bind f) := by
  cases r with
  | error k => exact hr k rfl
  | ok a => exact hf a

theorem writeP_writesOrFailsIn (hL : .capacityExceeded ∈ L) (hu : NoNewError s u) (r : Reg) (p : List Word) :
    WritesOrFailsIn L s (writeP u r p) := by
  unfold writeP
  split_ifs
  exacts [hL, hu.setP r _]

theorem writeB_map_writesOrFailsIn (hL : .capacityExceeded ∈ L) (r : Reg) (b : Bytes) {f : State → State}
    (hf : NoNewError s (f (s.setB r b))) : WritesOrFailsIn L s ((writeB s r b).map f) := by
  unfold writeB
  split_ifs
  exacts [hL, hf]

theorem writeQuotRem_writesOrFailsIn (hL : .capacityExceeded ∈ L) (rd rc : Reg) (x : Poly × Poly) :
    WritesOrFailsIn L s (writeQuotRem s rd rc x) := by
  have hq := writeP_writesOrFailsIn hL (.refl s) rd x.1
  unfold writeQuotRem
  cases h : writeP s rd x.1 with
  | error k =>
    rw [h] at hq
    exact hq
  | ok t =>
    rw [h] at hq
    exact writeP_writesOrFailsIn hL hq rc x.2

/-- A command that has drawn, or not, ends as its result says. -/
theorem finish_raisesIn {r : Except ErrorKind State} (h : WritesOrFailsIn L s r) (n : Nat) :
    RaisesIn L s (finish (s.setDrawn n) r) := by
  intro t ht
  obtain ⟨v, rfl, rfl⟩ | ⟨k, rfl, rfl⟩ := finish_eq_next ht
  exacts [.inl (NoNewError.advance h), .inr ⟨k, h, n, rfl⟩]

theorem finish_ok_raisesIn (h : NoNewError s u) : RaisesIn L s (finish s (.ok u)) :=
  finish_raisesIn (r := .ok u) h s.drawn

/-- A command whose side condition holds. -/
theorem guarded_raisesIn {c : Prop} [Decidable c] (hc : c) {o o' : Outcome} (h : RaisesIn L s o) :
    RaisesIn L s (if c then o else o') := by
  rwa [if_pos hc]

theorem putF_raisesIn {r : Except ErrorKind Word} (hr : ErrorsIn L r) (rd : Reg) : RaisesIn L s (putF s rd r) :=
  finish_raisesIn (writesOrFailsIn_map hr fun v => (NoNewError.refl s).setF rd v) s.drawn

theorem putP_raisesIn (hL : .capacityExceeded ∈ L) {r : Except ErrorKind Poly} (hr : ErrorsIn L r) (rd : Reg) :
    RaisesIn L s (putP s rd r) :=
  finish_raisesIn (writesOrFailsIn_bind hr fun p => writeP_writesOrFailsIn hL (.refl s) rd p) s.drawn

theorem putList_raisesIn {r : Except ErrorKind Factors} (hr : ErrorsIn L r) (n : Nat) :
    RaisesIn L s (putList (s.setDrawn n) r) :=
  finish_raisesIn (writesOrFailsIn_map hr fun z => ((NoNewError.refl s).setDrawn n).setResults z) n

end raises

theorem execPpow_raisesIn (rd ra rb : Reg) (s : State) : RaisesIn tabulatedKinds s (execPpow rd ra rb s) := by
  unfold execPpow
  split_ifs
  · exact finish_raisesIn (r := .error .capacityExceeded) (by decide : _ ∈ tabulatedKinds) s.drawn
  · exact putP_raisesIn (by decide) (errorsIn_ok _ _) rd

theorem listEntry_errorsIn (s : State) (i : Nat) : ErrorsIn [.preconditionViolation] (listEntry s i) := by
  unfold listEntry
  split
  exacts [errorsIn_error (by decide), errorsIn_ok _ _]

/-- R303, R304, R306, R308: the kinds of every well-formed command. -/
theorem exec_raisesIn {i : Instr} (hwf : i.wf = true) (s : State) : RaisesIn (kindsOf i) s (exec i s) := by
  have h0 : NoNewError s s := .refl s
  have hdiv : .divisionByZero ∈ tabulatedKinds := by decide
  have hpre : [.preconditionViolation] ⊆ tabulatedKinds := by decide
  have hcap : .capacityExceeded ∈ tabulatedKinds := by decide
  have hstage : stageKinds ⊆ tabulatedKinds := by decide
  cases i with
  | nop => exact finish_ok_raisesIn h0
  | halt =>
    rintro _ ⟨⟩
    exact .inl ⟨rfl, fun _ => by simp [stHalted, stError]⟩
  | csrr rd => exact guarded_raisesIn hwf (putF_raisesIn (errorsIn_ok _ _) rd)
  | csrw => exact guarded_raisesIn hwf (finish_ok_raisesIn (h0.setBudget _))
  | fadd rd | fmul rd | fmuln rd | fbrev rd | fpow rd | fsqrt rd | fmov rd | fli rd | pgetc rd | lcnt rd | forge rd =>
    exact putF_raisesIn (errorsIn_ok _ _) rd
  | finv rd => exact putF_raisesIn ((feInv_onlyDivisionByZero _).errorsIn hdiv) rd
  | fdiv rd => exact putF_raisesIn ((feDiv_onlyDivisionByZero _ _).errorsIn hdiv) rd
  | padd rd | pmul rd | pderiv rd | pmov rd | psetc rd => exact putP_raisesIn hcap (errorsIn_ok _ _) rd
  | ppowmod rd => exact putP_raisesIn hcap ((pPowmod_onlyDivisionByZero _ _ _).errorsIn hdiv) rd
  | psqrt rd => exact putP_raisesIn hcap ((pSqrt_errorsIn _).mono hpre) rd
  | pmonic rd => exact putP_raisesIn hcap ((pMonic_onlyDivisionByZero _).errorsIn hdiv) rd
  | pgcd rd => exact putP_raisesIn hcap ((pGcd_onlyDivisionByZero _ _).errorsIn hdiv) rd
  | pdivmod rd rc =>
    exact guarded_raisesIn hwf (finish_raisesIn (writesOrFailsIn_bind
      ((pDivmod_onlyDivisionByZero _ _).errorsIn hdiv) (writeQuotRem_writesOrFailsIn hcap rd rc)) s.drawn)
  | ppow rd ra rb => exact execPpow_raisesIn rd ra rb s
  | sff => exact putList_raisesIn ((sff_errorsIn _).mono hstage) s.drawn
  | ddf => exact putList_raisesIn ((ddf_errorsIn _).mono hstage) s.drawn
  | edf => exact putList_raisesIn ((edf_errorsIn _ _ _ _ _).map _) _
  | factor => exact putList_raisesIn (factor_errorsIn _ _ _ _) _
  | lgetp rd =>
    exact finish_raisesIn (writesOrFailsIn_bind ((listEntry_errorsIn _ _).mono hpre)
      fun e => writeP_writesOrFailsIn hcap h0 rd e.1) s.drawn
  | lgetn rd =>
    exact finish_raisesIn (writesOrFailsIn_map ((listEntry_errorsIn _ _).mono hpre) fun _ => h0.setF rd _) s.drawn
  | ghash rd rc => exact guarded_raisesIn hwf (finish_ok_raisesIn ((h0.setF rd _).setF rc _))
  | gcmenc rd rc => exact finish_raisesIn (writeB_map_writesOrFailsIn hcap rd _ ((h0.setB rd _).setF rc _)) s.drawn
  | gcmdec rd => exact finish_raisesIn (writeB_map_writesOrFailsIn hcap rd _ ((h0.setB rd _).setAuth _)) s.drawn
  | recover rd rc =>
    exact guarded_raisesIn hwf (finish_raisesIn (writesOrFailsIn_map (recover_errorsIn _ _ _ _ _ _)
      fun _ => ((h0.setDrawn _).setF rd _).setF rc _) _)

/-! ## The kinds that only some commands raise (R303, R304, R306, R308) -/

theorem noRootFound_mem_kindsOf {i : Instr} (h : .noRootFound ∈ kindsOf i) : i.mnemonic = .recover := by
  unfold kindsOf at h
  split at h
  · assumption
  all_goals exact absurd h (by decide)

theorem retryBudgetExceeded_mem_kindsOf {i : Instr} (h : .retryBudgetExceeded ∈ kindsOf i) :
    i.mnemonic = .edf ∨ i.mnemonic = .factor ∨ i.mnemonic = .recover := by
  unfold kindsOf at h
  split at h
  · exact .inr (.inr ‹_›)
  · exact .inl ‹_›
  · exact .inr (.inl ‹_›)
  · exact absurd h (by decide)

theorem illegalCommand_notMem_kindsOf (i : Instr) : .illegalCommand ∉ kindsOf i := by
  unfold kindsOf
  split <;> decide

theorem fetchOutOfRange_notMem_kindsOf (i : Instr) : .fetchOutOfRange ∉ kindsOf i := by
  unfold kindsOf
  split <;> decide

/-- The code a command leaves in `ECODE`, clear before, is that of a kind it can raise, or of IllegalCommand for a term that no word stands for. -/
theorem mem_kindsOf_of_ecode {i : Instr} {s t : State} (h0 : s.ecode = 0) (ht : exec i s = .next t) {k : ErrorKind}
    (hk : t.ecode = k.code) : k ∈ kindsOf i ∨ k = .illegalCommand ∧ i.wf = false := by
  cases hwf : i.wf with
  | false =>
    rw [exec_of_not_wf hwf] at ht
    cases ht
    exact .inr ⟨code_injective hk.symm, rfl⟩
  | true =>
    obtain hno | ⟨k', hmem, n, rfl⟩ := exec_raisesIn hwf s t ht
    · exact absurd (hk.symm.trans (hno.ecode.trans h0)) (by cases k <;> decide)
    · exact .inl (code_injective hk ▸ hmem)

/-- Settles O8: each kind is one of those that the command can raise. -/
theorem errorKindsNameTheirCommands : Obligations.ErrorKindsNameTheirCommands := by
  intro i s t _ h0 ht
  have hkind : ∀ k : ErrorKind, t.ecode = k.code → k ∈ kindsOf i ∨ k = .illegalCommand ∧ i.wf = false :=
    fun _ => mem_kindsOf_of_ecode h0 ht
  refine ⟨fun h => ?_, fun h => ?_, fun h => ?_, fun h => ?_⟩
  · exact noRootFound_mem_kindsOf ((hkind .noRootFound h).resolve_right (by simp))
  · exact retryBudgetExceeded_mem_kindsOf ((hkind .retryBudgetExceeded h).resolve_right (by simp))
  · exact ((hkind .illegalCommand h).resolve_left (illegalCommand_notMem_kindsOf i)).2
  · exact fetchOutOfRange_notMem_kindsOf i ((hkind .fetchOutOfRange h).resolve_right (by simp))

/-! ## The entry into ERROR (R305) -/

/-- R305, R306: a step of a running machine that stops in ERROR is the entry of an error at the state it began in, but for the draws made; `EINFO` takes the word fetched exactly for IllegalCommand. -/
theorem step_errorEntry {s t : State} (hr : s.running = true) (ht : step s = .next t)
    (hstate : statusState t.status = stError) : ∃ (k : ErrorKind) (n : Nat), s.drawn ≤ n ∧
      t = errorEntry k (if k = .illegalCommand then s.cmRead s.pc.toNat else 0) (s.setDrawn n) := by
  have hrun : statusState s.status ≠ stError := by rw [state_eq_one_of_running hr]; decide
  obtain ⟨hn, -⟩ | ⟨-, -, h⟩ | ⟨-, -, -, h⟩ | ⟨-, -, i, hd, h⟩ := step_cases s
  · exact absurd (hr.symm.trans hn) (by decide)
  · exact ⟨.fetchOutOfRange, s.drawn, le_rfl, Host.Outcome.next.inj (ht.symm.trans h)⟩
  · exact ⟨.illegalCommand, s.drawn, le_rfl, Host.Outcome.next.inj (ht.symm.trans h)⟩
  · have hexec : exec i s = .next t := h.symm.trans ht
    obtain hno | ⟨k, hk, n, rfl⟩ := exec_raisesIn (encode_of_decode hd).2 s t hexec
    · exact absurd hstate (hno.state hrun)
    · have hkind : k ≠ .illegalCommand := ne_of_mem_of_not_mem hk (illegalCommand_notMem_kindsOf i)
      have hdraws : s.drawn ≤ n := by
        obtain ⟨-, -, -, -, -, -, -, -, -, -, hle, -⟩ := commandsWriteOnlyTheirDestinations i s _ hr hexec
        exact hle
      exact ⟨k, n, hdraws, by rw [if_neg hkind]⟩

/-- Settles O7: a step that ends in ERROR is an error entry, which writes the four registers of R305. -/
theorem errorEntryIsPrecise : Obligations.ErrorEntryIsPrecise := by
  refine ⟨rfl, fun s t hr ht hstate => ?_⟩
  obtain ⟨k, n, hn, rfl⟩ := step_errorEntry hr ht hstate
  exact ⟨k, rfl, rfl, rfl, rfl, rfl, rfl, rfl, rfl, statusAuth_withState _ _, statusReserved_withState _ _,
    rfl, rfl, rfl, rfl, hn⟩

end Sys2Proof.Machine
end

section
/-! The tables of R301, R302 and R307: each command in which they name a condition raises the kind of the table exactly under that condition, and no other command raises one of the three kinds. -/

namespace Sys2Proof.Machine

/-! ## The tables -/

/-- The one kind of R301, R302 and R307 whose table names the command. -/
def tableKind : Instr → Option ErrorKind
  | .finv .. | .fdiv .. | .pdivmod .. | .ppowmod .. | .pmonic .. | .pgcd .. | .sff .. | .factor .. | .recover .. =>
    some .divisionByZero
  | .psqrt .. | .ddf .. | .edf .. | .lgetp .. | .lgetn .. => some .preconditionViolation
  | .pmul .. | .ppow .. | .psetc .. => some .capacityExceeded
  | _ => none

/-- The condition of a kind's table for a command. -/
def tableCondition (s : State) (i : Instr) : ErrorKind → Prop
  | .divisionByZero => dividesByZero s i
  | .preconditionViolation => violatesPrecondition s i
  | .capacityExceeded => exceedsCapacity s i
  | _ => False

/-- The kinds that the tables decide. Of capacity they speak while the result list is within the bounds of R202: `LGETP` would find no room for a longer entry. -/
def Decided (s : State) : ErrorKind → Prop
  | .divisionByZero | .preconditionViolation => True
  | .capacityExceeded => ListFits s
  | _ => False

section tables
variable {s : State} {i : Instr} {k : ErrorKind}

theorem tableKind_of_dividesByZero (h : dividesByZero s i) : tableKind i = some .divisionByZero := by
  cases i with
  | finv | fdiv | pdivmod | ppowmod | pmonic | pgcd | sff | factor | recover => rfl
  | _ => exact False.elim h

theorem tableKind_of_violatesPrecondition (h : violatesPrecondition s i) :
    tableKind i = some .preconditionViolation := by
  cases i with
  | psqrt | ddf | edf | lgetp | lgetn => rfl
  | _ => exact False.elim h

theorem tableKind_of_exceedsCapacity (h : exceedsCapacity s i) : tableKind i = some .capacityExceeded := by
  cases i with
  | pmul | ppow | psetc => rfl
  | _ => exact False.elim h

/-- No command stands in two of the tables. -/
theorem tableKind_of_tableCondition (h : tableCondition s i k) : tableKind i = some k := by
  cases k with
  | divisionByZero => exact tableKind_of_dividesByZero h
  | preconditionViolation => exact tableKind_of_violatesPrecondition h
  | capacityExceeded => exact tableKind_of_exceedsCapacity h
  | _ => exact False.elim h

end tables

/-! ## How a command of a table ends -/

/-- `t` shows no error of a kind that the tables decide. -/
def ShowsNoDecided (s t : State) : Prop := ∀ k, Decided s k → t.ecode ≠ k.code

/-- The command ends in the error of each kind exactly under the condition of its table. -/
def FollowsTables (s : State) (i : Instr) : Prop :=
  ∃ t : State, exec i s = .next t ∧ ∀ k, Decided s k → (t.ecode = k.code ↔ tableCondition s i k)

section follows
variable {s t : State} {i : Instr} {k : ErrorKind}

theorem showsNoDecided_of_ecode_eq (h0 : s.ecode = 0) (h : t.ecode = s.ecode) : ShowsNoDecided s t := fun k _ => by
  rw [h, h0]
  cases k <;> decide

theorem showsNoDecided_errorEntry (h : ¬ Decided s k) (info : Word32) (u : State) :
    ShowsNoDecided s (errorEntry k info u) :=
  fun _ hk he => h (code_injective he ▸ hk)

/-- A command that no table names. -/
theorem followsTables_of_none (hi : tableKind i = none) (ht : exec i s = .next t) (hno : ShowsNoDecided s t) :
    FollowsTables s i :=
  ⟨t, ht, fun k hk => iff_of_false (hno k hk) fun h => nomatch hi.symm.trans (tableKind_of_tableCondition h)⟩

/-- A command that a table names, by the condition it names. -/
theorem followsTables_of_some (hi : tableKind i = some k)
    (hyes : tableCondition s i k → exec i s = .next (errorEntry k 0 s))
    (hno : ¬ tableCondition s i k → ∃ t, exec i s = .next t ∧ ShowsNoDecided s t) : FollowsTables s i := by
  have honly : ∀ k', tableCondition s i k' → k' = k := fun k' h =>
    Option.some.inj ((tableKind_of_tableCondition h).symm.trans hi)
  by_cases hc : tableCondition s i k
  · refine ⟨_, hyes hc, fun k' _ => ⟨fun h => ?_, fun h => by rw [honly k' h]; rfl⟩⟩
    obtain rfl : k = k' := code_injective h
    exact hc
  · obtain ⟨t, ht, hshow⟩ := hno hc
    exact ⟨t, ht, fun k' hk => iff_of_false (hshow k' hk) fun h => hc (honly k' h ▸ h)⟩

/-- A command that raises nothing outside its table. -/
theorem followsTables_of_completes (h0 : s.ecode = 0) (hi : tableKind i = some k)
    (hyes : tableCondition s i k → exec i s = .next (errorEntry k 0 s))
    (hno : ¬ tableCondition s i k → ∃ t, exec i s = .next t ∧ t.ecode = s.ecode) : FollowsTables s i :=
  followsTables_of_some hi hyes fun hc => by
    obtain ⟨t, ht, he⟩ := hno hc
    exact ⟨t, ht, showsNoDecided_of_ecode_eq h0 he⟩

end follows

/-! ## The commands -/

/-- R261: after the monic form, `recover` fails for want of budget or of a root. -/
theorem recover_error {rand : Nat → Word} {budget n m : Nat} {m1 m2 m3 : Message} {k : ErrorKind}
    (h0 : recoverPoly m1 m2 ≠ polyZero) (h : recover rand budget n m1 m2 m3 = (.error k, m)) :
    k = .retryBudgetExceeded ∨ k = .noRootFound := by
  obtain ⟨f, hf, hmonic, -⟩ := pMonic_spec ⟨recoverPoly_canonical m1 m2, h0⟩
  rcases ho : factor rand budget n f with ⟨k' | out, m'⟩
  · rw [recover_of_factor_error hf ho] at h
    cases h
    exact .inl (factor_error hmonic.nonzero ho)
  · rw [recover_of_stages hf ho] at h
    exact .inr (List.mem_singleton.mp (recoverSearch_errorsIn m1 m3 out k (congrArg Prod.fst h)))

theorem execLgetp_of_lt {s : State} {rd : Reg} {imm : BitVec 8} (h : imm.toNat < s.results.length) :
    execLgetp rd imm s = putP s rd (.ok (s.results[imm.toNat]'h).1) := by
  rw [execLgetp, immNat, listEntry_of_lt h]
  rfl

theorem execLgetn_of_lt {s : State} {rd : Reg} {imm : BitVec 8} (h : imm.toNat < s.results.length) :
    execLgetn rd imm s = putF s rd (.ok ((s.results[imm.toNat]'h).2.setWidth 128)) := by
  rw [execLgetn, immNat, listEntry_of_lt h]
  rfl

section commands
variable {s : State} (h0 : s.ecode = 0)
include h0

theorem finv_followsTables (d a : Reg) : FollowsTables s (.finv d a) := by
  obtain ⟨-, -, hinv, hzero, -, -⟩ := inverseAndDivisionComplete s d a a
  refine followsTables_of_completes h0 rfl hzero fun hc => ?_
  obtain ⟨v, -, ht⟩ := hinv hc
  exact ⟨_, ht, rfl⟩

theorem fdiv_followsTables (d a b : Reg) : FollowsTables s (.fdiv d a b) := by
  obtain ⟨-, -, -, -, hdiv, hzero⟩ := inverseAndDivisionComplete s d a b
  refine followsTables_of_completes h0 rfl hzero fun hc => ?_
  obtain ⟨v, -, ht⟩ := hdiv hc
  exact ⟨_, ht, rfl⟩

theorem lgetn_followsTables (d : Reg) (n : BitVec 8) : FollowsTables s (.lgetn d n) := by
  refine followsTables_of_completes h0 rfl (fun hc => ?_) fun hc => ?_
  · exact congrArg (fun r => finish s (r.map fun e => s.setF d (e.2.setWidth 128))) (listEntry_of_le hc)
  · exact ⟨_, (execLgetn_of_lt (not_le.mp hc)).trans (putF_of_ok rfl), rfl⟩

/-- R301 to R304: `RECOVER` of a nonzero combined polynomial can only lack a budget or a root. -/
theorem recover_followsTables {d c : Reg} (hdc : d ≠ c) (a b : Reg) : FollowsTables s (.recover d c a b) := by
  refine followsTables_of_some rfl
    (fun hc => exec_recover_of_error (m := s.drawn) hdc (recover_of_polyZero hc _)) fun hc => ?_
  rcases hr : recoverHere s a b with ⟨k | ⟨x, mask⟩, m⟩
  · refine ⟨_, exec_recover_of_error hdc hr, showsNoDecided_errorEntry ?_ _ _⟩
    obtain rfl | rfl := recover_error hc hr
    exacts [id, id]
  · exact ⟨_, exec_recover_of_ok hdc hr, showsNoDecided_of_ecode_eq h0 rfl⟩

variable (hi : Inv s)
include hi

theorem pmul_followsTables (d a b : Reg) : FollowsTables s (.pmul d a b) := by
  obtain ⟨-, -, hmul, hover, -, -⟩ := productCommandsComplete s d a b hi
  refine followsTables_of_completes h0 rfl (fun ⟨ha, hb, hlt⟩ => hover ha hb hlt) fun hc => ⟨_, hmul ?_, rfl⟩
  by_contra h
  push Not at h
  exact hc h

theorem ppow_followsTables (d a b : Reg) : FollowsTables s (.ppow d a b) := by
  obtain ⟨-, -, -, -, hpow, hover⟩ := productCommandsComplete s d a b hi
  refine followsTables_of_completes h0 rfl (fun ⟨ha, hlt⟩ => hover ha hlt) fun hc => ⟨_, hpow ?_, rfl⟩
  by_contra h
  push Not at h
  exact hc h

theorem psetc_followsTables (d a : Reg) (n : BitVec 8) : FollowsTables s (.psetc d a n) := by
  obtain ⟨-, -, -, -, -, hset, hover⟩ := coefficientCommandsComplete s d a a n hi
  refine followsTables_of_completes h0 rfl hover fun hc => ?_
  have hfit : n.toNat < s.params.maxCoef ∨ s.getF a = 0 := by
    by_contra h
    push Not at h
    exact hc h
  obtain ⟨p, -, -, ht⟩ := hset hfit
  exact ⟨_, ht, rfl⟩

theorem pdivmod_followsTables {d c : Reg} (hdc : d ≠ c) (a b : Reg) : FollowsTables s (.pdivmod d c a b) := by
  obtain ⟨-, -, hdiv, hzero, -, -⟩ := divisionCommandsComplete s d c a b hi
  refine followsTables_of_completes h0 rfl (hzero hdc) fun hc => ?_
  obtain ⟨q, r, -, -, ht⟩ := hdiv hdc hc
  exact ⟨_, ht, rfl⟩

theorem ppowmod_followsTables (d a b c : Reg) : FollowsTables s (.ppowmod d a b c) := by
  obtain ⟨-, -, -, -, hpow, hzero⟩ := divisionCommandsComplete s d c a b hi
  refine followsTables_of_completes h0 rfl hzero fun hc => ?_
  obtain ⟨r, -, ht⟩ := hpow hc
  exact ⟨_, ht, rfl⟩

theorem psqrt_followsTables (d a : Reg) : FollowsTables s (.psqrt d a) := by
  obtain ⟨-, -, -, hroot, hodd, -⟩ := rootMonicAndGcdCommandsComplete s d a a hi
  refine followsTables_of_completes h0 rfl hodd fun hc => ?_
  have heven : ∀ i, i % 2 = 1 → coeffAt (s.getP a) i = 0 := by
    by_contra h
    push Not at h
    exact hc h
  obtain ⟨r, -, ht⟩ := hroot heven
  exact ⟨_, ht, rfl⟩

theorem pmonic_followsTables (d a : Reg) : FollowsTables s (.pmonic d a) := by
  obtain ⟨-, -, -, -, -, hmonic, hzero, -⟩ := rootMonicAndGcdCommandsComplete s d a a hi
  refine followsTables_of_completes h0 rfl hzero fun hc => ?_
  obtain ⟨q, v, -, -, -, ht⟩ := hmonic hc
  exact ⟨_, ht, rfl⟩

theorem pgcd_followsTables (d a b : Reg) : FollowsTables s (.pgcd d a b) := by
  obtain ⟨-, -, -, -, -, -, -, hgcd, hzeros⟩ := rootMonicAndGcdCommandsComplete s d a b hi
  refine followsTables_of_completes h0 rfl (fun ⟨ha, hb⟩ => hzeros ha hb) fun hc => ?_
  obtain ⟨g, -, -, ht⟩ := hgcd (not_and_or.mp hc)
  exact ⟨_, ht, rfl⟩

theorem sff_followsTables (a : Reg) : FollowsTables s (.sff a) := by
  obtain ⟨hzero, hsff⟩ := squareFreeStageCompletes s a hi
  refine followsTables_of_completes h0 rfl hzero fun hc => ?_
  obtain ⟨z, ht, -⟩ := hsff hc
  exact ⟨_, ht, rfl⟩

theorem ddf_followsTables (a : Reg) : FollowsTables s (.ddf a) := by
  obtain ⟨hzero, hddf⟩ := distinctDegreeStageCompletes s a hi
  refine followsTables_of_completes h0 rfl hzero fun hc => ?_
  obtain ⟨parts, left, d, ht, -⟩ := hddf hc
  exact ⟨_, ht, rfl⟩

/-- R302, R304: `EDF` past its precondition can only use up its budget. -/
theorem edf_followsTables (a : Reg) (n : BitVec 8) : FollowsTables s (.edf a n) := by
  obtain ⟨hviolates, -⟩ := equalDegreeStageWithoutATrial s a n hi
  obtain ⟨-, hends⟩ := edfDrawsWithinItsBudget
  refine followsTables_of_some rfl hviolates fun hc => ?_
  obtain ⟨z, -, ht⟩ | ⟨k, -, ⟨-, hv⟩ | ⟨rfl, -⟩, ht⟩ := hends s a n hi
  · exact ⟨_, ht, showsNoDecided_of_ecode_eq h0 rfl⟩
  · exact absurd hv hc
  · exact ⟨_, ht, showsNoDecided_errorEntry id _ _⟩

/-- R301, R302, R304: `FACTOR` of a nonzero polynomial can only use up the budget of an `edf`. -/
theorem factor_followsTables (a : Reg) : FollowsTables s (.factor a) := by
  obtain ⟨-, hzero, -⟩ := factorOfDegreeAtMostOneCompletes s a hi
  obtain ⟨-, hends⟩ := factorsMultiplyBack
  refine followsTables_of_some rfl hzero fun hc => ?_
  obtain ⟨z, -, ht⟩ | ⟨k, -, ⟨-, hz⟩ | ⟨rfl, -⟩, ht⟩ := hends s a hi
  · exact ⟨_, ht, showsNoDecided_of_ecode_eq h0 rfl⟩
  · exact absurd hz hc
  · exact ⟨_, ht, showsNoDecided_errorEntry id _ _⟩

/-- R200: an entry that finds no room is beyond the bounds of R202. -/
theorem lgetp_followsTables (d : Reg) (n : BitVec 8) : FollowsTables s (.lgetp d n) := by
  refine followsTables_of_some rfl (fun hc => ?_) fun hc => ?_
  · exact congrArg (fun r => finish s (r.bind fun e => writeP s d e.1)) (listEntry_of_le hc)
  · have hlt : n.toNat < s.results.length := not_le.mp hc
    have hmem := List.getElem_mem hlt
    have hexec : exec (.lgetp d n) s = putP s d (.ok (s.results[n.toNat]'hlt).1) := execLgetp_of_lt hlt
    by_cases hfit : (s.results[n.toNat]'hlt).1.length ≤ s.params.maxCoef
    · exact ⟨_, hexec.trans (putP_of_canonical rfl ⟨hi.list _ hmem, hfit⟩), showsNoDecided_of_ecode_eq h0 rfl⟩
    · have hover : s.params.maxCoef < (canon (s.results[n.toNat]'hlt).1).length := by
        rw [hi.list _ hmem]
        exact not_le.mp hfit
      have hlist : ¬ ListFits s := fun hfits => hfit (hfits.2 _ hmem).1
      exact ⟨_, hexec.trans (putP_of_exceeds rfl hover), showsNoDecided_errorEntry (k := .capacityExceeded) hlist _ _⟩

/-- R301, R302, R307: the three tables, command by command. -/
theorem exec_followsTables {i : Instr} (hwf : i.wf = true) : FollowsTables s i := by
  have hnone {i : Instr} {t : State} (hk : tableKind i = none) (ht : exec i s = .next t) (he : t.ecode = s.ecode) :
      FollowsTables s i := followsTables_of_none hk ht (showsNoDecided_of_ecode_eq h0 he)
  cases i with
  | nop | halt | fadd | fmul | fmuln | fbrev | fpow | fsqrt | fmov | fli | pgetc | lcnt | forge =>
    exact hnone rfl rfl rfl
  | csrr | csrw => exact hnone rfl (if_pos hwf) rfl
  | finv d a => exact finv_followsTables h0 d a
  | fdiv d a b => exact fdiv_followsTables h0 d a b
  | padd d a b =>
    obtain ⟨⟨-, ht⟩, -⟩ := coefficientCommandsComplete s d a b 0 hi
    exact hnone rfl ht rfl
  | pmul d a b => exact pmul_followsTables h0 hi d a b
  | pdivmod d c a b => exact pdivmod_followsTables h0 hi (wf_pdivmod_iff.mp hwf) a b
  | ppow d a b => exact ppow_followsTables h0 hi d a b
  | ppowmod d a b c => exact ppowmod_followsTables h0 hi d a b c
  | pderiv d a =>
    obtain ⟨-, ⟨-, ht⟩, -⟩ := coefficientCommandsComplete s d a a 0 hi
    exact hnone rfl ht rfl
  | psqrt d a => exact psqrt_followsTables h0 hi d a
  | pmonic d a => exact pmonic_followsTables h0 hi d a
  | pgcd d a b => exact pgcd_followsTables h0 hi d a b
  | pmov d a =>
    obtain ⟨-, -, ⟨-, ht⟩, -⟩ := coefficientCommandsComplete s d a a 0 hi
    exact hnone rfl ht rfl
  | psetc d a n => exact psetc_followsTables h0 hi d a n
  | sff a => exact sff_followsTables h0 hi a
  | ddf a => exact ddf_followsTables h0 hi a
  | edf a n => exact edf_followsTables h0 hi a n
  | factor a => exact factor_followsTables h0 hi a
  | lgetp d n => exact lgetp_followsTables h0 hi d n
  | lgetn d n => exact lgetn_followsTables h0 d n
  | ghash d c a b e =>
    obtain ⟨hghash, -⟩ := gcmCommandsComplete s d c a b e e hi
    exact hnone rfl (hghash (of_decide_eq_true hwf)).2 rfl
  | gcmenc d c a b e f =>
    obtain ⟨-, ⟨-, ht⟩, -⟩ := gcmCommandsComplete s d c a b e f hi
    exact hnone rfl ht rfl
  | gcmdec d c a b e f =>
    obtain ⟨-, -, -, ht⟩ := gcmCommandsComplete s d c a b e f hi
    exact hnone rfl ht rfl
  | recover d c a b => exact recover_followsTables h0 (of_decide_eq_true hwf) a b

end commands

/-! ## The statements -/

/-- What `ECODE` shows after a command, for every kind that the tables decide. -/
theorem ecode_eq_code_iff {i : Instr} {s t : State} (hi : Inv s) (hr : s.running = true) (hwf : i.wf = true)
    (ht : exec i s = .next t) {k : ErrorKind} (hk : Decided s k) : t.ecode = k.code ↔ tableCondition s i k := by
  obtain ⟨u, hu, htables⟩ := exec_followsTables (hi.ecode_eq_zero_of_running hr) hi hwf
  obtain rfl : u = t := Host.Outcome.next.inj (hu.symm.trans ht)
  exact htables k hk

/-- Settles O9: the table of R301. -/
theorem divisionByZeroExactly : Obligations.DivisionByZeroExactly :=
  fun _ _ _ hi hr hwf ht => ecode_eq_code_iff hi hr hwf ht (k := .divisionByZero) trivial

/-- Settles O10: the table of R302. -/
theorem preconditionViolationExactly : Obligations.PreconditionViolationExactly :=
  fun _ _ _ hi hr hwf ht => ecode_eq_code_iff hi hr hwf ht (k := .preconditionViolation) trivial

/-- Settles O11: the conditions of R307, in a state whose list is within its bounds. -/
theorem capacityExceededExactly : Obligations.CapacityExceededExactly :=
  fun _ _ _ hi hfits hr hwf ht => ecode_eq_code_iff hi hr hwf ht (k := .capacityExceeded) hfits

end Sys2Proof.Machine
end
